-- ==== Sys2Proof/Word.lean ====
section
/-! DEFINITION. The word types of the HUF1 block. -/

namespace Sys2Proof

/-- A command word, a register or a RAM word: 32 bits (R18, R40, R42, R70). -/
abbrev Word := BitVec 32

/-- A symbol (SYM_BITS = 8, R6) or a packed byte (R53). -/
abbrev Byte := BitVec 8

/-- An index into NODE_RAM (NODE_AW = 9, R6): a node, the ROOT register, the decoder's pointer. -/
abbrev NodeIx := BitVec 9

end Sys2Proof
end

