-- ==== Sys2Proof/Syntax.lean ====
section
/-! DEFINITION. The commands of the HUF1 block: one constructor per row of the opcode table (R73). -/

namespace Sys2Proof

/-- The two units (R10, R72). -/
inductive CodecUnit
  | enc
  | dec
  deriving DecidableEq, Repr

/-- The eleven commands (R73). A format FI command keeps its ignored bits [27:0] (R71, R76), so that no bit of a word is
lost in decoding. -/
inductive Instr
  /-- NOP (R120), format FI. -/
  | nop (ignored : BitVec 28)
  /-- ENC_START (R100), format F0. -/
  | encStart
  /-- ENC_SYM (R101), format FS, with the symbol SYM (R74). -/
  | encSym (sym : Byte)
  /-- ENC_FLUSH (R102), format F0. -/
  | encFlush
  /-- ENC_ABORT (R103), format F0. -/
  | encAbort
  /-- ENC_RESET (R104), format FI. -/
  | encReset (ignored : BitVec 28)
  /-- DEC_START (R110), format F0. -/
  | decStart
  /-- DEC_BITS (R111), format FB, with the bit count N and the data byte DATA (R75). -/
  | decBits (n : BitVec 4) (data : Byte)
  /-- DEC_END (R112), format F0. -/
  | decEnd
  /-- DEC_ABORT (R113), format F0. -/
  | decAbort
  /-- DEC_RESET (R114), format FI. -/
  | decReset (ignored : BitVec 28)
  deriving DecidableEq, Repr

end Sys2Proof
end

