-- ==== Sys2Proof/WellFormed.lean ====
section
/-! DEFINITION. Which commands have legal fields. -/

namespace Sys2Proof

/-- A bit count that DEC_BITS may carry: 1 to 8 (R75). -/
abbrev LegalCount (n : BitVec 4) : Prop :=
  1 ≤ n.toNat ∧ n.toNat ≤ 8

/-- A command with legal fields. N of DEC_BITS is 1 to 8 (R75); every other field is legal at every value (R74, R76). -/
abbrev Instr.WellFormed : Instr → Prop
  | .nop _ => True
  | .encStart => True
  | .encSym _ => True
  | .encFlush => True
  | .encAbort => True
  | .encReset _ => True
  | .decStart => True
  | .decBits n _ => LegalCount n
  | .decEnd => True
  | .decAbort => True
  | .decReset _ => True

end Sys2Proof
end

