-- ==== Sys2Proof/Decode.lean ====
section
/-! DEFINITION. Decoding command words (R79), total on all 32-bit words, and encoding commands. -/

namespace Sys2Proof

/-- The `len` bits of `w` from bit `lo` upwards: `w[lo+len-1 : lo]` in the notation of R7. -/
def field (w : Word) (lo len : Nat) : BitVec len :=
  w.extractLsb' lo len

/-- The unit that bit [31] of a word selects (R72). -/
def unitOf (w : Word) : CodecUnit :=
  if w.getLsbD 31 then .dec else .enc

/-- Why a word is illegal: the cases (1), (2)-(4) and (5) of R77. -/
inductive IllegalReason
  | reservedOpcode
  | mustBeZero
  | bitCount
  deriving DecidableEq, Repr

/-- What the decoder reads from a word (R78): a command with legal fields, or an illegal word charged to a unit. -/
inductive Decoded
  | legal (i : Instr)
  | illegal (u : CodecUnit) (why : IllegalReason)
  deriving DecidableEq, Repr

/-- A format F0 word: bits [27:0] must be zero (R71, R77 (2)). -/
def decodeF0 (i : Instr) (w : Word) : Decoded :=
  if field w 0 28 = 0 then .legal i else .illegal (unitOf w) .mustBeZero

/-- A format FS word: bits [27:8] must be zero, SYM = [7:0] (R74, R77 (3)). -/
def decodeFS (w : Word) : Decoded :=
  if field w 8 20 = 0 then .legal (.encSym (field w 0 8)) else .illegal (unitOf w) .mustBeZero

/-- A format FB word: bits [27:12] must be zero, N = [11:8] is 1 to 8, DATA = [7:0] (R75, R77 (4), (5)). -/
def decodeFB (w : Word) : Decoded :=
  if field w 12 16 = 0 then
    if LegalCount (field w 8 4) then .legal (.decBits (field w 8 4) (field w 0 8))
    else .illegal (unitOf w) .bitCount
  else .illegal (unitOf w) .mustBeZero

/-- The decode function (R79). -/
def decode (w : Word) : Decoded :=
  match field w 28 4 with
  | 0x0#4 => .legal (.nop (field w 0 28))
  | 0x1#4 => decodeF0 .encStart w
  | 0x2#4 => decodeFS w
  | 0x3#4 => decodeF0 .encFlush w
  | 0x4#4 => decodeF0 .encAbort w
  | 0x5#4 => .legal (.encReset (field w 0 28))
  | 0x9#4 => decodeF0 .decStart w
  | 0xA#4 => decodeFB w
  | 0xB#4 => decodeF0 .decEnd w
  | 0xC#4 => decodeF0 .decAbort w
  | 0xD#4 => .legal (.decReset (field w 0 28))
  | _ => .illegal (unitOf w) .reservedOpcode

/-- The word of a command (R73): OP in [31:28] and the fields of its format (R71). -/
def encode : Instr → Word
  | .nop x => x.setWidth 32
  | .encStart => 0x10000000#32
  | .encSym sym => 0x20000000#32 ||| sym.setWidth 32
  | .encFlush => 0x30000000#32
  | .encAbort => 0x40000000#32
  | .encReset x => 0x50000000#32 ||| x.setWidth 32
  | .decStart => 0x90000000#32
  | .decBits n d => 0xA0000000#32 ||| (n.setWidth 32 <<< 8) ||| d.setWidth 32
  | .decEnd => 0xB0000000#32
  | .decAbort => 0xC0000000#32
  | .decReset x => 0xD0000000#32 ||| x.setWidth 32

/-- The unit a command belongs to; NOP belongs to neither (R72). -/
def Instr.unit : Instr → Option CodecUnit
  | .nop _ => none
  | .encStart => some .enc
  | .encSym _ => some .enc
  | .encFlush => some .enc
  | .encAbort => some .enc
  | .encReset _ => some .enc
  | .decStart => some .dec
  | .decBits _ _ => some .dec
  | .decEnd => some .dec
  | .decAbort => some .dec
  | .decReset _ => some .dec

/-- The command the decoder reads from a table word. Every command is one 32-bit word written whole to CMD (R70), so the
numbering of the opcode table is that of the word, and a word of another length than 32 bits is no command. -/
def decodeTableWord (nbits w : Nat) : Option Instr :=
  if nbits ≤ 32 then
    match decode (BitVec.ofNat 32 w) with
    | .legal i => some i
    | .illegal _ _ => none
  else none

end Sys2Proof
end

