-- ==== Sys2Proof/Config.lean ====
section
/-! DEFINITION. What an instance fixes (the OPEN parameters of R6) and the free value of the model. -/

namespace Sys2Proof

/-- The OPEN parameters of R6 that one block instance has.
N_INST is the number of blocks in a `System` (Machine/System.lean). -/
structure Config where
  /-- CMDQ_DEPTH, the depth of the command FIFO. -/
  cmdqDepth : Nat
  /-- ENC_OUT_DEPTH, the depth of the encoder's output FIFO. -/
  encOutDepth : Nat
  /-- DEC_OUT_DEPTH, the depth of the decoder's output FIFO. -/
  decOutDepth : Nat
  /-- BASE, the bus address of the block's aperture. -/
  base : Nat
  deriving DecidableEq, Repr

/-- The bounds of R6. A model must reject a configuration outside them. -/
abbrev Config.InBounds (c : Config) : Prop :=
  (1 ≤ c.cmdqDepth ∧ c.cmdqDepth ≤ 255) ∧ (32 ≤ c.encOutDepth ∧ c.encOutDepth ≤ 255) ∧
    (8 ≤ c.decOutDepth ∧ c.decOutDepth ≤ 255) ∧ c.base % 0x10000 = 0

/-- The default depths of R6. DESIGN CHOICE (log 6): BASE is 0; R6 gives it no default. -/
def Config.default : Config :=
  { cmdqDepth := 16, encOutDepth := 64, decOutDepth := 16, base := 0 }

/-- FREE VALUE (R49, I6; log 4): the `n`-th value that the instance with these parameters draws for a host read of a RAM
word not written since reset. Instances of one system differ in BASE (R143), so no two of them are known to draw the same
value. It has no body: nothing can be proved about it. -/
opaque Config.unwrittenWord (c : Config) (n : Nat) : Word

end Sys2Proof
end

