-- ==== Sys2Proof/Machine/State.lean ====
section
/-! DEFINITION. The state of one HUF1 block, as plain data, and the state right after reset (R48). -/

namespace Sys2Proof.Machine

/-- The state of a unit (R26). The encoding 3 is never produced (I14), so it has no constructor. -/
inductive UnitState
  | idle
  | active
  | error
  deriving DecidableEq, Repr

/-- The error codes 0 to 7 (R128). The codes 8..15 are never produced (I14), so they have no constructor. -/
inductive ErrCode
  | none
  | inputUnreadable
  | unknownSymbol
  | truncatedStream
  | inconsistentEmptyState
  | badCodeEntry
  | sequenceError
  | illegalCommand
  deriving DecidableEq, Repr

/-- The encoder unit: stream state, error record, pending bits, counters and output FIFO. -/
structure EncUnit where
  /-- ENC_STATE (R26). -/
  state : UnitState
  /-- ERR.ENC_ERR (R29). -/
  err : ErrCode
  /-- ENC_ERR_CMD (R30). -/
  errCmd : Word
  /-- ACC, the pending bits, right-aligned, oldest highest (R38). -/
  acc : BitVec 7
  /-- ACC_N, how many bits are pending (R38). -/
  accN : BitVec 3
  /-- ENC_BITCNT (R35). -/
  bitcnt : Word
  /-- ENC_SYMCNT (R35). -/
  symcnt : Word
  /-- The encoder output FIFO, oldest byte first (R45). -/
  out : List Byte
  deriving DecidableEq, Repr

/-- The decoder unit: stream state, error record, tree pointer, counters and output FIFO. -/
structure DecUnit where
  /-- DEC_STATE (R26). -/
  state : UnitState
  /-- ERR.DEC_ERR (R29). -/
  err : ErrCode
  /-- DEC_ERR_CMD (R30). -/
  errCmd : Word
  /-- DEC_PTR, the current pointer into the tree (R39). -/
  ptr : NodeIx
  /-- DEC_SEEN, set by the first bit consumed without error (R39). -/
  seen : Bool
  /-- DEC_BITCNT (R36). -/
  bitcnt : Word
  /-- DEC_SYMCNT (R36). -/
  symcnt : Word
  /-- The decoder output FIFO, oldest symbol first (R46). -/
  out : List Byte
  deriving DecidableEq, Repr

/-- The bytes of the table RAMs, as (byte offset in the aperture, byte) pairs with rising offsets (log 5). A RAM word not
written since reset has no bytes listed, which is the written mark of R49. -/
abbrev Memory := List Host.Cell

/-- One host access as the bus ports present it (R15): direction, byte offset, size in bytes and write data. -/
structure Access where
  /-- bus_we: true for a write. -/
  we : Bool
  /-- bus_addr. -/
  addr : BitVec 16
  /-- bus_size. -/
  size : BitVec 3
  /-- bus_wdata. -/
  wdata : Word
  deriving DecidableEq, Repr

/-- What the block answers to a host access (R15, R55): bus_ack, bus_err and bus_rdata. -/
structure Response where
  /-- bus_ack: the access completed. -/
  ack : Bool
  /-- bus_err: the access was not admitted. -/
  err : Bool
  /-- bus_rdata; none where the access moves no read data (an admitted write, log 7). -/
  rdata : Option Word
  deriving DecidableEq, Repr

/-- One step of the block's total order (R11, R12, R62). -/
inductive Turn
  /-- The engine may execute the head command (R121). -/
  | engine
  /-- The host makes one bus access (R55). -/
  | host (a : Access)
  /-- rst = 1 at a clock edge, with the access the host presents meanwhile, if any (R147, R148). -/
  | reset (presented : Option Access)
  deriving DecidableEq, Repr

/-- The state of one block. -/
structure State where
  /-- The instance's parameters (R6); no step changes them. -/
  cfg : Config
  /-- CTRL.TREE_VALID (R24). -/
  treeValid : Bool
  /-- ROOT (R25). -/
  root : NodeIx
  /-- STATUS.CMD_LOST (R28). -/
  cmdLost : Bool
  /-- STATUS.CFG_DROP (R28). -/
  cfgDrop : Bool
  /-- The encoder unit. -/
  enc : EncUnit
  /-- The decoder unit. -/
  dec : DecUnit
  /-- The command FIFO, oldest word first (R44). -/
  cmdq : List Word
  /-- NODE_RAM and CODE_RAM (R40, R42). -/
  mem : Memory
  /-- The bus response ports: the answer to the latest host access (log 7). -/
  bus : Option Response
  /-- MODEL (log 1): the turns that come next, first one first. With none listed the engine has the turn. -/
  turns : List Turn
  /-- MODEL (log 4): how many free values have been drawn. -/
  freeIdx : Nat
  deriving DecidableEq, Repr

/-- Why the machine stops with a fault. -/
inductive Fault
  /-- Raised by ENC_SYM and DEC_BITS on an engine read of a table word that has not been written since reset: the
  "unwritten table word" model fault of R49 (I5), with the word's byte offset. Safe: the hardware goes on with a value the
  spec does not fix. -/
  | unwrittenTableWord (offset : Nat)
  deriving DecidableEq, Repr

/-- Why the machine refuses a step. -/
inductive Refusal
  /-- Raised by exec for an instruction without a meaning. No arm raises it. Safe. -/
  | notModelled (mnemonic : String)
  /-- Raised by step when the configuration is outside the bounds of R6, and by a system's step when the system is not
  legal: a model must reject either (I22). Safe. -/
  | configurationOutOfBounds
  deriving DecidableEq, Repr

/-- The outcome of a step. -/
abbrev StepResult := Host.Outcome State Fault Refusal

/-- The encoder unit after reset (R48). -/
def EncUnit.reset : EncUnit :=
  { state := .idle, err := .none, errCmd := 0, acc := 0, accN := 0, bitcnt := 0, symcnt := 0, out := [] }

/-- The decoder unit after reset (R48). -/
def DecUnit.reset : DecUnit :=
  { state := .idle, err := .none, errCmd := 0, ptr := 0, seen := false, bitcnt := 0, symcnt := 0, out := [] }

/-- The state right after a hardware reset (R48, R147), with the default parameters of R6. DESIGN CHOICE: no access
answered yet (log 7), no turn listed (log 1), no free value drawn (log 4). -/
def State.reset : State :=
  { cfg := .default, treeValid := false, root := 0, cmdLost := false, cfgDrop := false
    enc := .reset, dec := .reset, cmdq := [], mem := [], bus := none, turns := [], freeIdx := 0 }

end Sys2Proof.Machine
end

