-- ==== Sys2Proof/Machine/Ops.lean ====
section
/-! DEFINITION. The shared operations over the state: units, RAM bytes and words, FIFO pushes, error entry (R132), the way
out of an error (R135), the treatment of illegal words (R123) and the hardware reset (R147). -/

namespace Sys2Proof.Machine

/-- The state with another encoder unit. -/
def State.setEnc (s : State) (e : EncUnit) : State :=
  { s with enc := e }

/-- The state with another decoder unit. -/
def State.setDec (s : State) (d : DecUnit) : State :=
  { s with dec := d }

/-! ### RAM bytes -/

/-- What an unlisted byte reads as: no value (R49), but for the bytes of a CODE_RAM header that hold no LEN: there VALID
and the reserved bits are 0 after reset (R42, R48). -/
def Memory.unlisted (a : Nat) : Option Byte :=
  if 0x8000 ≤ a ∧ a < 0xC000 ∧ 1 ≤ a % 64 ∧ a % 64 ≤ 3 then some 0 else none

/-- The byte listed at an offset. -/
def Memory.find : Memory → Nat → Option Byte
  | [], _ => none
  | (k, b) :: m, a => if k = a then some b else Memory.find m a

/-- The byte at an offset: the one listed, else what the offset reads as unlisted. -/
def Memory.read (m : Memory) (a : Nat) : Option Byte :=
  match m.find a with
  | some b => some b
  | none => Memory.unlisted a

/-- List a byte at an offset, keeping the offsets rising. -/
def Memory.put : Memory → Nat → Byte → Memory
  | [], a, b => [(a, b)]
  | (k, c) :: m, a, b =>
    if a < k then (a, b) :: (k, c) :: m
    else if a = k then (a, b) :: m
    else (k, c) :: Memory.put m a b

/-- List no byte at an offset. -/
def Memory.del : Memory → Nat → Memory
  | [], _ => []
  | (k, c) :: m, a => if a = k then Memory.del m a else (k, c) :: Memory.del m a

/-- Store a byte at an offset, keeping the canonical form. -/
def Memory.write (m : Memory) (a : Nat) (b : Byte) : Memory :=
  if Memory.unlisted a = some b then m.del a else m.put a b

/-- The canonical form: offsets strictly rising, and no entry equal to what its offset reads as unlisted. -/
abbrev Memory.wf (m : Memory) : Prop :=
  m.Pairwise (fun x y => x.1 < y.1) ∧ ∀ c ∈ m, Memory.unlisted c.1 ≠ some c.2

/-! ### RAM words -/

/-- The word whose byte lanes are `b3` (bits [31:24]) down to `b0` (bits [7:0]). -/
def wordOfBytes (b3 b2 b1 b0 : Byte) : Word :=
  b3 ++ b2 ++ b1 ++ b0

/-- The byte of a word in the lane at offset +k: little-endian lanes (R54). -/
def byteLane (w : Word) (k : Nat) : Byte :=
  w.extractLsb' (8 * k) 8

/-- The RAM word at an offset, if every byte of it has a value. -/
def Memory.readWord (m : Memory) (a : Nat) : Option Word :=
  match m.read (a + 3), m.read (a + 2), m.read (a + 1), m.read a with
  | some b3, some b2, some b1, some b0 => some (wordOfBytes b3 b2 b1 b0)
  | _, _, _, _ => none

/-- Store a RAM word at an offset. -/
def Memory.writeWord (m : Memory) (a : Nat) (w : Word) : Memory :=
  (((m.write a (byteLane w 0)).write (a + 1) (byteLane w 1)).write (a + 2) (byteLane w 2)).write (a + 3) (byteLane w 3)

/-! ### Output FIFOs -/

/-- `emit_byte(b)` of R9: push a byte to ENC_OUT. -/
def EncUnit.emitByte (b : Byte) (e : EncUnit) : EncUnit :=
  { e with out := e.out ++ [b] }

/-- `emit_sym(s)` of R9: push a symbol to DEC_OUT and count it, modulo 2^32. -/
def DecUnit.emitSym (sym : Byte) (d : DecUnit) : DecUnit :=
  { d with out := d.out ++ [sym], symcnt := d.symcnt + 1 }

/-! ### Errors -/

/-- `state(u)` of R123 and R132. -/
def State.unitState (s : State) (u : CodecUnit) : UnitState :=
  match u with
  | .enc => s.enc.state
  | .dec => s.dec.state

/-- Error entry `raise Err(u, code, w)` (R132): the unit goes to ERROR and records the code and the command word. -/
def raiseErr (u : CodecUnit) (code : ErrCode) (w : Word) (s : State) : State :=
  match u with
  | .enc => s.setEnc { s.enc with state := .error, err := code, errCmd := w }
  | .dec => s.setDec { s.dec with state := .error, err := code, errCmd := w }

/-- An illegal command word (R123): discarded while its unit is in ERROR, else IllegalCommand. -/
def illegalCommand (u : CodecUnit) (w : Word) (s : State) : State :=
  match s.unitState u with
  | .error => s
  | .idle => raiseErr u .illegalCommand w s
  | .active => raiseErr u .illegalCommand w s

/-- The way out of ERROR for the encoder (R104, R135): IDLE, no error, no pending bits, counters 0, ENC_OUT empty. -/
def State.resetEnc (s : State) : State :=
  s.setEnc { state := .idle, err := .none, errCmd := 0, acc := 0, accN := 0, bitcnt := 0, symcnt := 0, out := [] }

/-- The way out of ERROR for the decoder (R114, R135): IDLE, no error, the pointer at ROOT, counters 0, DEC_OUT empty. -/
def State.resetDec (s : State) : State :=
  s.setDec
    { state := .idle, err := .none, errCmd := 0, ptr := s.root, seen := false, bitcnt := 0, symcnt := 0, out := [] }

/-! ### Hardware reset -/

/-- The bus answer to an access that is not admitted: bus_err and read data 0 (R55, R148). DESIGN CHOICE (log 7): bus_ack is
low in it; the rules do not speak of bus_ack beside bus_err. -/
def Response.notAdmitted : Response :=
  { ack := false, err := true, rdata := some 0 }

/-- The reset step (R147): every piece of the block's state at its reset value. The configuration is the instance's, and
the model's own fields run on. An access presented meanwhile gets no effect and bus_err (R148). -/
def hardReset (presented : Option Access) (s : State) : State :=
  { State.reset with
    cfg := s.cfg
    turns := s.turns
    freeIdx := s.freeIdx
    bus := presented.map (fun _ => Response.notAdmitted) }

end Sys2Proof.Machine
end

