-- ==== Sys2Proof/Machine/Flags.lean ====
section
/-! DEFINITION. The flags and the register views: STATUS (R26-R28), ERR (R29), LEVELS (R31), PARAMS (R23), and the sticky
flags' write-one-to-clear rule. -/

namespace Sys2Proof.Machine

/-- The encoding of a unit state in STATUS (R26). -/
def UnitState.code : UnitState → BitVec 2
  | .idle => 0
  | .active => 1
  | .error => 2

/-- The encoding of an error code in ERR (R128). -/
def ErrCode.code : ErrCode → BitVec 4
  | .none => 0
  | .inputUnreadable => 1
  | .unknownSymbol => 2
  | .truncatedStream => 3
  | .inconsistentEmptyState => 4
  | .badCodeEntry => 5
  | .sequenceError => 6
  | .illegalCommand => 7

/-- CMDQ_EMPTY (R27). -/
def State.cmdqEmpty (s : State) : Bool :=
  decide (s.cmdq.length = 0)

/-- CMDQ_FULL (R27). -/
def State.cmdqFull (s : State) : Bool :=
  decide (s.cmdq.length = s.cfg.cmdqDepth)

/-- DEC_AT_ROOT (R27). -/
def State.decAtRoot (s : State) : Bool :=
  decide (s.dec.ptr = s.root)

/-- STATUS (R26-R28), from bit [31] down to bit [0]. -/
def statusWord (s : State) : Word :=
  0#12 ++ s.enc.acc ++ s.enc.accN ++ BitVec.ofBool s.dec.seen ++ BitVec.ofBool s.decAtRoot ++
    BitVec.ofBool s.cfgDrop ++ BitVec.ofBool s.cmdLost ++ BitVec.ofBool s.cmdqFull ++ BitVec.ofBool s.cmdqEmpty ++
    s.dec.state.code ++ s.enc.state.code

/-- ERR (R29). -/
def errWord (s : State) : Word :=
  0#24 ++ s.dec.err.code ++ s.enc.err.code

/-- LEVELS (R31). -/
def levelsWord (s : State) : Word :=
  0#8 ++ BitVec.ofNat 8 s.dec.out.length ++ BitVec.ofNat 8 s.enc.out.length ++ BitVec.ofNat 8 s.cmdq.length

/-- PARAMS (R23). -/
def paramsWord (c : Config) : Word :=
  0#4 ++ 8#4 ++ BitVec.ofNat 8 c.decOutDepth ++ BitVec.ofNat 8 c.encOutDepth ++ BitVec.ofNat 8 c.cmdqDepth

/-- A write to STATUS (R28): writing 1 to bit [6] or [7] clears that sticky flag; every other bit ignores the write. -/
def writeStatus (v : Word) (s : State) : State :=
  { s with cmdLost := s.cmdLost && !v.getLsbD 6, cfgDrop := s.cfgDrop && !v.getLsbD 7 }

end Sys2Proof.Machine
end

