-- ==== Sys2Proof/Machine/Operands.lean ====
section
/-! DEFINITION. Operand assembly (R74, R75) and the engine's table reads (R40, R42, R52). -/

namespace Sys2Proof.Machine

/-! ### Layout of the aperture's RAMs -/

/-- The byte offset of NODE_RAM word `i` (R40). -/
def nodeOffset (i : NodeIx) : Nat :=
  0x4000 + 4 * i.toNat

/-- The byte offset of word `k` of the CODE_RAM entry of a symbol (R42): word 0 is the header. -/
def codeOffset (sym : Byte) (k : Nat) : Nat :=
  0x8000 + 64 * sym.toNat + 4 * k

/-! ### The bits of a command -/

/-- The N bits a DEC_BITS command supplies, in stream order: bit i of the group is DATA[7-i] (R75). -/
def groupBits (n : BitVec 4) (data : Byte) : List Bool :=
  (List.range n.toNat).map (fun i => data.getLsbD (7 - i))

/-- The bits of a code of `len` bits, first bit first: CODE[LEN-1] down to CODE[0] (R8, R42). -/
def codeBits (len : Nat) (code : BitVec 256) : List Bool :=
  (List.range len).map (fun i => code.getLsbD (len - 1 - i))

/-! ### NODE_RAM words -/

/-- IS_LEAF (R40). -/
def nodeIsLeaf (w : Word) : Bool :=
  w.getLsbD 31

/-- SYM, the symbol of a leaf (R40). -/
def nodeSym (w : Word) : Byte :=
  field w 0 8

/-- LEFT, the child on bit 0 (R40). -/
def nodeLeft (w : Word) : NodeIx :=
  field w 0 9

/-- RIGHT, the child on bit 1 (R40). -/
def nodeRight (w : Word) : NodeIx :=
  field w 16 9

/-- The child that a stream bit selects: bit 0 left, bit 1 right (R111). -/
def nodeChild (w : Word) (b : Bool) : NodeIx :=
  if b then nodeRight w else nodeLeft w

/-- An engine read of a RAM word: the model fault of R49 where it has not been written since reset. -/
def tableWord (m : Memory) (offset : Nat) : Except Fault Word :=
  match m.readWord offset with
  | some w => .ok w
  | none => .error (.unwrittenTableWord offset)

/-- `NodeRead(i)` (R9, R52). -/
def nodeRead (m : Memory) (i : NodeIx) : Except Fault Word :=
  tableWord m (nodeOffset i)

/-! ### CODE_RAM entries -/

/-- VALID of a symbol's entry, bit [31] of its header (R42). It is 0 after reset (R48). -/
def codeValid (m : Memory) (sym : Byte) : Bool :=
  match m.read (codeOffset sym 0 + 3) with
  | some b => b.getLsbD 7
  | none => false

/-- LEN of a symbol's entry, bits [7:0] of its header (R42), if it has been written since reset. -/
def codeLen (m : Memory) (sym : Byte) : Option Byte :=
  m.read (codeOffset sym 0)

/-- The number of code words that hold a code of `len` bits (R52). -/
def codeWordCount (len : Nat) : Nat :=
  (len + 31) / 32

/-- Words 1..n of an entry as the low 32*n bits of its code field: word k holds CODE[32k-1 : 32(k-1)] (R42, R52). -/
def codeWords (m : Memory) (sym : Byte) : Nat → Except Fault (BitVec 256)
  | 0 => .ok 0
  | k + 1 =>
    match codeWords m sym k with
    | .error f => .error f
    | .ok low =>
      match tableWord m (codeOffset sym (k + 1)) with
      | .error f => .error f
      | .ok w => .ok (low ||| (w.setWidth 256 <<< (32 * k)))

/-- What `CodeRead(s)` finds (R52): no key (VALID = 0), or LEN and the code field. -/
inductive CodeEntry
  | absent
  | present (len : Nat) (code : BitVec 256)
  deriving DecidableEq, Repr

/-- `CodeRead(s)` (R9, R52): with VALID = 0 nothing more is read; else LEN is, and then the words that hold LEN bits. -/
def codeRead (m : Memory) (sym : Byte) : Except Fault CodeEntry :=
  if codeValid m sym then
    match codeLen m sym with
    | none => .error (.unwrittenTableWord (codeOffset sym 0))
    | some len =>
      match codeWords m sym (codeWordCount len.toNat) with
      | .error f => .error f
      | .ok code => .ok (.present len.toNat code)
  else .ok .absent

end Sys2Proof.Machine
end

