-- ==== Sys2Proof/Machine/Bus.lean ====
section
/-! DEFINITION. Host accesses: the register map (R18), the access types (R19), admission (R55), gated writes (R60) and
what each read and write does (R20-R43, R57-R61). -/

namespace Sys2Proof.Machine

/-- What stands at an aligned offset of the aperture (R18). -/
inductive Target
  | id
  | ctrl
  | root
  | status
  | err
  | encErrCmd
  | decErrCmd
  | levels
  | cmd
  | encOut
  | decOut
  | encBitcnt
  | encSymcnt
  | decBitcnt
  | decSymcnt
  | decPtr
  | params
  /-- NODE_RAM[i] (R40). -/
  | node (i : NodeIx)
  /-- Word 0 of a CODE_RAM entry (R42). -/
  | codeHeader (sym : Byte)
  /-- Word k of a CODE_RAM entry, 1 ≤ k ≤ 8 (R42). -/
  | codeWord (sym : Byte) (k : Nat)
  /-- A reserved offset (R20, R43). -/
  | reserved
  deriving DecidableEq, Repr

/-- The register map below NODE_RAM (R18). -/
def targetRegister (o : Nat) : Target :=
  match o with
  | 0x000 => .id
  | 0x004 => .ctrl
  | 0x008 => .root
  | 0x00C => .status
  | 0x010 => .err
  | 0x014 => .encErrCmd
  | 0x018 => .decErrCmd
  | 0x01C => .levels
  | 0x020 => .cmd
  | 0x024 => .encOut
  | 0x028 => .decOut
  | 0x02C => .encBitcnt
  | 0x030 => .encSymcnt
  | 0x034 => .decBitcnt
  | 0x038 => .decSymcnt
  | 0x03C => .decPtr
  | 0x040 => .params
  | _ => .reserved

/-- A CODE_RAM offset (R42, R43): 16 words an entry, of which words 9..15 are reserved. -/
def targetCode (o : Nat) : Target :=
  let sym : Byte := BitVec.ofNat 8 ((o - 0x8000) / 64)
  let k := o % 64 / 4
  if k = 0 then .codeHeader sym else if k ≤ 8 then .codeWord sym k else .reserved

/-- The register map (R18). -/
def target (a : BitVec 16) : Target :=
  let o := a.toNat
  if o < 0x4000 then targetRegister o
  else if o < 0x4800 then .node (BitVec.ofNat 9 ((o - 0x4000) / 4))
  else if o < 0x8000 then .reserved
  else if o < 0xC000 then targetCode o
  else .reserved

/-- The bits of a NODE_RAM word that are stored: [31], [24:16] and [8:0] (R40). -/
def nodeMask : Word := 0x81FF01FF#32

/-- The bits of a CODE_RAM header that are stored: [31] and [7:0] (R42). -/
def headerMask : Word := 0x800000FF#32

/-! ### Reads -/

/-- A read of a RAM word by the host (R49, R61): the stored word, or a free value where it has not been written since
reset (log 4); the bits outside `mask` are reserved and read as 0. -/
def readRam (offset : Nat) (mask : Word) (s : State) : Word × State :=
  match s.mem.readWord offset with
  | some w => (w &&& mask, s)
  | none => (s.cfg.unwrittenWord s.freeIdx &&& mask, { s with freeIdx := s.freeIdx + 1 })

/-- A read of a CODE_RAM header by the host: VALID always has a value (R48); LEN is free where it has not been written
since reset (R49). -/
def readHeader (sym : Byte) (s : State) : Word × State :=
  match codeLen s.mem sym with
  | some len => (BitVec.ofBool (codeValid s.mem sym) ++ 0#23 ++ len, s)
  | none =>
    (BitVec.ofBool (codeValid s.mem sym) ++ 0#23 ++ field (s.cfg.unwrittenWord s.freeIdx) 0 8,
      { s with freeIdx := s.freeIdx + 1 })

/-- The read data of an output FIFO register with head `b`: VALID in bit [31] (R33, R34). -/
def outWord (b : Byte) : Word :=
  1#1 ++ 0#23 ++ b

/-- A read of ENC_OUT (R33). -/
def readEncOut (s : State) : Word × State :=
  match s.enc.out with
  | [] => (0, s)
  | b :: rest => (outWord b, s.setEnc { s.enc with out := rest })

/-- A read of DEC_OUT (R34). -/
def readDecOut (s : State) : Word × State :=
  match s.dec.out with
  | [] => (0, s)
  | b :: rest => (outWord b, s.setDec { s.dec with out := rest })

/-- An admitted read: the read data and the state after it. -/
def busRead (t : Target) (s : State) : Word × State :=
  match t with
  | .id => (0x48554631#32, s)
  | .ctrl => ((BitVec.ofBool s.treeValid).setWidth 32, s)
  | .root => (s.root.setWidth 32, s)
  | .status => (statusWord s, s)
  | .err => (errWord s, s)
  | .encErrCmd => (s.enc.errCmd, s)
  | .decErrCmd => (s.dec.errCmd, s)
  | .levels => (levelsWord s, s)
  | .cmd => (0, s)
  | .encOut => readEncOut s
  | .decOut => readDecOut s
  | .encBitcnt => (s.enc.bitcnt, s)
  | .encSymcnt => (s.enc.symcnt, s)
  | .decBitcnt => (s.dec.bitcnt, s)
  | .decSymcnt => (s.dec.symcnt, s)
  | .decPtr => (s.dec.ptr.setWidth 32, s)
  | .params => (paramsWord s.cfg, s)
  | .node i => readRam (nodeOffset i) nodeMask s
  | .codeHeader sym => readHeader sym s
  | .codeWord sym k => readRam (codeOffset sym k) 0xFFFFFFFF#32 s
  | .reserved => (0, s)

/-! ### Writes -/

/-- A write to CMD (R59): pushed, or lost where CMDQ is full. -/
def writeCmd (v : Word) (s : State) : State :=
  if s.cmdq.length < s.cfg.cmdqDepth then { s with cmdq := s.cmdq ++ [v] } else { s with cmdLost := true }

/-- A configuration write of the unit `u` (R60): made if CMDQ is empty and the unit is not ACTIVE, else dropped. -/
def gatedWrite (u : CodecUnit) (store : State → State) (s : State) : State :=
  if s.cmdq = [] ∧ s.unitState u ≠ .active then store s else { s with cfgDrop := true }

/-- An admitted write. -/
def busWrite (t : Target) (v : Word) (s : State) : State :=
  match t with
  | .id => s
  | .ctrl => gatedWrite .dec (fun s => { s with treeValid := v.getLsbD 0 }) s
  | .root => gatedWrite .dec (fun s => { s with root := field v 0 9 }) s
  | .status => writeStatus v s
  | .err => s
  | .encErrCmd => s
  | .decErrCmd => s
  | .levels => s
  | .cmd => writeCmd v s
  | .encOut => s
  | .decOut => s
  | .encBitcnt => s
  | .encSymcnt => s
  | .decBitcnt => s
  | .decSymcnt => s
  | .decPtr => s
  | .params => s
  | .node i => gatedWrite .dec (fun s => { s with mem := s.mem.writeWord (nodeOffset i) (v &&& nodeMask) }) s
  | .codeHeader sym => gatedWrite .enc (fun s => { s with mem := s.mem.writeWord (codeOffset sym 0) (v &&& headerMask) }) s
  | .codeWord sym k => gatedWrite .enc (fun s => { s with mem := s.mem.writeWord (codeOffset sym k) v }) s
  | .reserved => s

/-! ### Accesses -/

/-- The accesses the block admits (R55): 4 bytes at a 4-aligned offset. -/
abbrev Access.Admitted (a : Access) : Prop :=
  a.size = 4 ∧ a.addr.toNat % 4 = 0

/-- The answer to an admitted access. -/
def Response.admitted (rdata : Option Word) : Response :=
  { ack := true, err := false, rdata := rdata }

/-- One host access (R55, R56): the bus answer is left in the response ports. -/
def hostAccess (a : Access) (s : State) : State :=
  if a.Admitted then
    if a.we then { busWrite (target a.addr) a.wdata s with bus := some (.admitted none) }
    else { (busRead (target a.addr) s).2 with bus := some (.admitted (some (busRead (target a.addr) s).1)) }
  else { s with bus := some .notAdmitted }

/-- `MemRead(addr, 4)` (R9). -/
def memRead (addr : BitVec 16) : Access :=
  { we := false, addr := addr, size := 4, wdata := 0 }

/-- `MemWrite(addr, 4, v)` (R9). -/
def memWrite (addr : BitVec 16) (v : Word) : Access :=
  { we := true, addr := addr, size := 4, wdata := v }

end Sys2Proof.Machine
end

