-- ==== Sys2Proof/Machine/Control.lean ====
section
/-! DEFINITION. The control commands (43_control.md): NOP (R120), illegal words (R123) and the hold rule (R122). -/

namespace Sys2Proof.Machine

/-- NOP (R120): nothing, in any unit state. Bits [27:0] are ignored (R76). -/
def execNop (_ignored : BitVec 28) (s : State) : StepResult :=
  .next s

/-- The execution of an illegal command word (R123). -/
def execIllegal (u : CodecUnit) (w : Word) (s : State) : StepResult :=
  .next (illegalCommand u w s)

/-- `need` of ENC_SYM (R122): the bytes the command will emit, if it will not raise. It reads the header only (log 9). -/
def needEncSym (sym : Byte) (s : State) : Nat :=
  match s.enc.state with
  | .idle => 0
  | .error => 0
  | .active =>
    if codeValid s.mem sym then
      match codeLen s.mem sym with
      | none => 0
      | some len => if len.toNat = 0 then 0 else (s.enc.accN.toNat + len.toNat) / 8
    else 0

/-- `need` of ENC_FLUSH (R122): one byte where bits are pending. -/
def needEncFlush (s : State) : Nat :=
  match s.enc.state with
  | .idle => 0
  | .error => 0
  | .active => if s.enc.accN = 0 then 0 else 1

/-- `need` of DEC_BITS (R122): one symbol a bit at most. -/
def needDecBits (n : BitVec 4) (s : State) : Nat :=
  match s.dec.state with
  | .idle => 0
  | .error => 0
  | .active => n.toNat

/-- The output entries a command needs free in its unit's output FIFO (R122). -/
def need (i : Instr) (s : State) : Nat :=
  match i with
  | .nop _ => 0
  | .encStart => 0
  | .encSym sym => needEncSym sym s
  | .encFlush => needEncFlush s
  | .encAbort => 0
  | .encReset _ => 0
  | .decStart => 0
  | .decBits n _ => needDecBits n s
  | .decEnd => 0
  | .decAbort => 0
  | .decReset _ => 0

/-- `free(ENC_OUT)` and `free(DEC_OUT)` (R9). -/
def State.freeOut (s : State) (u : CodecUnit) : Nat :=
  match u with
  | .enc => s.cfg.encOutDepth - s.enc.out.length
  | .dec => s.cfg.decOutDepth - s.dec.out.length

/-- A command is held while its output would not fit (R122). -/
def heldInstr (i : Instr) (s : State) : Bool :=
  match i.unit with
  | none => false
  | some u => decide (s.freeOut u < need i s)

/-- A command word at the head of CMDQ is held (R122). An illegal word needs no output. -/
def held (w : Word) (s : State) : Bool :=
  match decode w with
  | .legal i => heldInstr i s
  | .illegal _ _ => false

end Sys2Proof.Machine
end

