-- ==== Sys2Proof/Machine/Decoder.lean ====
section
/-! DEFINITION. The decoder commands (42_decoder.md, R110-R115). Each meaning runs after the head command has been removed
from CMDQ and found not held (R121). The command word that an error records is the command's own encoding (log 11). -/

namespace Sys2Proof.Machine

/-- How a walk over stream bits ends: the decoder unit after them, the unit at a raise and its code, or a model fault. -/
inductive WalkResult
  | more (d : DecUnit)
  | raised (d : DecUnit) (code : ErrCode)
  | fault (f : Fault)
  deriving DecidableEq, Repr

/-- One bit consumed without error: counted modulo 2^32, and remembered in DEC_SEEN (R111). -/
def DecUnit.consumed (d : DecUnit) : DecUnit :=
  { d with bitcnt := d.bitcnt + 1, seen := true }

/-- One stream bit (R111, the loop body). The tables are those of `s`; TREE_VALID and the root word are read at each bit. -/
def walkBit (s : State) (b : Bool) (d : DecUnit) : WalkResult :=
  if s.treeValid then
    match nodeRead s.mem s.root with
    | .error f => .fault f
    | .ok r =>
      if nodeIsLeaf r then .more (d.emitSym (nodeSym r)).consumed
      else
        match nodeRead s.mem d.ptr with
        | .error f => .fault f
        | .ok p =>
          match nodeRead s.mem (nodeChild p b) with
          | .error f => .fault f
          | .ok q =>
            if nodeIsLeaf q then .more { (d.emitSym (nodeSym q)).consumed with ptr := s.root }
            else .more { d.consumed with ptr := nodeChild p b }
  else .raised d .inconsistentEmptyState

/-- The bits of one command in stream order (R111, the loop). -/
def walkBits (s : State) : List Bool → DecUnit → WalkResult
  | [], d => .more d
  | b :: bits, d =>
    match walkBit s b d with
    | .more d' => walkBits s bits d'
    | .raised d' code => .raised d' code
    | .fault f => .fault f

/-- The decoder unit at the start of a stream: the pointer at the root (R110). -/
def DecUnit.opened (root : NodeIx) (d : DecUnit) : DecUnit :=
  { d with state := .active, ptr := root, seen := false, bitcnt := 0, symcnt := 0 }

/-- DEC_START (R110). -/
def execDecStart (s : State) : StepResult :=
  match s.dec.state with
  | .error => .next s
  | .active => .next (raiseErr .dec .sequenceError (encode .decStart) s)
  | .idle => .next (s.setDec (s.dec.opened s.root))

/-- DEC_BITS (R111). A count outside 1..8 makes the word illegal (R77 (5), log 10). -/
def execDecBits (n : BitVec 4) (data : Byte) (s : State) : StepResult :=
  if LegalCount n then
    match s.dec.state with
    | .error => .next s
    | .idle => .next (raiseErr .dec .sequenceError (encode (.decBits n data)) s)
    | .active =>
      match walkBits s (groupBits n data) s.dec with
      | .more d => .next (s.setDec d)
      | .raised d code => .next (raiseErr .dec code (encode (.decBits n data)) (s.setDec d))
      | .fault f => .fault f
  else .next (illegalCommand .dec (encode (.decBits n data)) s)

/-- DEC_END (R112): an empty stream against a tree is checked before a stream that stopped mid-code (R131). -/
def execDecEnd (s : State) : StepResult :=
  match s.dec.state with
  | .error => .next s
  | .idle => .next (raiseErr .dec .sequenceError (encode .decEnd) s)
  | .active =>
    if s.treeValid && !s.dec.seen then .next (raiseErr .dec .inconsistentEmptyState (encode .decEnd) s)
    else if s.treeValid && decide (s.dec.ptr ≠ s.root) then .next (raiseErr .dec .truncatedStream (encode .decEnd) s)
    else .next (s.setDec { s.dec with state := .idle })

/-- DEC_ABORT (R113): the host's upstream input failed. -/
def execDecAbort (s : State) : StepResult :=
  match s.dec.state with
  | .error => .next s
  | .idle => .next (raiseErr .dec .inputUnreadable (encode .decAbort) s)
  | .active => .next (raiseErr .dec .inputUnreadable (encode .decAbort) s)

/-- DEC_RESET (R114), in every state. Bits [27:0] are ignored (R76). -/
def execDecReset (_ignored : BitVec 28) (s : State) : StepResult :=
  .next s.resetDec

end Sys2Proof.Machine
end

