-- ==== Sys2Proof/Machine/Encoder.lean ====
section
/-! DEFINITION. The encoder commands (41_encoder.md, R100-R105). Each meaning runs after the head command has been removed
from CMDQ and found not held (R121). The command word that an error records is the command's own encoding (log 11). -/

namespace Sys2Proof.Machine

/-- Append one code bit to the pending bits, emitting the byte when it is the eighth (R101, the loop body). -/
def EncUnit.appendBit (b : Bool) (e : EncUnit) : EncUnit :=
  let t : Byte := (e.acc.setWidth 8 <<< 1) ||| (BitVec.ofBool b).setWidth 8
  if e.accN = 7 then { e.emitByte t with acc := 0, accN := 0 }
  else { e with acc := t.setWidth 7, accN := e.accN + 1 }

/-- Append the bits of a code, first bit first (R101, the loop). -/
def EncUnit.appendBits (bits : List Bool) (e : EncUnit) : EncUnit :=
  bits.foldl (fun e b => e.appendBit b) e

/-- The encoding of one symbol whose code is `bits`: its bits appended, LEN bits and one symbol counted (R101). -/
def EncUnit.encodeSymbol (bits : List Bool) (e : EncUnit) : EncUnit :=
  { e.appendBits bits with
    bitcnt := e.bitcnt + BitVec.ofNat 32 bits.length
    symcnt := e.symcnt + 1 }

/-- The encoder unit at the start of a stream (R100). -/
def EncUnit.opened (e : EncUnit) : EncUnit :=
  { e with state := .active, acc := 0, accN := 0, bitcnt := 0, symcnt := 0 }

/-- The last byte of a stream with bits pending: they stand highest, zeros below (R102). -/
def EncUnit.paddedByte (e : EncUnit) : Byte :=
  e.acc.setWidth 8 <<< (8 - e.accN.toNat)

/-- The encoder unit at the end of a stream: pending bits padded and emitted, the stream closed (R102). -/
def EncUnit.flushed (e : EncUnit) : EncUnit :=
  { (if e.accN = 0 then e else e.emitByte e.paddedByte) with acc := 0, accN := 0, state := .idle }

/-- ENC_START (R100). -/
def execEncStart (s : State) : StepResult :=
  match s.enc.state with
  | .error => .next s
  | .active => .next (raiseErr .enc .sequenceError (encode .encStart) s)
  | .idle => .next (s.setEnc s.enc.opened)

/-- ENC_SYM (R101). The table is read only in an open stream; VALID is checked before LEN (R131). -/
def execEncSym (sym : Byte) (s : State) : StepResult :=
  match s.enc.state with
  | .error => .next s
  | .idle => .next (raiseErr .enc .sequenceError (encode (.encSym sym)) s)
  | .active =>
    match codeRead s.mem sym with
    | .error f => .fault f
    | .ok .absent => .next (raiseErr .enc .unknownSymbol (encode (.encSym sym)) s)
    | .ok (.present 0 _) => .next (raiseErr .enc .badCodeEntry (encode (.encSym sym)) s)
    | .ok (.present (l + 1) code) => .next (s.setEnc (s.enc.encodeSymbol (codeBits (l + 1) code)))

/-- ENC_FLUSH (R102). -/
def execEncFlush (s : State) : StepResult :=
  match s.enc.state with
  | .error => .next s
  | .idle => .next (raiseErr .enc .sequenceError (encode .encFlush) s)
  | .active => .next (s.setEnc s.enc.flushed)

/-- ENC_ABORT (R103): the host's upstream input failed. -/
def execEncAbort (s : State) : StepResult :=
  match s.enc.state with
  | .error => .next s
  | .idle => .next (raiseErr .enc .inputUnreadable (encode .encAbort) s)
  | .active => .next (raiseErr .enc .inputUnreadable (encode .encAbort) s)

/-- ENC_RESET (R104), in every state. Bits [27:0] are ignored (R76). -/
def execEncReset (_ignored : BitVec 28) (s : State) : StepResult :=
  .next s.resetEnc

end Sys2Proof.Machine
end

