-- ==== Sys2Proof/Machine/Dispatch.lean ====
section
/-! DEFINITION. The meaning of every command (R121): one arm per constructor of Instr. -/

namespace Sys2Proof.Machine

def exec (i : Instr) (s : State) : Host.Outcome State Fault Refusal :=
  match i with
  | .nop ignored => Sys2Proof.Machine.execNop ignored s
  | .encStart => Sys2Proof.Machine.execEncStart s
  | .encSym sym => Sys2Proof.Machine.execEncSym sym s
  | .encFlush => Sys2Proof.Machine.execEncFlush s
  | .encAbort => Sys2Proof.Machine.execEncAbort s
  | .encReset ignored => Sys2Proof.Machine.execEncReset ignored s
  | .decStart => Sys2Proof.Machine.execDecStart s
  | .decBits n data => Sys2Proof.Machine.execDecBits n data s
  | .decEnd => Sys2Proof.Machine.execDecEnd s
  | .decAbort => Sys2Proof.Machine.execDecAbort s
  | .decReset ignored => Sys2Proof.Machine.execDecReset ignored s

end Sys2Proof.Machine
end

