-- ==== Sys2Proof/Machine/Step.lean ====
section
/-! DEFINITION. One step of the block: the next turn of its total order (R11, R62). -/

namespace Sys2Proof.Machine

/-- The execution of a command word that has been removed from CMDQ (R121). -/
def execWord (w : Word) (s : State) : StepResult :=
  match decode w with
  | .legal i => exec i s
  | .illegal u _ => execIllegal u w s

/-- The engine's turn (R121): the head command is removed and executed. The engine has no step, and nothing changes,
while CMDQ is empty (R145, R160) or the head is held (R122) (log 2). -/
def engineStep (s : State) : StepResult :=
  match s.cmdq with
  | [] => .next s
  | w :: rest => if held w s then .next s else execWord w { s with cmdq := rest }

/-- One turn (R11, R12). -/
def runTurn (t : Turn) (s : State) : StepResult :=
  match t with
  | .engine => engineStep s
  | .host a => .next (hostAccess a s)
  | .reset presented => .next (hardReset presented s)

/-- One step: the first turn listed, or the engine's where none is (log 1). A configuration outside its bounds is
rejected (R6). -/
def step (s : State) : Host.Outcome State Fault Refusal :=
  if s.cfg.InBounds then
    match s.turns with
    | [] => engineStep s
    | t :: ts => runTurn t { s with turns := ts }
  else .refused .configurationOutOfBounds

/-- The state with a command word at the head of CMDQ, where the engine takes its next command (R44), and the engine's
turn next (log 8). A command is one 32-bit word (R70). -/
def State.withFetchWord (s : State) (_nbits w : Nat) : State :=
  { s with cmdq := BitVec.ofNat 32 w :: s.cmdq.tail, turns := .engine :: s.turns }

end Sys2Proof.Machine
end

