-- ==== Sys2Proof/Machine/Assembler.lean ====
section
/-! DEFINITION. The assembler's notation (R80) and its pseudo-commands (R81), over lists of characters. What R80 leaves
open of the lexical form is in log 18. -/

namespace Sys2Proof.Assembler

/-- A letter in upper case: mnemonics are case-insensitive (R80). -/
def upper (c : Char) : Char :=
  if 'a'.toNat ≤ c.toNat ∧ c.toNat ≤ 'z'.toNat then Char.ofNat (c.toNat - 32) else c

/-- Blank characters. -/
def isBlank (c : Char) : Bool :=
  c.toNat = 32 || c.toNat = 9

/-- The value of a digit, decimal or hex. -/
def digitValue (c : Char) : Option Nat :=
  let n := c.toNat
  if 48 ≤ n ∧ n ≤ 57 then some (n - 48)
  else if 97 ≤ n ∧ n ≤ 102 then some (n - 87)
  else if 65 ≤ n ∧ n ≤ 70 then some (n - 55)
  else none

/-- The digits of a number in a base, most significant first, after a value `v`. -/
def digits (base : Nat) : Nat → List Char → Option Nat
  | v, [] => some v
  | v, c :: cs =>
    match digitValue c with
    | none => none
    | some d => if d < base then digits base (base * v + d) cs else none

/-- A number: decimal, `0x` hex or `0b` binary (R80). -/
def number : List Char → Option Nat
  | [] => none
  | '0' :: 'x' :: c :: cs => digits 16 0 (c :: cs)
  | '0' :: 'b' :: c :: cs => digits 2 0 (c :: cs)
  | c :: cs => digits 10 0 (c :: cs)

/-- An operand: a number, or a character literal, which stands for its 8-bit code (R80). -/
def operand : List Char → Option Nat
  | ['\'', c, '\''] => some c.toNat
  | cs => number cs

/-- The text before the first `;`: the rest is a comment (R80). A `;` in a character literal is no comment. -/
def stripComment : List Char → List Char
  | [] => []
  | '\'' :: c :: '\'' :: cs => '\'' :: c :: '\'' :: stripComment cs
  | c :: cs => if c.toNat = 59 then [] else c :: stripComment cs

/-- Put a character before the first word of a list of words. -/
def consWord (c : Char) : List (List Char) → List (List Char)
  | [] => [[c]]
  | w :: ws => (c :: w) :: ws

/-- Cut text into words at blanks; a comma is a word of its own, and so is a character literal. `fresh` says that a new
word starts here. -/
def words : Bool → List Char → List (List Char)
  | _, [] => []
  | _, '\'' :: c :: '\'' :: cs => ['\'', c, '\''] :: words true cs
  | fresh, c :: cs =>
    if isBlank c then (if fresh then words true cs else [] :: words true cs)
    else if c.toNat = 44 then (if fresh then [c] :: words true cs else [] :: [c] :: words true cs)
    else consWord c (words false cs)

/-- A byte operand: 0..255 (R80). A character literal stands for its code point, if that is below 256; R80 names ASCII codes
only (DESIGN CHOICE, log 18). -/
def byteOperand (cs : List Char) : Option Byte :=
  match operand cs with
  | none => none
  | some n => if n < 256 then some (BitVec.ofNat 8 n) else none

/-- A bit count operand: 1..8 (R80). -/
def countOperand (cs : List Char) : Option (BitVec 4) :=
  match number cs with
  | none => none
  | some n => if 1 ≤ n ∧ n ≤ 8 then some (BitVec.ofNat 4 n) else none

/-- A command that takes no operand (R80); the FI commands get bits [27:0] = 0. -/
def plainCommand (mnemonic : List Char) : Option Instr :=
  if mnemonic = ['N', 'O', 'P'] then some (.nop 0)
  else if mnemonic = ['E', 'N', 'C', '_', 'S', 'T', 'A', 'R', 'T'] then some .encStart
  else if mnemonic = ['E', 'N', 'C', '_', 'F', 'L', 'U', 'S', 'H'] then some .encFlush
  else if mnemonic = ['E', 'N', 'C', '_', 'A', 'B', 'O', 'R', 'T'] then some .encAbort
  else if mnemonic = ['E', 'N', 'C', '_', 'R', 'E', 'S', 'E', 'T'] then some (.encReset 0)
  else if mnemonic = ['D', 'E', 'C', '_', 'S', 'T', 'A', 'R', 'T'] then some .decStart
  else if mnemonic = ['D', 'E', 'C', '_', 'E', 'N', 'D'] then some .decEnd
  else if mnemonic = ['D', 'E', 'C', '_', 'A', 'B', 'O', 'R', 'T'] then some .decAbort
  else if mnemonic = ['D', 'E', 'C', '_', 'R', 'E', 'S', 'E', 'T'] then some (.decReset 0)
  else none

/-- `ENC_SYM <sym>` (R80). -/
def encSymLine (cs : List Char) : Option Instr :=
  match byteOperand cs with
  | some s => some (.encSym s)
  | none => none

/-- `DEC_BITS <n>, <data>` (R80). DATA may be a character literal and `<n>` may not; R80 names the literal for ENC_SYM only
(DESIGN CHOICE, log 18). -/
def decBitsLine (ncs dcs : List Char) : Option Instr :=
  match countOperand ncs, byteOperand dcs with
  | some n, some d => some (.decBits n d)
  | _, _ => none

/-- One line of assembler text (R80): no command (a blank or comment line), a command, or an assembly error. -/
def assembleLine (line : List Char) : Except Unit (Option Instr) :=
  match words true (stripComment line) with
  | [] => .ok none
  | [m] =>
    match plainCommand (m.map upper) with
    | some i => .ok (some i)
    | none => .error ()
  | [m, a] =>
    if m.map upper = ['E', 'N', 'C', '_', 'S', 'Y', 'M'] then
      match encSymLine a with
      | some i => .ok (some i)
      | none => .error ()
    else .error ()
  | [m, n, comma, d] =>
    if m.map upper = ['D', 'E', 'C', '_', 'B', 'I', 'T', 'S'] ∧ comma = [','] then
      match decBitsLine n d with
      | some i => .ok (some i)
      | none => .error ()
    else .error ()
  | _ => .error ()

/-- The pseudo-commands (R81). -/
inductive Pseudo
  | encStr (t : List Byte)
  | decByte (d : Byte)
  | decTail (k : Nat) (d : Byte)
  | decPacked (B : List Byte) (n : Nat)
  deriving DecidableEq, Repr

/-- `DEC_TAIL k, d` (R81); `none` is an assembly error. -/
def expandTail (k : Nat) (d : Byte) : Option (List Instr) :=
  if k = 0 then some []
  else if k ≤ 7 then some [.decBits (BitVec.ofNat 4 k) d]
  else none

/-- The expansion of a pseudo-command (R81); `none` is an assembly error. A DEC_PACKED with fewer bytes than its bit count
needs gives the groups of the bytes that are there, and a missing tail byte is 0; R81 is silent on it (DESIGN CHOICE,
log 18). -/
def expand : Pseudo → Option (List Instr)
  | .encStr t => some (t.map .encSym)
  | .decByte d => some [.decBits 8 d]
  | .decTail k d => expandTail k d
  | .decPacked B n =>
    match expandTail (n % 8) (B.getD (n / 8) 0) with
    | none => none
    | some tail => some ((B.take (n / 8)).map (.decBits 8) ++ tail)

end Sys2Proof.Assembler
end

