-- ==== Sys2Proof/Machine/Reference.lean ====
section
/-! DEFINITION. The host reference functions (40_host_reference.md): count, build, derive, encode_ref and decode_ref over
mathematical values, the packed byte form of a bit string (R53), and the serialisation of a tree and a table into the
block's RAMs (R91-R93). None of it is hardware; it says what a well-formed load is and what a stream means. -/

namespace Sys2Proof.Reference

/-- A code tree (R10): leaves with a symbol, internal nodes with two children, and weights. -/
inductive CodeTree
  | leaf (sym : Byte) (weight : Nat)
  | internal (weight : Nat) (left right : CodeTree)
  deriving DecidableEq, Repr

/-- A frequency table (R10): symbols with their counts, by rising symbol. -/
abbrev FrequencyTable := List (Byte × Nat)

/-- A code table (R10): symbols with their codes. -/
abbrev CodeTable := List (Byte × List Bool)

/-- The weight of a node. -/
def CodeTree.weight : CodeTree → Nat
  | .leaf _ w => w
  | .internal w _ _ => w

/-- The number of nodes. -/
def CodeTree.size : CodeTree → Nat
  | .leaf _ _ => 1
  | .internal _ l r => 1 + l.size + r.size

/-- The same tree with every weight 0: what NODE_RAM holds of a tree (R5 (f)). -/
def CodeTree.shape : CodeTree → CodeTree
  | .leaf s _ => .leaf s 0
  | .internal _ l r => .internal 0 l.shape r.shape

/-! ### count, build, derive -/

/-- FrequencyCounter (R85). -/
def count (S : List Byte) : FrequencyTable :=
  (List.range 256).filterMap fun k =>
    if S.count (BitVec.ofNat 8 k) = 0 then none else some (BitVec.ofNat 8 k, S.count (BitVec.ofNat 8 k))

/-- A tree in the builder's queue, with its insertion sequence number (R86, R87). -/
structure QueueEntry where
  seq : Nat
  tree : CodeTree
  deriving DecidableEq, Repr

/-- The order of the queue: by weight, then by sequence number (R86, R87). -/
abbrev QueueEntry.Before (a b : QueueEntry) : Prop :=
  a.tree.weight < b.tree.weight ∨ (a.tree.weight = b.tree.weight ∧ a.seq < b.seq)

/-- Insertion into the queue, which is kept sorted, so that extract-min takes its head. -/
def enqueue (e : QueueEntry) : List QueueEntry → List QueueEntry
  | [] => [e]
  | x :: q => if e.Before x then e :: x :: q else x :: enqueue e q

/-- The leaves of a frequency table in its order, numbered from `seq` and put into the queue (R86). -/
def enqueueLeaves : Nat → FrequencyTable → List QueueEntry → List QueueEntry
  | _, [], q => q
  | seq, (s, w) :: rest, q => enqueueLeaves (seq + 1) rest (enqueue ⟨seq, .leaf s w⟩ q)

/-- The merging loop of R86: the first tree extracted is the left child, the second the right one. Each round leaves one
tree fewer, so the number of leaves bounds the rounds. -/
def mergeAll : Nat → Nat → List QueueEntry → Option CodeTree
  | _, _, [] => none
  | _, _, [e] => some e.tree
  | 0, _, _ :: _ :: _ => none
  | rounds + 1, seq, t1 :: t2 :: q =>
    mergeAll rounds (seq + 1)
      (enqueue ⟨seq, .internal (t1.tree.weight + t2.tree.weight) t1.tree t2.tree⟩ q)

/-- CodeTreeBuilder (R86, R87); `none` is "no tree". -/
def build (freq : FrequencyTable) : Option CodeTree :=
  mergeAll freq.length freq.length (enqueueLeaves 0 freq [])

/-- The leaves below a node, left to right, each with its path from the root after `path` (R88). -/
def walkCodes : CodeTree → List Bool → CodeTable
  | .leaf s _, path => [(s, path)]
  | .internal _ l r, path => walkCodes l (path ++ [false]) ++ walkCodes r (path ++ [true])

/-- CodeTableDeriver (R88). -/
def derive : Option CodeTree → CodeTable
  | none => []
  | some (.leaf s _) => [(s, [true])]
  | some (.internal w l r) => walkCodes (.internal w l r) []

/-! ### encode_ref, decode_ref -/

/-- Encoder (R89) over a table view: the concatenated codes, or the index of the first symbol that is no key. -/
def encodeFrom (view : Byte → Option (List Bool)) : Nat → List Byte → Except Nat (List Bool)
  | _, [] => .ok []
  | i, s :: S =>
    match view s with
    | none => .error i
    | some code =>
      match encodeFrom view (i + 1) S with
      | .error j => .error j
      | .ok bits => .ok (code ++ bits)

/-- `encode_ref(table, S)` (R89), with the table given as a partial map. -/
def encodeRef (view : Byte → Option (List Bool)) (S : List Byte) : Except Nat (List Bool) :=
  encodeFrom view 0 S

/-- The partial map of a code table. -/
def CodeTable.view (table : CodeTable) (s : Byte) : Option (List Bool) :=
  table.lookup s

/-- The failures of decode_ref (R90), each with the number of bits consumed before it. -/
inductive DecodeError
  | inconsistentEmptyState (consumed : Nat)
  | truncatedStream (consumed : Nat)
  deriving DecidableEq, Repr

/-- The child of a node on a bit; a leaf has none and stays. -/
def CodeTree.child : CodeTree → Bool → CodeTree
  | .leaf s w, _ => .leaf s w
  | .internal _ l r, b => if b then r else l

/-- The walk of R90 from the pointer `p` in the tree `t`: the symbols emitted, and the pointer after the last bit. -/
def walk (t : CodeTree) : CodeTree → List Bool → List Byte × CodeTree
  | p, [] => ([], p)
  | p, b :: bits =>
    match t with
    | .leaf s w => (s :: (walk (.leaf s w) p bits).1, (walk (.leaf s w) p bits).2)
    | .internal w l r =>
      match p.child b with
      | .leaf s _ => (s :: (walk (.internal w l r) (.internal w l r) bits).1, (walk (.internal w l r) (.internal w l r) bits).2)
      | .internal w' l' r' => walk (.internal w l r) (.internal w' l' r') bits

/-- Decoder (R90). A proper subtree differs from the whole tree, so comparing trees compares positions. -/
def decodeRef (tree : Option CodeTree) (bits : List Bool) : Except DecodeError (List Byte) :=
  match tree with
  | none => if bits = [] then .ok [] else .error (.inconsistentEmptyState 0)
  | some t =>
    if bits = [] then .error (.inconsistentEmptyState 0)
    else if (walk t t bits).2 = t then .ok (walk t t bits).1
    else .error (.truncatedStream bits.length)

/-! ### Packed bytes -/

/-- The byte whose bit 7 is `f 0`, down to bit 0 which is `f 7`. -/
def byteOfBits (f : Nat → Bool) : Byte :=
  BitVec.ofBool (f 0) ++ BitVec.ofBool (f 1) ++ BitVec.ofBool (f 2) ++ BitVec.ofBool (f 3) ++
    BitVec.ofBool (f 4) ++ BitVec.ofBool (f 5) ++ BitVec.ofBool (f 6) ++ BitVec.ofBool (f 7)

/-- Byte j of the packed form (R53): byte[7-k] is bit 8j+k of the string, or 0 past its end. -/
def packByte (bits : List Bool) (j : Nat) : Byte :=
  byteOfBits (fun k => bits.getD (8 * j + k) false)

/-- The packed byte form of a bit string (R53): ceil(n/8) bytes. -/
def pack (bits : List Bool) : List Byte :=
  (List.range ((bits.length + 7) / 8)).map (packByte bits)

/-- The bytes of the packed form that are full: floor(n/8) of them (R106). -/
def packFull (bits : List Bool) : List Byte :=
  (List.range (bits.length / 8)).map (packByte bits)

/-- The bits after the last full byte: fewer than 8. -/
def restBits (bits : List Bool) : List Bool :=
  bits.drop (8 * (bits.length / 8))

/-- The pending bits of the encoder, oldest first: ACC[ACC_N-1] down to ACC[0] (R38). -/
def pendingBits (e : Machine.EncUnit) : List Bool :=
  (List.range e.accN.toNat).map (fun i => e.acc.getLsbD (e.accN.toNat - 1 - i))

/-! ### What the block's RAMs hold -/

/-- The table view of CODE_RAM (R106): the symbols with VALID = 1 and LEN >= 1, with their code bits. A symbol whose code
words have not been written since reset has no code here. -/
def codeView (m : Machine.Memory) (sym : Byte) : Option (List Bool) :=
  match Machine.codeRead m sym with
  | .ok (.present (l + 1) code) => some (Machine.codeBits (l + 1) code)
  | _ => none

/-- The tree read from NODE_RAM at a node (R116), with weights 0, if the reading ends within `depth` levels and every word
of it has been written since reset. -/
def treeAt (m : Machine.Memory) : Nat → NodeIx → Option CodeTree
  | 0, _ => none
  | depth + 1, i =>
    match Machine.nodeRead m i with
    | .error _ => none
    | .ok w =>
      if Machine.nodeIsLeaf w then some (.leaf (Machine.nodeSym w) 0)
      else
        match treeAt m depth (Machine.nodeLeft w), treeAt m depth (Machine.nodeRight w) with
        | some l, some r => some (.internal 0 l r)
        | _, _ => none

/-! ### Serialisation and loading -/

/-- The NODE_RAM words of a tree in pre-order, its root at index `k` (R91). -/
def treeWords : CodeTree → Nat → List Word
  | .leaf s _, _ => [0x80000000#32 ||| s.setWidth 32]
  | .internal _ l r, k =>
    ((BitVec.ofNat 32 (k + 1 + l.size) <<< 16) ||| BitVec.ofNat 32 (k + 1)) ::
      (treeWords l (k + 1) ++ treeWords r (k + 1 + l.size))

/-- A code as a binary numeral, first bit most significant (R8, R92). -/
def codeNumeral (code : List Bool) : Nat :=
  code.foldl (fun v b => 2 * v + b.toNat) 0

/-- The header word of a symbol (R92). -/
def headerWord (view : Byte → Option (List Bool)) (s : Byte) : Word :=
  match view s with
  | some code => 0x80000000#32 ||| BitVec.ofNat 32 code.length
  | none => 0

/-- Code word k of a code (R92). -/
def codeWordOf (code : List Bool) (k : Nat) : Word :=
  BitVec.ofNat 32 (codeNumeral code / 2 ^ (32 * (k - 1)))

/-- All symbols, rising. -/
def allSymbols : List Byte :=
  (List.range 256).map (BitVec.ofNat 8)

/-- One write of a load: byte offset and value. -/
abbrev Write := BitVec 16 × Word

/-- Step (2) of the loading procedure (R93): all 256 headers. -/
def headerWrites (view : Byte → Option (List Bool)) : List Write :=
  allSymbols.map fun s => (BitVec.ofNat 16 (Machine.codeOffset s 0), headerWord view s)

/-- Step (3) (R93): the code words of every key. -/
def codeWrites (view : Byte → Option (List Bool)) : List Write :=
  allSymbols.flatMap fun s =>
    match view s with
    | none => []
    | some code =>
      (List.range (Machine.codeWordCount code.length)).map fun j =>
        (BitVec.ofNat 16 (Machine.codeOffset s (j + 1)), codeWordOf code (j + 1))

/-- Step (4) (R93): the NODE_RAM words, then ROOT, then CTRL; for "no tree" only TREE_VALID is cleared (R91). -/
def treeWrites : Option CodeTree → List Write
  | none => [(0x004#16, 0)]
  | some t =>
    ((treeWords t 0).zipIdx.map fun (w, k) => (BitVec.ofNat 16 (0x4000 + 4 * k), w)) ++ [(0x008#16, 0), (0x004#16, 1)]

/-- The writes of the loading procedure, steps (2) to (4) (R93), for a tree and its derived table. -/
def loadWrites (tree : Option CodeTree) : List Write :=
  headerWrites (CodeTable.view (derive tree)) ++ codeWrites (CodeTable.view (derive tree)) ++ treeWrites tree

/-! ### Command sequences of the drivers -/

/-- The commands of an encode stream (R94). -/
def encodeCommands (S : List Byte) : List Instr :=
  [.encStart] ++ S.map .encSym ++ [.encFlush]

/-- The pseudo-command `DEC_PACKED B, n` (R81): the full bytes as groups of 8 bits, then the n mod 8 bits that are left.
Where B has fewer bytes than n needs: log 18. -/
def packedGroups (B : List Byte) (n : Nat) : List (BitVec 4 × Byte) :=
  (B.take (n / 8)).map (fun b => (8#4, b)) ++
    (if n % 8 = 0 then [] else [(BitVec.ofNat 4 (n % 8), B.getD (n / 8) 0)])

/-- The commands of a decode stream over groups of bits (R95). -/
def decodeCommands (groups : List (BitVec 4 × Byte)) : List Instr :=
  [.decStart] ++ groups.map (fun g => .decBits g.1 g.2) ++ [.decEnd]

/-- The bits that groups supply, in stream order (R75). -/
def streamBits (groups : List (BitVec 4 × Byte)) : List Bool :=
  groups.flatMap (fun g => Machine.groupBits g.1 g.2)

end Sys2Proof.Reference
end

