-- ==== Sys2Proof/Machine/HostAgent.lean ====
section
/-! DEFINITION. Host software at the block's bus: the host program notation (R82), the loading procedure (R93) and the
drivers (R94-R96), and the run of such software beside the block under a scheduler (R11, R159). It acts on the block only
by the turns of `step`. -/

namespace Sys2Proof.Machine

/-! ### Host programs -/

/-- A statement of a host program (R82). -/
inductive HostStmt
  /-- `WR <offset>, <value>`. -/
  | wr (addr : BitVec 16) (v : Word)
  /-- `RD <offset> -> <name>`. -/
  | rd (addr : BitVec 16) (name : String)
  /-- `C <command>`. -/
  | command (i : Instr)
  /-- `WAIT_DRAIN`. -/
  | waitDrain
  /-- `DRAIN_ENC -> list`. -/
  | drainEnc (list : String)
  /-- `DRAIN_DEC -> list`. -/
  | drainDec (list : String)
  deriving DecidableEq, Repr

/-- A host program and what it has read: every value read under a name, oldest first (a name's value is its last one), and
the lists of its DRAINs by their names. -/
structure HostProgram where
  prog : List HostStmt
  reads : List (String × Word)
  lists : List (String × List Byte)
  deriving DecidableEq, Repr

/-- A host program before its first statement. DESIGN CHOICE (log 22): every list starts empty. -/
def HostProgram.start (prog : List HostStmt) : HostProgram :=
  { prog := prog, reads := [], lists := [] }

/-- Append a byte to the list of a name; a name that is not there yet names the empty list (log 22). -/
def appendTo (name : String) (b : Byte) : List (String × List Byte) → List (String × List Byte)
  | [] => [(name, [b])]
  | (n, bs) :: rest => if n = name then (n, bs ++ [b]) :: rest else (n, bs) :: appendTo name b rest

/-- The access the first statement makes (R82). -/
def HostStmt.access : HostStmt → Access
  | .wr addr v => memWrite addr v
  | .rd addr _ => memRead addr
  | .command i => memWrite 0x020 (encode i)
  | .waitDrain => memRead 0x00C
  | .drainEnc _ => memRead 0x024
  | .drainDec _ => memRead 0x028

/-- The program after a DRAIN's read returned `v` (R82): its entry is appended to the list and the loop goes on, until a
read returns bit [31] = 0. DESIGN CHOICE (log 22): a DRAIN goes on from what its list holds, so several DRAINs to one name,
of either FIFO, append to one list in the order of their reads. -/
def HostProgram.drained (name : String) (v : Word) (rest : List HostStmt) (h : HostProgram) : HostProgram :=
  if v.getLsbD 31 then { h with lists := appendTo name (field v 0 8) h.lists } else { h with prog := rest }

/-- The program after the block answered `v` to the access of its first statement (R82); the loop of WAIT_DRAIN goes on
until STATUS[4] = 1. -/
def HostProgram.answered (v : Word) (h : HostProgram) : HostProgram :=
  match h.prog with
  | [] => h
  | .wr _ _ :: rest => { h with prog := rest }
  | .command _ :: rest => { h with prog := rest }
  | .rd _ name :: rest => { h with prog := rest, reads := h.reads ++ [(name, v)] }
  | .waitDrain :: rest => if v.getLsbD 4 then { h with prog := rest } else h
  | .drainEnc list :: rest => h.drained list v rest
  | .drainDec list :: rest => h.drained list v rest

/-! ### Loading -/

/-- CMDQ empty and no unit ACTIVE, as a STATUS value shows it (R93, step (1)). -/
def loadDrained (status : Word) : Bool :=
  status.getLsbD 4 && decide (field status 0 2 ≠ 1) && decide (field status 2 2 ≠ 1)

/-- Step (1) of the loading procedure (R93), as a STATUS value shows it: drained, and CFG_DROP = 0. -/
def loadReady (status : Word) : Bool :=
  loadDrained status && !status.getLsbD 7

/-- Where the loading procedure (R93) stands. -/
inductive LoadPhase
  /-- Step (1): STATUS is read. -/
  | ready
  /-- Step (1): 0x80 is written to STATUS. -/
  | clearDrop
  /-- Steps (2) to (4): these writes are left. With none left, step (5): STATUS is read. -/
  | writing (left : List Reference.Write)
  /-- The load is made. -/
  | done
  deriving DecidableEq, Repr

/-- A host that loads tables (R93). -/
structure Loader where
  writes : List Reference.Write
  phase : LoadPhase
  deriving DecidableEq, Repr

/-- The loader of a tree and its derived table (R93). -/
def loader (tree : Option Reference.CodeTree) : Loader :=
  { writes := Reference.loadWrites tree, phase := .ready }

/-- The access the loader makes next; none once the load is made. -/
def Loader.access (l : Loader) : Option Access :=
  match l.phase with
  | .ready => some (memRead 0x00C)
  | .clearDrop => some (memWrite 0x00C 0x80)
  | .writing [] => some (memRead 0x00C)
  | .writing (w :: _) => some (memWrite w.1 w.2)
  | .done => none

/-- The loader after the block answered `v` (R93). Step (1) is repeated until the block is drained (log 15), clearing
CFG_DROP if needed; a CFG_DROP = 1 at step (5) sends the loader back to step (1). -/
def Loader.answered (v : Word) (l : Loader) : Loader :=
  match l.phase with
  | .ready =>
    if loadReady v then { l with phase := .writing l.writes }
    else if loadDrained v then { l with phase := .clearDrop }
    else l
  | .clearDrop => { l with phase := .ready }
  | .writing [] => if v.getLsbD 7 then { l with phase := .ready } else { l with phase := .done }
  | .writing (_ :: left) => { l with phase := .writing left }
  | .done => l

/-! ### Drivers -/

/-- What a driver reports (R94-R96). -/
inductive DriverResult
  /-- The packed bytes and the logical bit count (R94). -/
  | encoded (bytes : List Byte) (n : Word)
  /-- The decoded symbols (R95). -/
  | decoded (syms : List Byte)
  /-- A failure: the unit's ERR code and ERR_CMD (R96). -/
  | failed (code : BitVec 4) (cmd : Word)
  /-- The driver's `require` did not hold, and it wrote no command (R94, R95; log 15). -/
  | notReady
  deriving DecidableEq, Repr

/-- The access a driver makes next. -/
inductive DriverPhase
  | requireLevels
  | requireStatus
  | pollStatus
  | pollLevels
  | push
  | drain
  | finalStatus
  | finalCount
  | readErr
  | readErrCmd
  | resetUnit
  | done (r : DriverResult)
  deriving DecidableEq, Repr

/-- A driver of one unit (R94, R95): the commands left, the output collected, the values it has read. The accesses that
the tests of R94's loop are made of are log 15. -/
structure Driver where
  unit : CodecUnit
  cmds : List Instr
  out : List Byte
  phase : DriverPhase
  status : Word
  count : Word
  code : BitVec 4
  deriving DecidableEq, Repr

/-- The driver of a unit for a list of commands, at its `require` (R94, R95). -/
def Driver.start (unit : CodecUnit) (cmds : List Instr) : Driver :=
  { unit := unit, cmds := cmds, out := [], phase := .requireLevels, status := 0, count := 0, code := 0 }

/-- The encode driver for a symbol sequence (R94). -/
def encodeDriver (S : List Byte) : Driver :=
  .start .enc (Reference.encodeCommands S)

/-- The decode driver for packed bytes and a logical bit count (R95). -/
def decodeDriver (B : List Byte) (n : Nat) : Driver :=
  .start .dec (Reference.decodeCommands (Reference.packedGroups B n))

/-- The output FIFO register of a unit. -/
def outRegister : CodecUnit → BitVec 16
  | .enc => 0x024
  | .dec => 0x028

/-- The ERR_CMD register of a unit. -/
def errCmdRegister : CodecUnit → BitVec 16
  | .enc => 0x014
  | .dec => 0x018

/-- The *_RESET command of a unit. -/
def resetCommand : CodecUnit → Instr
  | .enc => .encReset 0
  | .dec => .decReset 0

/-- The *_ABORT command a host issues when its own upstream input fails (R96). -/
def abortCommand : CodecUnit → Instr
  | .enc => .encAbort
  | .dec => .decAbort

/-- A driver whose upstream input supplies the first `supplied` of its commands and then fails (R96): the host issues
*_ABORT in the place of the rest, the closing command among it. With 0 supplied the input fails before the stream opens,
which R103 and R113 allow. -/
def Driver.upstreamFails (supplied : Nat) (d : Driver) : Driver :=
  { d with cmds := d.cmds.dropLast.take supplied ++ [abortCommand d.unit] }

/-- The unit's state field of a STATUS value. -/
def statusField (u : CodecUnit) (status : Word) : BitVec 2 :=
  match u with
  | .enc => field status 0 2
  | .dec => field status 2 2

/-- The unit's output level of a LEVELS value. -/
def levelField (u : CodecUnit) (levels : Word) : Byte :=
  match u with
  | .enc => field levels 8 8
  | .dec => field levels 16 8

/-- The CMDQ level of a LEVELS value. -/
def queueField (levels : Word) : Byte :=
  field levels 0 8

/-- The unit's code of an ERR value. -/
def errField (u : CodecUnit) (err : Word) : BitVec 4 :=
  match u with
  | .enc => field err 0 4
  | .dec => field err 4 4

/-- The access a driver makes in its phase; none once it is done. -/
def Driver.access (d : Driver) : Option Access :=
  match d.phase with
  | .requireLevels => some (memRead 0x01C)
  | .requireStatus => some (memRead 0x00C)
  | .pollStatus => some (memRead 0x00C)
  | .pollLevels => some (memRead 0x01C)
  | .push =>
    match d.cmds with
    | [] => some (memRead 0x00C)
    | i :: _ => some (memWrite 0x020 (encode i))
  | .drain => some (memRead (outRegister d.unit))
  | .finalStatus => some (memRead 0x00C)
  | .finalCount => some (memRead 0x02C)
  | .readErr => some (memRead 0x010)
  | .readErrCmd => some (memRead (errCmdRegister d.unit))
  | .resetUnit => some (memWrite 0x020 (encode (resetCommand d.unit)))
  | .done _ => none

/-- After the last STATUS read: failure handling if the unit is in ERROR (R96), else the result. -/
def Driver.finish (d : Driver) : Driver :=
  if statusField d.unit d.status = 2 then { d with phase := .readErr }
  else
    match d.unit with
    | .enc => { d with phase := .done (.encoded d.out d.count) }
    | .dec => { d with phase := .done (.decoded d.out) }

/-- The driver after the block answered `v` (R94, R95, R96). It starts where its `require` holds: the unit IDLE, CMDQ and
the unit's output FIFO empty (log 15). The loop runs while commands are left, CMDQ is not empty or
output is there; a command is written only while CMDQ_FULL = 0. -/
def Driver.answered (v : Word) (d : Driver) : Driver :=
  match d.phase with
  | .requireLevels =>
    if queueField v = 0 ∧ levelField d.unit v = 0 then { d with phase := .requireStatus }
    else { d with phase := .done .notReady }
  | .requireStatus =>
    if statusField d.unit v = 0 then { d with phase := .pollStatus } else { d with phase := .done .notReady }
  | .pollStatus => { d with status := v, phase := .pollLevels }
  | .pollLevels =>
    if d.cmds = [] ∧ d.status.getLsbD 4 = true ∧ levelField d.unit v = 0 then { d with phase := .finalStatus }
    else if d.cmds ≠ [] ∧ d.status.getLsbD 5 = false then { d with phase := .push }
    else { d with phase := .drain }
  | .push => { d with cmds := d.cmds.tail, phase := .drain }
  | .drain =>
    if v.getLsbD 31 then { d with out := d.out ++ [field v 0 8], phase := .pollStatus }
    else { d with phase := .pollStatus }
  | .finalStatus =>
    match d.unit with
    | .enc => { d with status := v, phase := .finalCount }
    | .dec => Driver.finish { d with status := v }
  | .finalCount => Driver.finish { d with count := v }
  | .readErr => { d with code := errField d.unit v, phase := .readErrCmd }
  | .readErrCmd => { d with out := [], count := v, phase := .resetUnit }
  | .resetUnit => { d with phase := .done (.failed d.code d.count) }
  | .done r => { d with phase := .done r }

/-! ### Host software beside the block -/

/-- Host software: a program, a loader or a driver. -/
inductive HostSoftware
  | program (p : HostProgram)
  | loader (l : Loader)
  | driver (d : Driver)
  deriving DecidableEq, Repr

/-- The next access of host software, if it has one. -/
def HostSoftware.access : HostSoftware → Option Access
  | .program p =>
    match p.prog with
    | [] => none
    | st :: _ => some st.access
  | .loader l => l.access
  | .driver d => d.access

/-- What a driver has reported, once it is done. -/
def HostSoftware.result : HostSoftware → Option DriverResult
  | .program _ => none
  | .loader _ => none
  | .driver d =>
    match d.phase with
    | .done r => some r
    | _ => none

/-- The software after an answer. -/
def HostSoftware.answered (v : Word) : HostSoftware → HostSoftware
  | .program p => .program (p.answered v)
  | .loader l => .loader (l.answered v)
  | .driver d => .driver (d.answered v)

/-- Host software beside one block. -/
structure Bench where
  host : HostSoftware
  block : State
  deriving DecidableEq, Repr

/-- The read data of the latest answer; 0 for a write. -/
def State.answer (s : State) : Word :=
  match s.bus with
  | some r => r.rdata.getD 0
  | none => 0

/-- The agent that takes the next step (R11). -/
inductive Agent
  | engine
  | host
  deriving DecidableEq, Repr

/-- One step of the bench: the engine's turn, or the host's next access, taken by the block's own step. -/
def Bench.step (who : Agent) (b : Bench) : Host.Outcome Bench Fault Refusal :=
  match who with
  | .engine =>
    match Machine.step { b.block with turns := [.engine] } with
    | .next s => .next { b with block := s }
    | .fault f => .fault f
    | .refused r => .refused r
  | .host =>
    match b.host.access with
    | none => .next b
    | some a =>
      match Machine.step { b.block with turns := [.host a] } with
      | .next s => .next { host := b.host.answered s.answer, block := s }
      | .fault f => .fault f
      | .refused r => .refused r

/-- A run of a host program is over (R13): the host program has finished, CMDQ is empty and no unit is ACTIVE. It says
nothing of the output FIFOs. -/
abbrev Bench.Over (b : Bench) : Prop :=
  b.host.access = none ∧ b.block.cmdq = [] ∧ b.block.enc.state ≠ .active ∧ b.block.dec.state ≠ .active

/-- A run under a schedule (R159). It ends with the schedule; the run of the host program is over where `Bench.Over` holds
of what it answers. -/
def Bench.run : List Agent → Bench → Host.Outcome Bench Fault Refusal
  | [], b => .next b
  | who :: rest, b =>
    match b.step who with
    | .next b' => Bench.run rest b'
    | .fault f => .fault f
    | .refused r => .refused r

end Sys2Proof.Machine
end

