-- ==== Sys2Proof/Machine/System.lean ====
section
/-! DEFINITION. A system of N_INST block instances (R6, R143): each at its own BASE, with its own reset and state. -/

namespace Sys2Proof.Machine

/-- The instances of a system; N_INST is their number. -/
structure System where
  insts : List State
  deriving DecidableEq, Repr

/-- A legal system (R6, R143): N_INST ≥ 1, every configuration within bounds, every BASE its own (log 13). -/
abbrev System.WellFormed (y : System) : Prop :=
  y.insts ≠ [] ∧ (∀ s ∈ y.insts, s.cfg.InBounds) ∧ (y.insts.map (fun s => s.cfg.base)).Nodup

/-- A step of instance `k`: the others are as they were (R143). A system that is not legal is rejected (R6, I22). A number
without an instance changes nothing (log 13). -/
def System.stepAt (k : Nat) (y : System) : Host.Outcome System Fault Refusal :=
  if y.WellFormed then
    match y.insts[k]? with
    | none => .next y
    | some s =>
      match step s with
      | .next s' => .next { insts := y.insts.set k s' }
      | .fault f => .fault f
      | .refused r => .refused r
  else .refused .configurationOutOfBounds

/-- A bus address lies in the 64 KiB aperture of a block (R6, R50). -/
abbrev InAperture (s : State) (addr : Nat) : Prop :=
  s.cfg.base ≤ addr ∧ addr < s.cfg.base + 0x10000

/-- The instance a platform address selects and the byte offset in its aperture (R50); none where no block decodes it. -/
def System.select (y : System) (addr : Nat) : Option (Nat × BitVec 16) :=
  match y.insts.findIdx? (fun s => decide (InAperture s addr)) with
  | none => none
  | some k => some (k, BitVec.ofNat 16 (addr - (y.insts[k]?.map (fun s => s.cfg.base)).getD 0))

end Sys2Proof.Machine
end

