-- ==== Sys2Proof/Safety.lean ====
section
/-! DEFINITION. What the claims about runs are stated in: the invariant of the block, sequences of commands and of steps,
and the effects that the stream laws name. -/

namespace Sys2Proof.Machine

/-! ### Reads -/

/-- A host read of 4 bytes at an offset completes with bus_ack and this read data. -/
abbrev ReadReturns (s : State) (a : BitVec 16) (v : Word) : Prop :=
  (hostAccess (memRead a) s).bus = some { ack := true, err := false, rdata := some v }

/-! ### Storage -/

/-- The bits of the RAM byte at an offset that are stored: NODE_RAM words hold [31], [24:16] and [8:0] (R40); CODE_RAM
entries hold a header with [31] and [7:0] and eight code words (R42); other offsets hold nothing. -/
def storedBits (a : Nat) : Byte :=
  if 0x4000 ≤ a ∧ a < 0x4800 then
    if a % 4 = 1 then 0x01 else if a % 4 = 3 then 0x81 else 0xFF
  else if 0x8000 ≤ a ∧ a < 0xC000 then
    if a % 64 = 1 ∨ a % 64 = 2 then 0x00 else if a % 64 = 3 then 0x80 else if a % 64 < 36 then 0xFF else 0x00
  else 0x00

/-- An offset of a RAM word that has no VALID bit: a NODE_RAM word or a code word. -/
abbrev PlainWordOffset (a : Nat) : Prop :=
  a % 4 = 0 ∧ ((0x4000 ≤ a ∧ a < 0x4800) ∨ (0x8000 ≤ a ∧ a < 0xC000 ∧ 4 ≤ a % 64 ∧ a % 64 < 36))

/-! ### The invariant -/

/-- The encoder unit's part: an error code is recorded exactly in ERROR (R29) and ERR_CMD is 0 without one (R30); ACC bits at
positions >= ACC_N are 0 (R38); no bits are pending without a stream (R38, R104); ENC_OUT holds at most its depth (R45). -/
structure EncUnit.Inv (c : Config) (e : EncUnit) : Prop where
  error : e.state = .error ↔ e.err ≠ .none
  errCmd : e.err = .none → e.errCmd = 0
  acc : ∀ i, e.accN.toNat ≤ i → e.acc.getLsbD i = false
  pending : e.state = .idle → e.accN = 0
  level : e.out.length ≤ c.encOutDepth

/-- The decoder unit's part: as for the encoder; and in an open stream the pointer is at ROOT before the first bit (R131),
and where it is not at ROOT there is a tree and the pointer names an internal node (R111). -/
structure DecUnit.Inv (s : State) (d : DecUnit) : Prop where
  error : d.state = .error ↔ d.err ≠ .none
  errCmd : d.err = .none → d.errCmd = 0
  unseen : d.state = .active → d.seen = false → d.ptr = s.root
  pointer : d.state = .active → d.ptr ≠ s.root →
    s.treeValid = true ∧ ∃ p, nodeRead s.mem d.ptr = .ok p ∧ nodeIsLeaf p = false
  level : d.out.length ≤ s.cfg.decOutDepth

/-- The RAMs' part: the canonical form; only stored bits are held (R40, R42, R43); a word without a VALID bit is written as
a whole or not at all (R49, R55). -/
structure Memory.Inv (m : Memory) : Prop where
  wf : m.wf
  stored : ∀ c ∈ m, c.2 &&& storedBits c.1 = c.2 ∧ storedBits c.1 ≠ 0
  whole : ∀ a, PlainWordOffset a → ∀ k, k < 4 → ((m.find (a + k)).isSome = (m.find a).isSome)

/-- The invariant of the block: what every reachable state meets. -/
structure State.Inv (s : State) : Prop where
  config : s.cfg.InBounds
  memory : s.mem.Inv
  enc : s.enc.Inv s.cfg
  dec : s.dec.Inv s
  queue : s.cmdq.length ≤ s.cfg.cmdqDepth

/-! ### Sequences -/

/-- Commands executed one after another, each as the head of CMDQ in its own engine step. -/
def execAll : List Instr → State → StepResult
  | [], s => .next s
  | i :: is, s =>
    match exec i s with
    | .next s' => execAll is s'
    | .fault f => .fault f
    | .refused r => .refused r

/-- Admitted 4-byte host writes made one after another. -/
def writeAll : List Reference.Write → State → State
  | [], s => s
  | (a, v) :: ws, s => writeAll ws (hostAccess (memWrite a v) s)

/-! ### Loads -/

/-- NODE_RAM, ROOT and TREE_VALID hold a tree, or "no tree" (R91, R116). -/
def HoldsTree (s : State) (tree : Option Reference.CodeTree) : Prop :=
  match tree with
  | none => s.treeValid = false
  | some t => s.treeValid = true ∧ ∃ depth, Reference.treeAt s.mem depth s.root = some t.shape

/-- CODE_RAM holds a table: its keys with their codes; for every other symbol VALID = 0 (R92, R106). -/
def HoldsTable (s : State) (view : Byte → Option (List Bool)) : Prop :=
  ∀ sym, Reference.codeView s.mem sym = view sym ∧ (view sym = none → codeValid s.mem sym = false)

end Sys2Proof.Machine
end

