-- ==== Sys2Proof/Certificates/Slice0/Obligations.lean ====
section
/-! DEFINITION. The statements for the provers, by the spec's rules. A docstring names the rule or the log entry a clause
rests on. -/

open Sys2Proof Sys2Proof.Machine Sys2Proof.Reference

/-! ### Encoding -/

/-- R71, R73, R79: no field of a command is lost or changed between its word and its decoding. -/
def Obligations.DecodeOfEncodeIsTheCommand : Prop :=
  ∀ i : Instr, i.WellFormed → decode (encode i) = .legal i

/-- R78, R79: a word that decodes to a command is that command's word, and the command's fields are legal. For the FI words
(NOP, ENC_RESET, DEC_RESET) this is the model's form and no rule's: the decode of R79 drops the ignored bits [27:0], and the
model keeps them as an operand (DEDUCED, log 11). -/
def Obligations.EncodeOfDecodeIsTheWord : Prop :=
  ∀ (w : Word) (i : Instr), decode w = .legal i → encode i = w ∧ i.WellFormed

/-- R72, R77: the illegal words are those of the five cases of R77, each charged to the unit of bit [31]. -/
def Obligations.IllegalWordsAreTheFiveCases : Prop :=
  ∀ w : Word,
    ((∃ u why, decode w = .illegal u why) ↔
      (w.toNat / 2 ^ 28 ∈ [0x6, 0x7, 0x8, 0xE, 0xF] ∨
        (w.toNat / 2 ^ 28 ∈ [0x1, 0x3, 0x4, 0x9, 0xB, 0xC] ∧ w.toNat % 2 ^ 28 ≠ 0) ∨
        (w.toNat / 2 ^ 28 = 0x2 ∧ w.toNat / 2 ^ 8 % 2 ^ 20 ≠ 0) ∨
        (w.toNat / 2 ^ 28 = 0xA ∧ w.toNat / 2 ^ 12 % 2 ^ 16 ≠ 0) ∨
        (w.toNat / 2 ^ 28 = 0xA ∧ (w.toNat / 2 ^ 8 % 2 ^ 4 = 0 ∨ 8 < w.toNat / 2 ^ 8 % 2 ^ 4)))) ∧
    ∀ u why, decode w = .illegal u why → (u = .dec ↔ 2 ^ 31 ≤ w.toNat)

/-- R73, R77: words written out from the opcode map and from the examples of R101, R111, R123. -/
def Obligations.SpecWordsDecodeAsTheMapSays : Prop :=
  decode 0x0ABCDEF0#32 = .legal (.nop 0xABCDEF0#28) ∧
  decode 0x10000000#32 = .legal .encStart ∧
  decode 0x20000062#32 = .legal (.encSym 0x62#8) ∧
  decode 0x30000000#32 = .legal .encFlush ∧
  decode 0x5ABCDEF0#32 = .legal (.encReset 0xABCDEF0#28) ∧
  decode 0xA00003C0#32 = .legal (.decBits 3#4 0xC0#8) ∧
  decode 0xB0000000#32 = .legal .decEnd ∧
  decode 0x60000000#32 = .illegal .enc .reservedOpcode ∧
  decode 0x10000001#32 = .illegal .enc .mustBeZero ∧
  decode 0xA0000900#32 = .illegal .dec .bitCount

/-! ### The engine's step and the turns -/

/-- R121: in the engine's turn the head word, if it is legal and not held, is removed from CMDQ and its command executed.
`turns = []` is the model's form of a turn that nothing else takes (log 1). -/
def Obligations.EngineStepRunsTheDecodedCommand : Prop :=
  ∀ (s : State) (w : Word) (rest : List Word) (ts : List Turn) (i : Instr),
    s.cfg.InBounds → s.cmdq = w :: rest → decode w = .legal i → heldInstr i s = false →
    (s.turns = .engine :: ts → step s = exec i { s with cmdq := rest, turns := ts }) ∧
    (s.turns = [] → step s = exec i { s with cmdq := rest })

/-- R123: in the engine's turn an illegal head word is removed; its unit records IllegalCommand and the word, or, in ERROR,
nothing; the other unit and everything else are as before. -/
def Obligations.EngineStepRunsIllegalWords : Prop :=
  ∀ (s : State) (w : Word) (rest : List Word) (ts : List Turn) (u : CodecUnit) (why : IllegalReason),
    s.cfg.InBounds → s.turns = .engine :: ts → s.cmdq = w :: rest → decode w = .illegal u why →
    (s.unitState u = .error → step s = .next { s with cmdq := rest, turns := ts }) ∧
    (s.unitState .enc ≠ .error → u = .enc →
      step s = .next { s with
        cmdq := rest, turns := ts, enc := { s.enc with state := .error, err := .illegalCommand, errCmd := w } }) ∧
    (s.unitState .dec ≠ .error → u = .dec →
      step s = .next { s with
        cmdq := rest, turns := ts, dec := { s.dec with state := .error, err := .illegalCommand, errCmd := w } })

/-- R121, R122, R145: the engine has no step while CMDQ is empty or its head is held. The model's turn then changes
nothing but the list of turns (log 2). -/
def Obligations.EngineWaitsWhenEmptyOrHeld : Prop :=
  ∀ (s : State) (ts : List Turn), s.cfg.InBounds → s.turns = .engine :: ts →
    (s.cmdq = [] → step s = .next { s with turns := ts }) ∧
    (∀ w rest i, s.cmdq = w :: rest → decode w = .legal i → heldInstr i s = true → step s = .next { s with turns := ts })

/-- R122: an encoder command that runs without error emits exactly `need` bytes and a DEC_BITS at most `need` symbols, and a
command that is not held therefore keeps its output FIFO within its depth. -/
def Obligations.CommandsEmitWhatTheHoldRuleAllows : Prop :=
  ∀ (i : Instr) (s t : State), s.Inv → i.WellFormed → exec i s = .next t →
    (i.unit = some .enc → t.enc.state ≠ .error → (∀ x, i ≠ .encReset x) → t.enc.out.length = s.enc.out.length + need i s) ∧
    (i.unit = some .dec → t.dec.out.length ≤ s.dec.out.length + need i s) ∧
    (heldInstr i s = false → t.enc.out.length ≤ s.cfg.encOutDepth ∧ t.dec.out.length ≤ s.cfg.decOutDepth)

/-- R124: with its output FIFO empty no command of a unit is held: an encoder command needs at most 32 free entries and a
DEC_BITS at most 8. -/
def Obligations.EmptyOutputNeverHolds : Prop :=
  ∀ (i : Instr) (s : State), s.cfg.InBounds → i.WellFormed →
    (i.unit = some .enc → need i s ≤ 32 ∧ (s.enc.out = [] → heldInstr i s = false)) ∧
    (i.unit = some .dec → need i s ≤ 8 ∧ (s.dec.out = [] → heldInstr i s = false))

/-- R121: the engine's turn on a head that is not held takes exactly that word off CMDQ, whatever the outcome, and a turn of
the host never takes one off. -/
def Obligations.CommandsLeaveTheQueueInOrder : Prop :=
  ∀ (s t : State), step s = .next t →
    (∀ w rest, (s.turns = [] ∨ ∃ ts, s.turns = .engine :: ts) → s.cmdq = w :: rest →
      (held w s = false ∧ t.cmdq = rest) ∨ (held w s = true ∧ t.cmdq = w :: rest)) ∧
    (∀ a ts, s.turns = .host a :: ts → t.cmdq = s.cmdq ∨ ∃ w, t.cmdq = s.cmdq ++ [w])

/-- R11, R12: the host's turn is its access and the reset turn is the reset step; each takes its turn off the list (log 1). -/
def Obligations.HostAndResetTurnsTakeTheirStep : Prop :=
  ∀ (s : State) (ts : List Turn), s.cfg.InBounds →
    (∀ a, s.turns = .host a :: ts → step s = .next (hostAccess a { s with turns := ts })) ∧
    (∀ p, s.turns = .reset p :: ts → step s = .next (hardReset p { s with turns := ts }))

/-! ### NOP and the encoder's commands -/

/-- R120: every word 0x0??????? is removed from CMDQ by the engine's turn and changes nothing else, in any unit state. -/
def Obligations.NopChangesNothing : Prop :=
  (∀ (x : BitVec 28) (s : State), exec (.nop x) s = .next s) ∧
  ∀ (s : State) (w : Word) (rest : List Word) (ts : List Turn),
    s.cfg.InBounds → s.turns = .engine :: ts → s.cmdq = w :: rest → w.toNat < 2 ^ 28 →
    step s = .next { s with cmdq := rest, turns := ts }

/-- R100: ENC_START in each of the three unit states. -/
def Obligations.EncStartByUnitState : Prop :=
  ∀ s : State,
    (s.enc.state = .idle → exec .encStart s = .next { s with
      enc := { s.enc with state := .active, acc := 0, accN := 0, bitcnt := 0, symcnt := 0 } }) ∧
    (s.enc.state = .active → exec .encStart s = .next { s with
      enc := { s.enc with state := .error, err := .sequenceError, errCmd := 0x10000000#32 } }) ∧
    (s.enc.state = .error → exec .encStart s = .next s)

/-- R101: in an open stream ENC_SYM of a key appends the code's bits to the pending bits: the full bytes leave in order, the
rest stays pending, the counters count; nothing else changes. -/
def Obligations.EncSymAppendsTheCode : Prop :=
  ∀ (s : State) (sym : Byte) (l : Nat) (code : BitVec 256),
    s.enc.state = .active → (∀ k, s.enc.accN.toNat ≤ k → s.enc.acc.getLsbD k = false) →
    codeRead s.mem sym = .ok (.present (l + 1) code) →
    ∃ e : EncUnit, exec (.encSym sym) s = .next { s with enc := e } ∧
      e.out = s.enc.out ++ packFull (pendingBits s.enc ++ codeBits (l + 1) code) ∧
      e.out.length = s.enc.out.length + (s.enc.accN.toNat + (l + 1)) / 8 ∧
      pendingBits e = restBits (pendingBits s.enc ++ codeBits (l + 1) code) ∧
      e.accN.toNat = (s.enc.accN.toNat + (l + 1)) % 8 ∧
      (∀ k, e.accN.toNat ≤ k → e.acc.getLsbD k = false) ∧
      e.bitcnt = s.enc.bitcnt + BitVec.ofNat 32 (l + 1) ∧ e.symcnt = s.enc.symcnt + 1 ∧
      e.state = .active ∧ e.err = s.enc.err ∧ e.errCmd = s.enc.errCmd

/-- R101, R131: what ENC_SYM does in every other case: discarded in ERROR, SequenceError in IDLE, and in an open stream
UnknownSymbol for VALID = 0 before BadCodeEntry for LEN = 0; the error records the word 0x200000ss and nothing is appended
or counted. -/
def Obligations.EncSymErrorsInOrder : Prop :=
  ∀ (s : State) (sym : Byte),
    (s.enc.state = .error → exec (.encSym sym) s = .next s) ∧
    (s.enc.state = .idle → exec (.encSym sym) s = .next { s with
      enc := { s.enc with state := .error, err := .sequenceError, errCmd := 0x20000000#32 ||| sym.setWidth 32 } }) ∧
    (s.enc.state = .active → codeValid s.mem sym = false → exec (.encSym sym) s = .next { s with
      enc := { s.enc with state := .error, err := .unknownSymbol, errCmd := 0x20000000#32 ||| sym.setWidth 32 } }) ∧
    (s.enc.state = .active → codeValid s.mem sym = true → codeLen s.mem sym = some 0 →
      exec (.encSym sym) s = .next { s with
        enc := { s.enc with state := .error, err := .badCodeEntry, errCmd := 0x20000000#32 ||| sym.setWidth 32 } })

/-- R102: ENC_FLUSH in each unit state; in an open stream the pending bits leave as one byte padded with zeros, none if no
bit is pending, and the stream is closed with its counters kept. -/
def Obligations.EncFlushPadsAndCloses : Prop :=
  ∀ s : State,
    (s.enc.state = .active → exec .encFlush s = .next { s with
      enc := { s.enc with out := s.enc.out ++ pack (pendingBits s.enc), acc := 0, accN := 0, state := .idle } }) ∧
    (s.enc.state = .idle → exec .encFlush s = .next { s with
      enc := { s.enc with state := .error, err := .sequenceError, errCmd := 0x30000000#32 } }) ∧
    (s.enc.state = .error → exec .encFlush s = .next s)

/-- R103, R113: ENC_ABORT and DEC_ABORT record InputUnreadable from IDLE and from ACTIVE and keep everything else; in ERROR
they are discarded. -/
def Obligations.AbortsRecordInputUnreadable : Prop :=
  ∀ s : State,
    (s.enc.state ≠ .error → exec .encAbort s = .next { s with
      enc := { s.enc with state := .error, err := .inputUnreadable, errCmd := 0x40000000#32 } }) ∧
    (s.enc.state = .error → exec .encAbort s = .next s) ∧
    (s.dec.state ≠ .error → exec .decAbort s = .next { s with
      dec := { s.dec with state := .error, err := .inputUnreadable, errCmd := 0xC0000000#32 } }) ∧
    (s.dec.state = .error → exec .decAbort s = .next s)

/-- R104, R114: in every state *_RESET returns its unit to IDLE with no error, no stream state, counters 0 and an empty
output FIFO; DEC_RESET puts the pointer at ROOT; nothing else changes. -/
def Obligations.UnitResetsReturnToIdle : Prop :=
  ∀ (s : State) (x : BitVec 28),
    exec (.encReset x) s = .next { s with
      enc := { state := .idle, err := .none, errCmd := 0, acc := 0, accN := 0, bitcnt := 0, symcnt := 0, out := [] } } ∧
    exec (.decReset x) s = .next { s with
      dec := { state := .idle, err := .none, errCmd := 0, ptr := s.root, seen := false, bitcnt := 0, symcnt := 0, out := [] } }

/-- R105: while the encoder is in ERROR, every encoder-unit word but ENC_RESET, illegal ones too, is removed from CMDQ by the
engine's turn with no other effect. -/
def Obligations.EncoderWordsAreDiscardedInError : Prop :=
  ∀ (s : State) (w : Word) (rest : List Word) (ts : List Turn),
    s.cfg.InBounds → s.turns = .engine :: ts → s.cmdq = w :: rest → s.enc.state = .error →
    w.getLsbD 31 = false → field w 28 4 ≠ 0x0#4 → field w 28 4 ≠ 0x5#4 →
    step s = .next { s with cmdq := rest, turns := ts }

/-! ### The decoder's commands -/

/-- R110: DEC_START in each of the three unit states. -/
def Obligations.DecStartByUnitState : Prop :=
  ∀ s : State,
    (s.dec.state = .idle → exec .decStart s = .next { s with
      dec := { s.dec with state := .active, ptr := s.root, seen := false, bitcnt := 0, symcnt := 0 } }) ∧
    (s.dec.state = .active → exec .decStart s = .next { s with
      dec := { s.dec with state := .error, err := .sequenceError, errCmd := 0x90000000#32 } }) ∧
    (s.dec.state = .error → exec .decStart s = .next s)

/-- R111 over a tree that NODE_RAM holds: in an open stream DEC_BITS walks the tree by the command's N bits. `t` is the tree
at ROOT and `p` the subtree at the pointer, which is the whole tree where the pointer is at ROOT. The single-leaf tree is
included: there the walk emits the leaf's symbol for every bit. -/
def Obligations.DecBitsWalksTheTree : Prop :=
  ∀ (s : State) (n : BitVec 4) (data : Byte) (t p : CodeTree) (k k' : Nat),
    s.dec.state = .active → LegalCount n → s.treeValid = true →
    treeAt s.mem k s.root = some t → treeAt s.mem k' s.dec.ptr = some p →
    (s.dec.ptr = s.root ∨ ∃ w l r, p = .internal w l r ∧ p.size < t.size) →
    ∃ d : DecUnit, exec (.decBits n data) s = .next { s with dec := d } ∧
      d.out = s.dec.out ++ (walk t p (groupBits n data)).1 ∧
      d.symcnt = s.dec.symcnt + BitVec.ofNat 32 (walk t p (groupBits n data)).1.length ∧
      d.bitcnt = s.dec.bitcnt + BitVec.ofNat 32 n.toNat ∧ d.seen = true ∧
      (d.ptr = s.root ↔ (walk t p (groupBits n data)).2 = t) ∧
      (∃ j, treeAt s.mem j d.ptr = some (walk t p (groupBits n data)).2) ∧
      d.state = .active ∧ d.err = s.dec.err ∧ d.errCmd = s.dec.errCmd

/-- R111, the loop body, over the words of NODE_RAM whatever they hold, cycles too: one bit, DATA[7], in an open stream with
TREE_VALID = 1. A leaf at ROOT emits its symbol and DEC_PTR stays; else the bit selects a child of the node at DEC_PTR, and a
leaf there is emitted and takes DEC_PTR back to ROOT. Nothing else changes. -/
def Obligations.DecBitsConsumesOneBit : Prop :=
  ∀ (s : State) (data : Byte) (r : Word),
    s.dec.state = .active → s.treeValid = true → nodeRead s.mem s.root = .ok r →
    (r.getLsbD 31 = true → exec (.decBits 1 data) s = .next { s with
      dec := { s.dec with out := s.dec.out ++ [field r 0 8], symcnt := s.dec.symcnt + 1
                          bitcnt := s.dec.bitcnt + 1, seen := true } }) ∧
    ∀ (p q : Word) (c : NodeIx), r.getLsbD 31 = false → nodeRead s.mem s.dec.ptr = .ok p →
      c = (if data.getLsbD 7 then field p 16 9 else field p 0 9) → nodeRead s.mem c = .ok q →
      (q.getLsbD 31 = true → exec (.decBits 1 data) s = .next { s with
        dec := { s.dec with out := s.dec.out ++ [field q 0 8], symcnt := s.dec.symcnt + 1, ptr := s.root
                            bitcnt := s.dec.bitcnt + 1, seen := true } }) ∧
      (q.getLsbD 31 = false → exec (.decBits 1 data) s = .next { s with
        dec := { s.dec with ptr := c, bitcnt := s.dec.bitcnt + 1, seen := true } })

/-- R75, R111: with TREE_VALID = 1 a DEC_BITS of N+1 bits does what a DEC_BITS of its first bit and then one of the other N
bits do, whatever NODE_RAM holds, a stop on an unwritten word included. (Without a tree the recorded words differ.) -/
def Obligations.DecBitsRunsBitByBit : Prop :=
  ∀ (s : State) (n : BitVec 4) (data : Byte), 1 ≤ n.toNat → n.toNat ≤ 7 → s.dec.state = .active → s.treeValid = true →
    exec (.decBits (n + 1) data) s = execAll [.decBits 1 data, .decBits n (data <<< 1)] s

/-- R111, R131: DEC_BITS where it does not walk: discarded in ERROR, SequenceError in IDLE, InconsistentEmptyState on the
first bit without a tree; the error records the word and no bit is consumed. -/
def Obligations.DecBitsErrorsInOrder : Prop :=
  ∀ (s : State) (n : BitVec 4) (data : Byte), LegalCount n →
    (s.dec.state = .error → exec (.decBits n data) s = .next s) ∧
    (s.dec.state = .idle → exec (.decBits n data) s = .next { s with
      dec := { s.dec with state := .error, err := .sequenceError
                          errCmd := 0xA0000000#32 ||| (n.setWidth 32 <<< 8) ||| data.setWidth 32 } }) ∧
    (s.dec.state = .active → s.treeValid = false → exec (.decBits n data) s = .next { s with
      dec := { s.dec with state := .error, err := .inconsistentEmptyState
                          errCmd := 0xA0000000#32 ||| (n.setWidth 32 <<< 8) ||| data.setWidth 32 } })

/-- R75: the DATA bits beyond N are ignored: two DATA values that agree on bits 7 to 8-N have the same effect on an open
stream against a tree. (Without a tree the recorded words differ.) -/
def Obligations.UnusedDataBitsAreIgnored : Prop :=
  ∀ (s : State) (n : BitVec 4) (d d' : Byte), LegalCount n → s.dec.state = .active → s.treeValid = true →
    (∀ j, 8 - n.toNat ≤ j → j ≤ 7 → d.getLsbD j = d'.getLsbD j) → exec (.decBits n d) s = exec (.decBits n d') s

/-- R112: DEC_END: discarded in ERROR, SequenceError in IDLE; in an open stream, with a tree, InconsistentEmptyState if no bit
was consumed, else TruncatedStream if the pointer is not at ROOT; otherwise the stream is closed. -/
def Obligations.DecEndChecksTheStream : Prop :=
  ∀ s : State,
    (s.dec.state = .error → exec .decEnd s = .next s) ∧
    (s.dec.state = .idle → exec .decEnd s = .next { s with
      dec := { s.dec with state := .error, err := .sequenceError, errCmd := 0xB0000000#32 } }) ∧
    (s.dec.state = .active → s.treeValid = true → s.dec.seen = false → exec .decEnd s = .next { s with
      dec := { s.dec with state := .error, err := .inconsistentEmptyState, errCmd := 0xB0000000#32 } }) ∧
    (s.dec.state = .active → s.treeValid = true → s.dec.seen = true → s.dec.ptr ≠ s.root → exec .decEnd s = .next { s with
      dec := { s.dec with state := .error, err := .truncatedStream, errCmd := 0xB0000000#32 } }) ∧
    (s.dec.state = .active → (s.treeValid = false ∨ (s.dec.seen = true ∧ s.dec.ptr = s.root)) →
      exec .decEnd s = .next { s with dec := { s.dec with state := .idle } })

/-- R115: while the decoder is in ERROR, every decoder-unit word but DEC_RESET, illegal ones too, is removed from CMDQ by the
engine's turn with no other effect. -/
def Obligations.DecoderWordsAreDiscardedInError : Prop :=
  ∀ (s : State) (w : Word) (rest : List Word) (ts : List Turn),
    s.cfg.InBounds → s.turns = .engine :: ts → s.cmdq = w :: rest → s.dec.state = .error →
    w.getLsbD 31 = true → field w 28 4 ≠ 0xD#4 →
    step s = .next { s with cmdq := rest, turns := ts }

/-- R49: an engine read of a table word not written since reset is the model fault "unwritten table word". DEC_BITS reads, at
its first bit, the root word, then, where that is no leaf, the word at DEC_PTR and the child that the bit selects (R111); its
later bits follow by `DecBitsRunsBitByBit`. ENC_SYM reads the header and then the code words 1 to ceil(LEN/32) (R52). The
fault names the first unwritten word in this order (DEDUCED, log 3). -/
def Obligations.EngineReadsOfUnwrittenWordsFault : Prop :=
  ∀ s : State,
    (∀ n data, LegalCount n → s.dec.state = .active → s.treeValid = true →
      (s.mem.readWord (nodeOffset s.root) = none →
        exec (.decBits n data) s = .fault (.unwrittenTableWord (nodeOffset s.root))) ∧
      ∀ r, nodeRead s.mem s.root = .ok r → r.getLsbD 31 = false →
        (s.mem.readWord (nodeOffset s.dec.ptr) = none →
          exec (.decBits n data) s = .fault (.unwrittenTableWord (nodeOffset s.dec.ptr))) ∧
        ∀ (p : Word) (c : NodeIx), nodeRead s.mem s.dec.ptr = .ok p →
          c = (if data.getLsbD 7 then field p 16 9 else field p 0 9) → s.mem.readWord (nodeOffset c) = none →
          exec (.decBits n data) s = .fault (.unwrittenTableWord (nodeOffset c))) ∧
    (∀ sym, s.enc.state = .active → codeValid s.mem sym = true → codeLen s.mem sym = none →
      exec (.encSym sym) s = .fault (.unwrittenTableWord (codeOffset sym 0))) ∧
    (∀ sym len k, s.enc.state = .active → codeValid s.mem sym = true → codeLen s.mem sym = some len →
      1 ≤ k → k ≤ (len.toNat + 31) / 32 → (∀ j, 1 ≤ j → j < k → s.mem.readWord (codeOffset sym j) ≠ none) →
      s.mem.readWord (codeOffset sym k) = none →
      exec (.encSym sym) s = .fault (.unwrittenTableWord (codeOffset sym k)))

/-! ### Frames, units, errors -/

/-- The frame of every command (R28, R51, R104, R114, R120): it writes only its own unit. The configuration, CTRL, ROOT, the
sticky flags, CMDQ, every byte of the RAMs and the model's own fields are as before. -/
def Obligations.CommandsWriteOnlyTheirUnit : Prop :=
  ∀ (i : Instr) (s t : State), exec i s = .next t →
    t.cfg = s.cfg ∧ t.treeValid = s.treeValid ∧ t.root = s.root ∧ t.cmdLost = s.cmdLost ∧ t.cfgDrop = s.cfgDrop ∧
    t.cmdq = s.cmdq ∧ t.mem = s.mem ∧ (∀ a, t.mem.read a = s.mem.read a) ∧ t.bus = s.bus ∧ t.turns = s.turns ∧
    t.freeIdx = s.freeIdx ∧
    (i.unit ≠ some .enc → t.enc = s.enc) ∧ (i.unit ≠ some .dec → t.dec = s.dec)

/-- R125: what a unit's command does to its unit depends on that unit and its own tables alone: an encoder command on the
encoder and CODE_RAM (0x8000 to 0xBFFF), a decoder command on the decoder, NODE_RAM (0x4000 to 0x47FF), ROOT and
TREE_VALID. -/
def Obligations.UnitsAreIndependent : Prop :=
  ∀ (i : Instr) (s s' t : State), exec i s = .next t →
    (i.unit = some .enc → s'.enc = s.enc → (∀ a, 0x8000 ≤ a → a < 0xC000 → s'.mem.read a = s.mem.read a) →
      exec i s' = .next { s' with enc := t.enc }) ∧
    (i.unit = some .dec → s'.dec = s.dec → (∀ a, 0x4000 ≤ a → a < 0x4800 → s'.mem.read a = s.mem.read a) →
      s'.root = s.root → s'.treeValid = s.treeValid → exec i s' = .next { s' with dec := t.dec })

/-- R132, R133: whenever the execution of a word puts a unit into ERROR, the unit's state, code and ERR_CMD, which is the word,
are all that has changed since the word was taken off CMDQ. For DEC_BITS this rests on R111 and log 21 (DEDUCED): its raise
is at its first bit. -/
def Obligations.ErrorEntryRecordsTheWord : Prop :=
  ∀ (w : Word) (s t : State), execWord w s = .next t →
    (s.enc.state ≠ .error → t.enc.state = .error →
      ∃ code, code ≠ .none ∧ t = { s with enc := { s.enc with state := .error, err := code, errCmd := w } }) ∧
    (s.dec.state ≠ .error → t.dec.state = .error →
      ∃ code, code ≠ .none ∧ t = { s with dec := { s.dec with state := .error, err := code, errCmd := w } })

/-- R135, R136, R137: the execution of a word takes a unit out of ERROR only if it is that unit's *_RESET, and then to IDLE
with code 0. -/
def Obligations.OnlyUnitResetLeavesError : Prop :=
  ∀ (w : Word) (s t : State), execWord w s = .next t →
    (s.enc.state = .error → t.enc.state ≠ .error →
      (∃ x, decode w = .legal (.encReset x)) ∧ t.enc.state = .idle ∧ t.enc.err = .none ∧ t.enc.errCmd = 0) ∧
    (s.dec.state = .error → t.dec.state ≠ .error →
      (∃ x, decode w = .legal (.decReset x)) ∧ t.dec.state = .idle ∧ t.dec.err = .none ∧ t.dec.errCmd = 0)

/-! ### Host accesses -/

/-- R55: an access of another size than 4 or at an offset that is not 4-aligned is answered with bus_err and read data 0 and
changes no state. That bus_ack is low in the answer is the model's choice (DESIGN CHOICE, log 7). -/
def Obligations.AccessesNotAdmittedHaveNoEffect : Prop :=
  ∀ (a : Access) (s : State), (a.size ≠ 4 ∨ a.addr.toNat % 4 ≠ 0) →
    hostAccess a s = { s with bus := some { ack := false, err := true, rdata := some 0 } }

/-- R59: a write to CMD appends the word, whatever it is, or sets CMD_LOST where CMDQ is full; it completes with bus_ack.
That the answer to a write holds no read data is the model's form (DESIGN CHOICE, log 7). -/
def Obligations.CmdWritesAreQueuedOrLost : Prop :=
  ∀ (s : State) (w : Word),
    (s.cmdq.length < s.cfg.cmdqDepth → hostAccess (memWrite 0x020 w) s = { s with
      cmdq := s.cmdq ++ [w], bus := some { ack := true, err := false, rdata := none } }) ∧
    (s.cfg.cmdqDepth ≤ s.cmdq.length → hostAccess (memWrite 0x020 w) s = { s with
      cmdLost := true, bus := some { ack := true, err := false, rdata := none } })

/-- R60: a configuration write whose gate is closed changes no storage and sets CFG_DROP. The offsets are those of CTRL, ROOT
and NODE_RAM for the decoder, of the CODE_RAM words 0..8 for the encoder (R18, R42, R43). That the answer to a write holds no read data is
the model's form (DESIGN CHOICE, log 7). -/
def Obligations.ClosedGatesDropConfigurationWrites : Prop :=
  ∀ (s : State) (a : BitVec 16) (v : Word), a.toNat % 4 = 0 →
    ((a.toNat = 0x004 ∨ a.toNat = 0x008 ∨ (0x4000 ≤ a.toNat ∧ a.toNat < 0x4800)) →
      (s.cmdq ≠ [] ∨ s.dec.state = .active) →
      hostAccess (memWrite a v) s = { s with cfgDrop := true, bus := some { ack := true, err := false, rdata := none } }) ∧
    ((0x8000 ≤ a.toNat ∧ a.toNat < 0xC000 ∧ a.toNat % 64 < 36) → (s.cmdq ≠ [] ∨ s.enc.state = .active) →
      hostAccess (memWrite a v) s = { s with cfgDrop := true, bus := some { ack := true, err := false, rdata := none } })

/-- R24, R25, R40, R42, R60: a configuration write whose gate is open stores the fields of its register or RAM word, and
changes nothing else: TREE_VALID and ROOT take their bits; a RAM word reads back as its stored bits and every byte outside it
is as before. That the answer to a write holds no read data is the model's form (DESIGN CHOICE, log 7). -/
def Obligations.OpenGatesStoreConfigurationWrites : Prop :=
  ∀ (s : State) (v : Word), s.cmdq = [] →
    (s.dec.state ≠ .active →
      hostAccess (memWrite 0x004 v) s = { s with
        treeValid := v.getLsbD 0, bus := some { ack := true, err := false, rdata := none } } ∧
      hostAccess (memWrite 0x008 v) s = { s with
        root := field v 0 9, bus := some { ack := true, err := false, rdata := none } } ∧
      ∀ i : NodeIx, ∃ m : Memory,
        hostAccess (memWrite (BitVec.ofNat 16 (nodeOffset i)) v) s = { s with
          mem := m, bus := some { ack := true, err := false, rdata := none } } ∧
        m.readWord (nodeOffset i) = some (v &&& 0x81FF01FF#32) ∧
        ∀ b, (b < nodeOffset i ∨ nodeOffset i + 4 ≤ b) → m.read b = s.mem.read b) ∧
    (s.enc.state ≠ .active → ∀ (sym : Byte) (k : Nat), k ≤ 8 → ∃ m : Memory,
      hostAccess (memWrite (BitVec.ofNat 16 (codeOffset sym k)) v) s = { s with
        mem := m, bus := some { ack := true, err := false, rdata := none } } ∧
      m.readWord (codeOffset sym k) = some (if k = 0 then v &&& 0x800000FF#32 else v) ∧
      ∀ b, (b < codeOffset sym k ∨ codeOffset sym k + 4 ≤ b) → m.read b = s.mem.read b)

/-- R66: while ENC_STATE = ACTIVE or a command is in CMDQ, no step but a reset changes CODE_RAM; while DEC_STATE = ACTIVE or a
command is in CMDQ, none changes NODE_RAM, ROOT or TREE_VALID. -/
def Obligations.TablesAreStableUnderStreams : Prop :=
  ∀ (s t : State), step s = .next t → (∀ p ts, s.turns ≠ .reset p :: ts) →
    ((s.enc.state = .active ∨ s.cmdq ≠ []) → ∀ a, 0x8000 ≤ a → a < 0xC000 → t.mem.read a = s.mem.read a) ∧
    ((s.dec.state = .active ∨ s.cmdq ≠ []) →
      t.root = s.root ∧ t.treeValid = s.treeValid ∧ ∀ a, 0x4000 ≤ a → a < 0x4800 → t.mem.read a = s.mem.read a)

/-- R33, R34: a read of ENC_OUT or DEC_OUT takes the oldest entry off its FIFO and returns it with bit [31] set; of an empty
FIFO it returns 0 and changes nothing. -/
def Obligations.OutputReadsTakeTheHead : Prop :=
  ∀ (s : State) (b : Byte) (rest : List Byte),
    (s.enc.out = b :: rest → hostAccess (memRead 0x024) s = { s with
      enc := { s.enc with out := rest }
      bus := some { ack := true, err := false, rdata := some (0x80000000#32 ||| b.setWidth 32) } }) ∧
    (s.enc.out = [] → hostAccess (memRead 0x024) s = { s with
      bus := some { ack := true, err := false, rdata := some 0 } }) ∧
    (s.dec.out = b :: rest → hostAccess (memRead 0x028) s = { s with
      dec := { s.dec with out := rest }
      bus := some { ack := true, err := false, rdata := some (0x80000000#32 ||| b.setWidth 32) } }) ∧
    (s.dec.out = [] → hostAccess (memRead 0x028) s = { s with
      bus := some { ack := true, err := false, rdata := some 0 } })

/-- R21, R57: an admitted read of any other offset changes nothing but the bus answer. `k` is the model's counter of free
values (log 4). -/
def Obligations.OtherReadsHaveNoSideEffect : Prop :=
  ∀ (s : State) (a : BitVec 16), a.toNat % 4 = 0 → a.toNat ≠ 0x024 → a.toNat ≠ 0x028 →
    ∃ (v : Word) (k : Nat), hostAccess (memRead a) s = { s with
      freeIdx := k, bus := some { ack := true, err := false, rdata := some v } }

/-- R22-R32, R35-R37, R128: what a host read of each register returns, field by field; the unit states are numbered as R26
numbers them and the error codes as R128 does. (ENC_OUT and DEC_OUT are OutputReadsTakeTheHead's.) -/
def Obligations.RegisterReadsGiveTheirFields : Prop :=
  ∀ s : State, ∃ st er lv pa : Word,
    ReadReturns s 0x000 0x48554631#32 ∧
    ReadReturns s 0x004 (if s.treeValid then 1 else 0) ∧
    ReadReturns s 0x008 (s.root.setWidth 32) ∧
    ReadReturns s 0x00C st ∧
    (∀ p ∈ [(UnitState.idle, 0#2), (.active, 1#2), (.error, 2#2)],
      (s.enc.state = p.1 → field st 0 2 = p.2) ∧ (s.dec.state = p.1 → field st 2 2 = p.2)) ∧
    ((st.getLsbD 4 = true ↔ s.cmdq.length = 0) ∧
      (st.getLsbD 5 = true ↔ s.cmdq.length = s.cfg.cmdqDepth) ∧ st.getLsbD 6 = s.cmdLost ∧ st.getLsbD 7 = s.cfgDrop ∧
      (st.getLsbD 8 = true ↔ s.dec.ptr = s.root) ∧ st.getLsbD 9 = s.dec.seen ∧ field st 10 3 = s.enc.accN ∧
      field st 13 7 = s.enc.acc ∧ field st 20 12 = 0) ∧
    ReadReturns s 0x010 er ∧
    (∀ p ∈ [(ErrCode.none, 0#4), (.inputUnreadable, 1#4), (.unknownSymbol, 2#4), (.truncatedStream, 3#4),
        (.inconsistentEmptyState, 4#4), (.badCodeEntry, 5#4), (.sequenceError, 6#4), (.illegalCommand, 7#4)],
      (s.enc.err = p.1 → field er 0 4 = p.2) ∧ (s.dec.err = p.1 → field er 4 4 = p.2)) ∧
    field er 8 24 = 0 ∧
    ReadReturns s 0x014 s.enc.errCmd ∧
    ReadReturns s 0x018 s.dec.errCmd ∧
    ReadReturns s 0x01C lv ∧
    (field lv 0 8 = BitVec.ofNat 8 s.cmdq.length ∧ field lv 8 8 = BitVec.ofNat 8 s.enc.out.length ∧
      field lv 16 8 = BitVec.ofNat 8 s.dec.out.length ∧ field lv 24 8 = 0) ∧
    ReadReturns s 0x020 0 ∧
    ReadReturns s 0x02C s.enc.bitcnt ∧
    ReadReturns s 0x030 s.enc.symcnt ∧
    ReadReturns s 0x034 s.dec.bitcnt ∧
    ReadReturns s 0x038 s.dec.symcnt ∧
    ReadReturns s 0x03C (s.dec.ptr.setWidth 32) ∧
    ReadReturns s 0x040 pa ∧
    (field pa 0 8 = BitVec.ofNat 8 s.cfg.cmdqDepth ∧ field pa 8 8 = BitVec.ofNat 8 s.cfg.encOutDepth ∧
      field pa 16 8 = BitVec.ofNat 8 s.cfg.decOutDepth ∧ field pa 24 4 = 8#4 ∧ field pa 28 4 = 0)

/-- R28: a write to STATUS clears CMD_LOST where bit [6] is 1 and CFG_DROP where bit [7] is 1, and changes nothing else.
That the answer to a write holds no read data is the model's form (DESIGN CHOICE, log 7). -/
def Obligations.StatusWritesClearStickyFlags : Prop :=
  ∀ (s : State) (v : Word),
    hostAccess (memWrite 0x00C v) s = { s with
      cmdLost := s.cmdLost && !v.getLsbD 6, cfgDrop := s.cfgDrop && !v.getLsbD 7
      bus := some { ack := true, err := false, rdata := none } }

/-- R40, R42, R49, R61: in every state a host read of a table word, at its offset in the aperture, returns 0 in the reserved
bits, and the stored word where every byte of it has a value; of a CODE_RAM header, VALID always, and LEN where it has been
written since reset. A value read of an unwritten word is free (log 4). -/
def Obligations.TableReadsHaveReservedBitsZero : Prop :=
  ∀ (s : State) (i : NodeIx) (sym : Byte),
    (∃ v, ReadReturns s (BitVec.ofNat 16 (0x4000 + 4 * i.toNat)) v ∧ v &&& 0x7E00FE00#32 = 0 ∧
      ∀ w, s.mem.readWord (nodeOffset i) = some w → v = w &&& 0x81FF01FF#32) ∧
    (∃ v, ReadReturns s (BitVec.ofNat 16 (0x8000 + 64 * sym.toNat)) v ∧ v &&& 0x7FFFFF00#32 = 0 ∧
      v.getLsbD 31 = codeValid s.mem sym ∧ ∀ len, codeLen s.mem sym = some len → field v 0 8 = len) ∧
    (∀ k, 1 ≤ k → k ≤ 8 → ∃ v, ReadReturns s (BitVec.ofNat 16 (0x8000 + 64 * sym.toNat + 4 * k)) v ∧
      ∀ w, s.mem.readWord (codeOffset sym k) = some w → v = w)

/-- R19, R20, R33, R34, R43: a reserved offset, words 9 to 15 of a CODE_RAM entry among them, reads 0 and ignores writes,
without error, and an RO register or an output FIFO register ignores writes. That the answer to a write holds no read data
is the model's form (DESIGN CHOICE, log 7). -/
def Obligations.ReservedAndReadOnlyIgnoreWrites : Prop :=
  ∀ (s : State) (a : BitVec 16) (v : Word), a.toNat % 4 = 0 →
    (((0x044 ≤ a.toNat ∧ a.toNat < 0x4000) ∨ (0x4800 ≤ a.toNat ∧ a.toNat < 0x8000) ∨ 0xC000 ≤ a.toNat ∨
        (0x8000 ≤ a.toNat ∧ a.toNat < 0xC000 ∧ 36 ≤ a.toNat % 64)) →
      hostAccess (memRead a) s = { s with bus := some { ack := true, err := false, rdata := some 0 } } ∧
      hostAccess (memWrite a v) s = { s with bus := some { ack := true, err := false, rdata := none } }) ∧
    ((a.toNat ∈ [0x000, 0x010, 0x014, 0x018, 0x01C, 0x024, 0x028, 0x02C, 0x030, 0x034, 0x038, 0x03C, 0x040]) →
      hostAccess (memWrite a v) s = { s with bus := some { ack := true, err := false, rdata := none } })

/-! ### Reset -/

/-- R147, R148: the reset step puts every piece of the block's state to its reset value and keeps the configuration; an access
presented meanwhile has no effect and gets bus_err with read data 0. The model's own fields run on (log 12); that bus_ack is
low beside bus_err is the model's choice (DESIGN CHOICE, log 7). -/
def Obligations.HardwareResetClearsTheBlock : Prop :=
  ∀ (s : State) (p : Option Access) (ts : List Turn), s.cfg.InBounds → s.turns = .reset p :: ts →
    ∃ t, step s = .next t ∧
      t.cfg = s.cfg ∧ t.treeValid = false ∧ t.root = 0 ∧ t.cmdLost = false ∧ t.cfgDrop = false ∧
      t.enc = { state := .idle, err := .none, errCmd := 0, acc := 0, accN := 0, bitcnt := 0, symcnt := 0, out := [] } ∧
      t.dec = { state := .idle, err := .none, errCmd := 0, ptr := 0, seen := false, bitcnt := 0, symcnt := 0, out := [] } ∧
      t.cmdq = [] ∧ (∀ sym, codeValid t.mem sym = false ∧ codeLen t.mem sym = none) ∧
      (∀ i, t.mem.readWord (nodeOffset i) = none) ∧
      (∀ sym k, 1 ≤ k → k ≤ 8 → t.mem.readWord (codeOffset sym k) = none) ∧
      (∀ a, p = some a → t.bus = some { ack := false, err := true, rdata := some 0 }) ∧
      t.turns = ts ∧ t.freeIdx = s.freeIdx

/-- R18, R48, R147 (vector V2): what the registers read in the state after reset, with the default parameters. -/
def Obligations.ResetStateReadsAsTheTableSays : Prop :=
  ReadReturns State.reset 0x000 0x48554631#32 ∧
  ReadReturns State.reset 0x004 0 ∧ ReadReturns State.reset 0x008 0 ∧
  ReadReturns State.reset 0x00C 0x00000110#32 ∧ ReadReturns State.reset 0x010 0 ∧
  ReadReturns State.reset 0x014 0 ∧ ReadReturns State.reset 0x018 0 ∧
  ReadReturns State.reset 0x01C 0 ∧ ReadReturns State.reset 0x020 0 ∧
  ReadReturns State.reset 0x024 0 ∧ ReadReturns State.reset 0x028 0 ∧
  ReadReturns State.reset 0x02C 0 ∧ ReadReturns State.reset 0x030 0 ∧
  ReadReturns State.reset 0x034 0 ∧ ReadReturns State.reset 0x038 0 ∧
  ReadReturns State.reset 0x03C 0 ∧ ReadReturns State.reset 0x040 0x08104010#32

/-! ### Invariants and stops -/

/-- The state after reset meets the invariant (R29, R38, R44-R46, R48). -/
def Obligations.ResetMeetsTheInvariant : Prop :=
  State.reset.Inv

/-- Every step keeps the invariant, from every state that meets it: the FIFOs within their depths (R44-R46, R122), an error
code recorded exactly in ERROR (R29), unused ACC bits 0 (R38), the pointer at ROOT or at an internal node of a loaded tree
(R111, R131), the RAMs in canonical form holding only stored bits of whole words (R40, R42, R49). -/
def Obligations.EveryStepKeepsTheInvariant : Prop :=
  ∀ s t : State, s.Inv → step s = .next t → t.Inv

/-- R6, I22: a step of a block is refused exactly where its configuration is outside its bounds, and a step of a system
exactly where it is no legal system: no instance, a configuration out of bounds, or two instances at one BASE (log 13). -/
def Obligations.OnlyBadConfigurationsAreRefused : Prop :=
  (∀ s : State,
    (s.cfg.InBounds → ∀ r, step s ≠ .refused r) ∧
    (¬ s.cfg.InBounds → step s = .refused .configurationOutOfBounds)) ∧
  ∀ (y : System) (k : Nat),
    (y.WellFormed → ∀ r, y.stepAt k ≠ .refused r) ∧
    (y.insts = [] → y.stepAt k = .refused .configurationOutOfBounds) ∧
    ((∃ s ∈ y.insts, ¬ s.cfg.InBounds) → y.stepAt k = .refused .configurationOutOfBounds) ∧
    (¬ (y.insts.map (fun s => s.cfg.base)).Nodup → y.stepAt k = .refused .configurationOutOfBounds)

/-- R49: the machine stops with a fault only in the engine's turn, on an ENC_SYM or a DEC_BITS of an open stream, for a table
word that has not been written since reset. With no turn listed the engine has the turn (log 1). -/
def Obligations.FaultsAreUnwrittenTableWords : Prop :=
  ∀ (s : State) (f : Fault), step s = .fault f →
    (s.turns = [] ∨ ∃ ts, s.turns = .engine :: ts) ∧
    ∃ offset w rest, f = .unwrittenTableWord offset ∧ s.mem.readWord offset = none ∧ s.cmdq = w :: rest ∧
      ((∃ sym, decode w = .legal (.encSym sym) ∧ s.enc.state = .active) ∨
        (∃ n data, decode w = .legal (.decBits n data) ∧ s.dec.state = .active ∧ s.treeValid = true))

/-! ### Stream laws -/

/-- R106: from IDLE, an encode stream over symbols that all have a code emits the packed form of encode_ref, counts its bits
and symbols, and ends IDLE; nothing else changes. If the symbol `x` after the symbols `S` of a stream is no key (VALID = 0),
the stream ends in ERROR with UnknownSymbol and that command's word; the full bytes of the symbols before it have been
emitted and no padded byte, whatever symbols follow. `execAll` runs the commands without the hold rule (DESIGN CHOICE,
log 17). -/
def Obligations.EncoderStreamLaw : Prop :=
  ∀ (s : State) (S : List Byte) (bits : List Bool),
    s.enc.state = .idle → encodeRef (codeView s.mem) S = .ok bits →
    execAll (encodeCommands S) s = .next { s with enc := { s.enc with
      out := s.enc.out ++ pack bits, bitcnt := BitVec.ofNat 32 bits.length, symcnt := BitVec.ofNat 32 S.length
      acc := 0, accN := 0, state := .idle } } ∧
    ∀ (x : Byte) (rest : List Byte), codeValid s.mem x = false →
      ∃ e : EncUnit, execAll (encodeCommands (S ++ x :: rest)) s = .next { s with enc := e } ∧
        e.state = .error ∧ e.err = .unknownSymbol ∧ e.errCmd = 0x20000000#32 ||| x.setWidth 32 ∧
        e.out = s.enc.out ++ packFull bits ∧ e.bitcnt = BitVec.ofNat 32 bits.length ∧
        e.symcnt = BitVec.ofNat 32 S.length

/-- R116: from IDLE, a decode stream of groups of bits against the tree that NODE_RAM holds at ROOT, or against "no tree", does
what decode_ref does with the concatenated bits: it emits the symbols and ends IDLE, or ends in ERROR with decode_ref's
failure, the number of bits consumed before it and the symbols emitted for them. `execAll` runs the commands without the
hold rule (DESIGN CHOICE, log 17). -/
def Obligations.DecoderStreamLaw : Prop :=
  ∀ (s : State) (tree : Option CodeTree) (groups : List (BitVec 4 × Byte)),
    s.dec.state = .idle → (∀ g ∈ groups, LegalCount g.1) →
    (match tree with
      | none => s.treeValid = false
      | some t => s.treeValid = true ∧ ∃ k, treeAt s.mem k s.root = some t) →
    (∀ syms, decodeRef tree (streamBits groups) = .ok syms →
      execAll (decodeCommands groups) s = .next { s with dec := { s.dec with
        out := s.dec.out ++ syms, symcnt := BitVec.ofNat 32 syms.length
        bitcnt := BitVec.ofNat 32 (streamBits groups).length, ptr := s.root
        seen := decide (streamBits groups ≠ []), state := .idle } }) ∧
    (∀ k, decodeRef tree (streamBits groups) = .error (.inconsistentEmptyState k) →
      ∃ d : DecUnit, execAll (decodeCommands groups) s = .next { s with dec := d } ∧
        d.state = .error ∧ d.err = .inconsistentEmptyState ∧ d.bitcnt = BitVec.ofNat 32 k ∧ d.out = s.dec.out) ∧
    (∀ k, decodeRef tree (streamBits groups) = .error (.truncatedStream k) →
      ∃ (d : DecUnit) (t : CodeTree), tree = some t ∧ execAll (decodeCommands groups) s = .next { s with dec := d } ∧
        d.state = .error ∧ d.err = .truncatedStream ∧ d.errCmd = 0xB0000000#32 ∧ d.bitcnt = BitVec.ofNat 32 k ∧
        d.out = s.dec.out ++ (walk t t (streamBits groups)).1)

/-- R53, R75, R81: the groups that DEC_PACKED makes of a packed bit string and its length supply exactly its bits, and their
counts are legal. -/
def Obligations.PackedGroupsSupplyTheBits : Prop :=
  ∀ bits : List Bool,
    streamBits (packedGroups (pack bits) bits.length) = bits ∧
    ∀ g ∈ packedGroups (pack bits) bits.length, LegalCount g.1

/-- R97, the source's law over the reference functions: decoding the encoding of a sequence with its own tree and table gives
it back. -/
def Obligations.ReferenceRoundTrip : Prop :=
  ∀ S : List Byte, ∃ bits,
    encodeRef (CodeTable.view (derive (build (count S)))) S = .ok bits ∧ decodeRef (build (count S)) bits = .ok S

/-- R97 on the block's commands: with the tree and the table of S in the RAMs and both units IDLE, the encode stream of S and
then the decode stream of the bytes it emitted, fed by its bit count, emit S; neither unit enters ERROR. `execAll` runs the
commands without the hold rule (DESIGN CHOICE, log 17); `DriversRoundTrip` is the statement over the drivers. -/
def Obligations.CommandStreamsRoundTrip : Prop :=
  ∀ (s : State) (S : List Byte), s.enc.state = .idle → s.dec.state = .idle → s.enc.out = [] → s.dec.out = [] →
    HoldsTree s (build (count S)) → HoldsTable s (CodeTable.view (derive (build (count S)))) →
    ∃ (t t' : State) (bits : List Bool),
      encodeRef (CodeTable.view (derive (build (count S)))) S = .ok bits ∧
      execAll (encodeCommands S) s = .next t ∧ t.enc.state = .idle ∧ t.enc.bitcnt = BitVec.ofNat 32 bits.length ∧
      execAll (decodeCommands (packedGroups t.enc.out bits.length)) t = .next t' ∧
      t'.dec.state = .idle ∧ t'.enc.state = .idle ∧ t'.dec.out = S

/-- R97 in hardware form, over the loader of R93 and the drivers of R94 and R95 beside the block, under every schedule of
host and engine: from an idle block with empty FIFOs, whatever its RAMs hold, none of the three runs stops. When the load is
over (R13) the encode driver is run; when that is over it has reported bytes B and a count n; when the decode driver on
(B, n) is over it has reported S, and no unit is in ERROR. The reference bit count is below 2^32. The accesses of the
loader and the drivers are log 15. -/
def Obligations.DriversRoundTrip : Prop :=
  ∀ (s : State) (S : List Byte) (bits : List Bool) (load : List Agent),
    s.cfg.InBounds → s.cmdq = [] → s.enc.state = .idle → s.dec.state = .idle → s.enc.out = [] → s.dec.out = [] →
    encodeRef (CodeTable.view (derive (build (count S)))) S = .ok bits → bits.length < 2 ^ 32 →
    ∃ b1, Bench.run load { host := .loader (loader (build (count S))), block := s } = .next b1 ∧
      (b1.Over → ∀ encode : List Agent,
        ∃ b2, Bench.run encode { host := .driver (encodeDriver S), block := b1.block } = .next b2 ∧
          (b2.Over → ∃ (B : List Byte) (n : Word), b2.host.result = some (.encoded B n) ∧ B = pack bits ∧
            n.toNat = bits.length ∧ ∀ decode : List Agent,
              ∃ b3, Bench.run decode { host := .driver (decodeDriver B n.toNat), block := b2.block } = .next b3 ∧
                (b3.Over → b3.host.result = some (.decoded S) ∧ b3.block.enc.state ≠ .error ∧
                  b3.block.dec.state ≠ .error)))

/-! ### Host reference functions -/

/-- R98 (a): of two leaves of a tree with at least two leaves, neither code is a prefix of the other. -/
def Obligations.DerivedCodesArePrefixFree : Prop :=
  ∀ (w : Nat) (l r : CodeTree),
    (derive (some (.internal w l r))).Pairwise (fun a b => ¬ a.2 <+: b.2 ∧ ¬ b.2 <+: a.2)

/-- R86, R98 (b): the tree built from the counts of a sequence has the sequence's length as its root weight, and it is "no
tree" exactly for the empty sequence. -/
def Obligations.BuiltTreesWeighTheSequence : Prop :=
  ∀ S : List Byte,
    (build (count S) = none ↔ S = []) ∧ ∀ t, build (count S) = some t → t.weight = S.length

/-- R80: a line that assembles gives a command with legal fields, and an FI command has bits [27:0] = 0. -/
def Obligations.AssembledCommandsAreWellFormed : Prop :=
  ∀ (line : List Char) (i : Instr), Assembler.assembleLine line = .ok (some i) →
    i.WellFormed ∧ ∀ x, (i = .nop x ∨ i = .encReset x ∨ i = .decReset x) → x = 0

/-- R91-R93: the writes of the loading procedure, made while CMDQ is empty and no unit is ACTIVE, leave the tree and the table
in the RAMs, whatever stood there before, if the tree has at most 512 nodes and its codes at most 255 bits; no write is
dropped. -/
def Obligations.LoadLeavesTreeAndTable : Prop :=
  ∀ (s : State) (tree : Option CodeTree),
    s.cmdq = [] → s.enc.state ≠ .active → s.dec.state ≠ .active → s.cfgDrop = false →
    (∀ t, tree = some t → t.size ≤ 512) → (∀ c ∈ derive tree, c.2.length ≤ 255) →
    HoldsTree (writeAll (loadWrites tree) s) tree ∧
    HoldsTable (writeAll (loadWrites tree) s) (CodeTable.view (derive tree)) ∧
    (writeAll (loadWrites tree) s).cfgDrop = false

/-! ### Several instances -/

/-- R143: a step of one instance leaves every other instance as it was, and is that instance's own step. -/
def Obligations.InstancesShareNothing : Prop :=
  ∀ (y y' : System) (k : Nat), y.stepAt k = .next y' →
    y'.insts.length = y.insts.length ∧ (∀ j, j ≠ k → y'.insts[j]? = y.insts[j]?) ∧
    ∀ s, y.insts[k]? = some s → ∃ t, step s = .next t ∧ y'.insts[k]? = some t
end

