-- ==== Sys2Proof/Laws/Memory.lean ====
section
/-! SUPPORT. The laws of the table RAMs: a read after a write, the canonical form, whole words. -/

namespace Sys2Proof.Machine

/-! ### Listed bytes -/

theorem Memory.find_put (m : Memory) (a : Nat) (b : Byte) (x : Nat) :
    (m.put a b).find x = if x = a then some b else m.find x := by
  induction m with
  | nil => simp [Memory.put, Memory.find, eq_comm]
  | cons c m ih =>
    obtain ⟨k, v⟩ := c
    simp only [Memory.put]
    split
    · simp [Memory.find, eq_comm]
    · split
      · rename_i h
        subst h
        by_cases hx : x = a
        · simp [Memory.find, hx]
        · have : ¬ a = x := fun h => hx h.symm
          simp [Memory.find, hx, this]
      · simp only [Memory.find, ih]
        by_cases hx : x = a
        · subst hx
          rw [if_neg (by omega)]
          simp
        · simp [hx]

theorem Memory.find_del (m : Memory) (a x : Nat) :
    (m.del a).find x = if x = a then none else m.find x := by
  induction m with
  | nil => simp [Memory.del, Memory.find]
  | cons c m ih =>
    obtain ⟨k, v⟩ := c
    simp only [Memory.del]
    by_cases hk : a = k
    · subst hk
      rw [if_pos rfl, ih]
      by_cases hx : x = a
      · simp [hx]
      · have : ¬ a = x := fun h => hx h.symm
        simp [hx, Memory.find, this]
    · rw [if_neg hk]
      simp only [Memory.find, ih]
      by_cases hx : x = a
      · subst hx
        rw [if_neg (by omega)]
        simp
      · simp [hx]

/-- A write changes the byte at its own offset only. -/
theorem Memory.find_write_of_ne (m : Memory) (a : Nat) (b : Byte) (x : Nat) (h : x ≠ a) :
    (m.write a b).find x = m.find x := by
  unfold Memory.write
  split <;> simp [Memory.find_put, Memory.find_del, h]

/-- A read after a write: the byte written at its offset, every other byte as before. -/
theorem Memory.read_write (m : Memory) (a : Nat) (b : Byte) (x : Nat) :
    (m.write a b).read x = if x = a then some b else m.read x := by
  unfold Memory.read
  by_cases hx : x = a
  · subst hx
    by_cases hu : Memory.unlisted x = some b
    · simp [Memory.write, hu, Memory.find_del]
    · simp [Memory.write, hu, Memory.find_put]
  · simp only [Memory.find_write_of_ne _ _ _ _ hx, if_neg hx]

/-! ### The canonical form -/

theorem Memory.mem_put {m : Memory} {a : Nat} {b : Byte} {c : Host.Cell} (h : c ∈ m.put a b) :
    c = (a, b) ∨ c ∈ m := by
  induction m with
  | nil => simpa [Memory.put] using h
  | cons d m ih =>
    obtain ⟨k, v⟩ := d
    simp only [Memory.put] at h
    split at h
    · simpa using h
    · split at h
      · simp only [List.mem_cons] at h ⊢
        tauto
      · simp only [List.mem_cons] at h ⊢
        rcases h with h | h
        · exact .inr (.inl h)
        · rcases ih h with h | h
          · exact .inl h
          · exact .inr (.inr h)

theorem Memory.mem_del {m : Memory} {a : Nat} {c : Host.Cell} (h : c ∈ m.del a) : c ∈ m := by
  induction m with
  | nil => simp [Memory.del] at h
  | cons d m ih =>
    obtain ⟨k, v⟩ := d
    simp only [Memory.del] at h
    split at h
    · exact List.mem_cons_of_mem _ (ih h)
    · simp only [List.mem_cons] at h ⊢
      exact h.imp_right ih

theorem Memory.rising_put {m : Memory} (h : m.Pairwise (fun x y => x.1 < y.1)) (a : Nat) (b : Byte) :
    (m.put a b).Pairwise (fun x y => x.1 < y.1) := by
  induction m with
  | nil => simp [Memory.put]
  | cons d m ih =>
    obtain ⟨k, v⟩ := d
    rw [List.pairwise_cons] at h
    simp only [Memory.put]
    split
    · rename_i hlt
      rw [List.pairwise_cons]
      refine ⟨fun c hc => ?_, List.pairwise_cons.mpr h⟩
      rcases List.mem_cons.mp hc with rfl | hc
      · exact hlt
      · exact lt_trans hlt (h.1 c hc)
    · split
      · rename_i heq
        subst heq
        exact List.pairwise_cons.mpr h
      · rw [List.pairwise_cons]
        refine ⟨fun c hc => ?_, ih h.2⟩
        rcases Memory.mem_put hc with rfl | hc
        · show k < a
          omega
        · exact h.1 c hc

theorem Memory.rising_del {m : Memory} (h : m.Pairwise (fun x y => x.1 < y.1)) (a : Nat) :
    (m.del a).Pairwise (fun x y => x.1 < y.1) := by
  induction m with
  | nil => simp [Memory.del]
  | cons d m ih =>
    obtain ⟨k, v⟩ := d
    rw [List.pairwise_cons] at h
    simp only [Memory.del]
    split
    · exact ih h.2
    · exact List.pairwise_cons.mpr ⟨fun c hc => h.1 c (Memory.mem_del hc), ih h.2⟩

/-- A byte write keeps the canonical form. -/
theorem Memory.wf_write {m : Memory} (h : m.wf) (a : Nat) (b : Byte) : (m.write a b).wf := by
  unfold Memory.write
  split
  · exact ⟨Memory.rising_del h.1 a, fun c hc => h.2 c (Memory.mem_del hc)⟩
  · rename_i hne
    refine ⟨Memory.rising_put h.1 a b, fun c hc => ?_⟩
    rcases Memory.mem_put hc with rfl | hc
    · exact hne
    · exact h.2 c hc

/-- A word write keeps the canonical form. -/
theorem Memory.wf_writeWord {m : Memory} (h : m.wf) (a : Nat) (w : Word) : (m.writeWord a w).wf :=
  Memory.wf_write (Memory.wf_write (Memory.wf_write (Memory.wf_write h _ _) _ _) _ _) _ _

/-- An entry of a memory after a byte write is the byte written or an entry of before. -/
theorem Memory.mem_write {m : Memory} {a : Nat} {b : Byte} {c : Host.Cell} (h : c ∈ m.write a b) :
    (c = (a, b) ∧ Memory.unlisted a ≠ some b) ∨ c ∈ m := by
  unfold Memory.write at h
  split at h
  · exact .inr (Memory.mem_del h)
  · rename_i hne
    exact (Memory.mem_put h).imp_left (fun hc => ⟨hc, hne⟩)

/-! ### Words -/

theorem wordOfBytes_byteLane (w : Word) :
    wordOfBytes (byteLane w 3) (byteLane w 2) (byteLane w 1) (byteLane w 0) = w := by
  apply BitVec.eq_of_getLsbD_eq
  intro i hi
  simp only [wordOfBytes, byteLane, BitVec.getLsbD_append, BitVec.getLsbD_extractLsb']
  by_cases h0 : i < 8
  · simp [h0]
  · by_cases h1 : i < 16
    · have : i - 8 < 8 := by omega
      simp [h0, this]
      congr 1; omega
    · by_cases h2 : i < 24
      · have a : ¬ i - 8 < 8 := by omega
        have b : i - 8 - 8 < 8 := by omega
        simp [h0, a, b]
        congr 1; omega
      · have a : ¬ i - 8 < 8 := by omega
        have b : ¬ i - 8 - 8 < 8 := by omega
        have c : i - 8 - 8 - 8 < 8 := by omega
        simp [h0, a, b, c]
        congr 1; omega

/-- The bytes of memory after a word write. -/
theorem Memory.read_writeWord (m : Memory) (a : Nat) (w : Word) (x : Nat) :
    (m.writeWord a w).read x =
      if x = a then some (byteLane w 0)
      else if x = a + 1 then some (byteLane w 1)
      else if x = a + 2 then some (byteLane w 2)
      else if x = a + 3 then some (byteLane w 3)
      else m.read x := by
  simp only [Memory.writeWord, Memory.read_write]
  split_ifs <;> first | rfl | omega

/-- A word write leaves every byte outside its word as before. -/
theorem Memory.read_writeWord_of_outside (m : Memory) (a : Nat) (w : Word) (x : Nat) (h : x < a ∨ a + 4 ≤ x) :
    (m.writeWord a w).read x = m.read x := by
  rw [Memory.read_writeWord]
  split_ifs <;> first | rfl | omega

/-- A word read after a word write at the same offset. -/
theorem Memory.readWord_writeWord_self (m : Memory) (a : Nat) (w : Word) :
    (m.writeWord a w).readWord a = some w := by
  simp [Memory.readWord, Memory.read_writeWord, wordOfBytes_byteLane]

/-- A word read after a word write elsewhere. -/
theorem Memory.readWord_writeWord_of_disjoint (m : Memory) (a x : Nat) (w : Word) (h : x + 4 ≤ a ∨ a + 4 ≤ x) :
    (m.writeWord a w).readWord x = m.readWord x := by
  unfold Memory.readWord
  rw [Memory.read_writeWord_of_outside _ _ _ _ (by omega), Memory.read_writeWord_of_outside _ _ _ _ (by omega),
    Memory.read_writeWord_of_outside _ _ _ _ (by omega), Memory.read_writeWord_of_outside _ _ _ _ (by omega)]

end Sys2Proof.Machine
end

