-- ==== Sys2Proof/Laws/State.lean ====
section
/-! SUPPORT. One lemma per field per update of the state, each by rfl, so that no proof unfolds a record update. -/

namespace Sys2Proof.Machine

section
variable (s : State) (e : EncUnit) (d : DecUnit) (w : Word) (b : Byte) (code : ErrCode) (p : Option Access)

@[simp] theorem State.setEnc_cfg : (s.setEnc e).cfg = s.cfg := rfl
@[simp] theorem State.setEnc_treeValid : (s.setEnc e).treeValid = s.treeValid := rfl
@[simp] theorem State.setEnc_root : (s.setEnc e).root = s.root := rfl
@[simp] theorem State.setEnc_cmdLost : (s.setEnc e).cmdLost = s.cmdLost := rfl
@[simp] theorem State.setEnc_cfgDrop : (s.setEnc e).cfgDrop = s.cfgDrop := rfl
@[simp] theorem State.setEnc_enc : (s.setEnc e).enc = e := rfl
@[simp] theorem State.setEnc_dec : (s.setEnc e).dec = s.dec := rfl
@[simp] theorem State.setEnc_cmdq : (s.setEnc e).cmdq = s.cmdq := rfl
@[simp] theorem State.setEnc_mem : (s.setEnc e).mem = s.mem := rfl
@[simp] theorem State.setEnc_bus : (s.setEnc e).bus = s.bus := rfl
@[simp] theorem State.setEnc_turns : (s.setEnc e).turns = s.turns := rfl
@[simp] theorem State.setEnc_freeIdx : (s.setEnc e).freeIdx = s.freeIdx := rfl

@[simp] theorem State.setDec_cfg : (s.setDec d).cfg = s.cfg := rfl
@[simp] theorem State.setDec_treeValid : (s.setDec d).treeValid = s.treeValid := rfl
@[simp] theorem State.setDec_root : (s.setDec d).root = s.root := rfl
@[simp] theorem State.setDec_cmdLost : (s.setDec d).cmdLost = s.cmdLost := rfl
@[simp] theorem State.setDec_cfgDrop : (s.setDec d).cfgDrop = s.cfgDrop := rfl
@[simp] theorem State.setDec_enc : (s.setDec d).enc = s.enc := rfl
@[simp] theorem State.setDec_dec : (s.setDec d).dec = d := rfl
@[simp] theorem State.setDec_cmdq : (s.setDec d).cmdq = s.cmdq := rfl
@[simp] theorem State.setDec_mem : (s.setDec d).mem = s.mem := rfl
@[simp] theorem State.setDec_bus : (s.setDec d).bus = s.bus := rfl
@[simp] theorem State.setDec_turns : (s.setDec d).turns = s.turns := rfl
@[simp] theorem State.setDec_freeIdx : (s.setDec d).freeIdx = s.freeIdx := rfl

@[simp] theorem State.setEnc_self : s.setEnc s.enc = s := rfl
@[simp] theorem State.setDec_self : s.setDec s.dec = s := rfl
@[simp] theorem State.setEnc_setEnc (e' : EncUnit) : (s.setEnc e).setEnc e' = s.setEnc e' := rfl
@[simp] theorem State.setDec_setDec (d' : DecUnit) : (s.setDec d).setDec d' = s.setDec d' := rfl

@[simp] theorem EncUnit.emitByte_out (e : EncUnit) : (e.emitByte b).out = e.out ++ [b] := rfl
@[simp] theorem EncUnit.emitByte_state : (e.emitByte b).state = e.state := rfl
@[simp] theorem EncUnit.emitByte_err : (e.emitByte b).err = e.err := rfl
@[simp] theorem EncUnit.emitByte_errCmd : (e.emitByte b).errCmd = e.errCmd := rfl
@[simp] theorem EncUnit.emitByte_acc : (e.emitByte b).acc = e.acc := rfl
@[simp] theorem EncUnit.emitByte_accN : (e.emitByte b).accN = e.accN := rfl
@[simp] theorem EncUnit.emitByte_bitcnt : (e.emitByte b).bitcnt = e.bitcnt := rfl
@[simp] theorem EncUnit.emitByte_symcnt : (e.emitByte b).symcnt = e.symcnt := rfl

@[simp] theorem DecUnit.emitSym_out : (d.emitSym b).out = d.out ++ [b] := rfl
@[simp] theorem DecUnit.emitSym_symcnt : (d.emitSym b).symcnt = d.symcnt + 1 := rfl
@[simp] theorem DecUnit.emitSym_state : (d.emitSym b).state = d.state := rfl
@[simp] theorem DecUnit.emitSym_err : (d.emitSym b).err = d.err := rfl
@[simp] theorem DecUnit.emitSym_errCmd : (d.emitSym b).errCmd = d.errCmd := rfl
@[simp] theorem DecUnit.emitSym_ptr : (d.emitSym b).ptr = d.ptr := rfl
@[simp] theorem DecUnit.emitSym_seen : (d.emitSym b).seen = d.seen := rfl
@[simp] theorem DecUnit.emitSym_bitcnt : (d.emitSym b).bitcnt = d.bitcnt := rfl

@[simp] theorem State.unitState_enc : s.unitState .enc = s.enc.state := rfl
@[simp] theorem State.unitState_dec : s.unitState .dec = s.dec.state := rfl

/-- Error entry on the encoder (R132): the encoder's state, code and ERR_CMD, nothing else. -/
theorem raiseErr_enc :
    raiseErr .enc code w s = s.setEnc { s.enc with state := .error, err := code, errCmd := w } := rfl

/-- Error entry on the decoder (R132). -/
theorem raiseErr_dec :
    raiseErr .dec code w s = s.setDec { s.dec with state := .error, err := code, errCmd := w } := rfl

@[simp] theorem State.resetEnc_enc : s.resetEnc.enc = EncUnit.reset := rfl
@[simp] theorem State.resetEnc_dec : s.resetEnc.dec = s.dec := rfl
@[simp] theorem State.resetDec_enc : s.resetDec.enc = s.enc := rfl
@[simp] theorem State.resetDec_dec : s.resetDec.dec = { DecUnit.reset with ptr := s.root } := rfl

@[simp] theorem hardReset_cfg : (hardReset p s).cfg = s.cfg := rfl
@[simp] theorem hardReset_treeValid : (hardReset p s).treeValid = false := rfl
@[simp] theorem hardReset_root : (hardReset p s).root = 0 := rfl
@[simp] theorem hardReset_cmdLost : (hardReset p s).cmdLost = false := rfl
@[simp] theorem hardReset_cfgDrop : (hardReset p s).cfgDrop = false := rfl
@[simp] theorem hardReset_enc : (hardReset p s).enc = EncUnit.reset := rfl
@[simp] theorem hardReset_dec : (hardReset p s).dec = DecUnit.reset := rfl
@[simp] theorem hardReset_cmdq : (hardReset p s).cmdq = [] := rfl
@[simp] theorem hardReset_mem : (hardReset p s).mem = [] := rfl
@[simp] theorem hardReset_turns : (hardReset p s).turns = s.turns := rfl
@[simp] theorem hardReset_freeIdx : (hardReset p s).freeIdx = s.freeIdx := rfl

end

/-- What an illegal word can do (R123): nothing, or IllegalCommand on its unit. -/
theorem illegalCommand_cases (u : CodecUnit) (w : Word) (s : State) :
    (s.unitState u = .error ∧ illegalCommand u w s = s) ∨
      (s.unitState u ≠ .error ∧ illegalCommand u w s = raiseErr u .illegalCommand w s) := by
  unfold illegalCommand
  cases h : s.unitState u <;> simp

end Sys2Proof.Machine
end

