-- ==== Sys2Proof/Laws/Bus.lean ====
section
/-! SUPPORT. What host accesses can do, said once. -/

namespace Sys2Proof.Machine

/-- Everything a configuration write can do (R60): stored through an open gate, or dropped. -/
theorem gatedWrite_cases (u : CodecUnit) (store : State → State) (s : State) :
    (s.cmdq = [] ∧ s.unitState u ≠ .active ∧ gatedWrite u store s = store s) ∨
      ((s.cmdq ≠ [] ∨ s.unitState u = .active) ∧ gatedWrite u store s = { s with cfgDrop := true }) := by
  unfold gatedWrite
  split
  · rename_i h
    exact .inl ⟨h.1, h.2, rfl⟩
  · rename_i h
    refine .inr ⟨?_, rfl⟩
    by_cases hq : s.cmdq = []
    · right
      by_contra hne
      exact h ⟨hq, hne⟩
    · exact .inl hq

/-- Everything a read can change (R21): the heads of the output FIFOs, and the model's counter of free values. -/
theorem busRead_state (t : Target) (s : State) :
    (busRead t s).2 = s ∨ (busRead t s).2 = { s with freeIdx := s.freeIdx + 1 } ∨
      (t = .encOut ∧ ∃ b rest, s.enc.out = b :: rest ∧ (busRead t s).2 = s.setEnc { s.enc with out := rest }) ∨
      (t = .decOut ∧ ∃ b rest, s.dec.out = b :: rest ∧ (busRead t s).2 = s.setDec { s.dec with out := rest }) := by
  cases t with
  | encOut =>
    simp only [busRead, readEncOut]
    split
    · exact .inl rfl
    · rename_i b rest h
      exact .inr (.inr (.inl ⟨trivial, b, rest, h, rfl⟩))
  | decOut =>
    simp only [busRead, readDecOut]
    split
    · exact .inl rfl
    · rename_i b rest h
      exact .inr (.inr (.inr ⟨trivial, b, rest, h, rfl⟩))
  | node i =>
    simp only [busRead, readRam]
    split
    · exact .inl rfl
    · exact .inr (.inl rfl)
  | codeHeader sym =>
    simp only [busRead, readHeader]
    split
    · exact .inl rfl
    · exact .inr (.inl rfl)
  | codeWord sym k =>
    simp only [busRead, readRam]
    split
    · exact .inl rfl
    · exact .inr (.inl rfl)
  | _ => exact .inl rfl

/-- Everything a write can change (R21): CMDQ, the sticky flags, and, through its gate, TREE_VALID, ROOT or a RAM word. -/
theorem busWrite_cases (t : Target) (v : Word) (s : State) :
    busWrite t v s = s ∨ busWrite t v s = { s with cfgDrop := true } ∨
      (t = .status ∧ busWrite t v s = writeStatus v s) ∨
      (t = .cmd ∧ s.cmdq.length < s.cfg.cmdqDepth ∧ busWrite t v s = { s with cmdq := s.cmdq ++ [v] }) ∨
      (t = .cmd ∧ s.cfg.cmdqDepth ≤ s.cmdq.length ∧ busWrite t v s = { s with cmdLost := true }) ∨
      (s.cmdq = [] ∧ s.dec.state ≠ .active ∧
        ((t = .ctrl ∧ busWrite t v s = { s with treeValid := v.getLsbD 0 }) ∨
          (t = .root ∧ busWrite t v s = { s with root := field v 0 9 }) ∨
          ∃ i, t = .node i ∧ busWrite t v s = { s with mem := s.mem.writeWord (nodeOffset i) (v &&& nodeMask) })) ∨
      (s.cmdq = [] ∧ s.enc.state ≠ .active ∧
        ((∃ sym, t = .codeHeader sym ∧
            busWrite t v s = { s with mem := s.mem.writeWord (codeOffset sym 0) (v &&& headerMask) }) ∨
          ∃ sym k, t = .codeWord sym k ∧ busWrite t v s = { s with mem := s.mem.writeWord (codeOffset sym k) v })) := by
  cases t with
  | ctrl =>
    rcases gatedWrite_cases .dec (fun s => { s with treeValid := v.getLsbD 0 }) s with ⟨h1, h2, h3⟩ | ⟨_, h3⟩
    · exact .inr (.inr (.inr (.inr (.inr (.inl ⟨h1, h2, .inl ⟨rfl, h3⟩⟩)))))
    · exact .inr (.inl h3)
  | root =>
    rcases gatedWrite_cases .dec (fun s => { s with root := field v 0 9 }) s with ⟨h1, h2, h3⟩ | ⟨_, h3⟩
    · exact .inr (.inr (.inr (.inr (.inr (.inl ⟨h1, h2, .inr (.inl ⟨rfl, h3⟩)⟩)))))
    · exact .inr (.inl h3)
  | node i =>
    rcases gatedWrite_cases .dec (fun s => { s with mem := s.mem.writeWord (nodeOffset i) (v &&& nodeMask) }) s
      with ⟨h1, h2, h3⟩ | ⟨_, h3⟩
    · exact .inr (.inr (.inr (.inr (.inr (.inl ⟨h1, h2, .inr (.inr ⟨i, rfl, h3⟩)⟩)))))
    · exact .inr (.inl h3)
  | codeHeader sym =>
    rcases gatedWrite_cases .enc (fun s => { s with mem := s.mem.writeWord (codeOffset sym 0) (v &&& headerMask) }) s
      with ⟨h1, h2, h3⟩ | ⟨_, h3⟩
    · exact .inr (.inr (.inr (.inr (.inr (.inr ⟨h1, h2, .inl ⟨sym, rfl, h3⟩⟩)))))
    · exact .inr (.inl h3)
  | codeWord sym k =>
    rcases gatedWrite_cases .enc (fun s => { s with mem := s.mem.writeWord (codeOffset sym k) v }) s
      with ⟨h1, h2, h3⟩ | ⟨_, h3⟩
    · exact .inr (.inr (.inr (.inr (.inr (.inr ⟨h1, h2, .inr ⟨sym, k, rfl, h3⟩⟩)))))
    · exact .inr (.inl h3)
  | status => exact .inr (.inr (.inl ⟨rfl, rfl⟩))
  | cmd =>
    simp only [busWrite, writeCmd]
    split
    · rename_i h
      exact .inr (.inr (.inr (.inl ⟨trivial, h, rfl⟩)))
    · rename_i h
      exact .inr (.inr (.inr (.inr (.inl ⟨trivial, by omega, rfl⟩))))
  | _ => exact .inl rfl

theorem hostAccess_of_not_admitted {a : Access} (h : ¬ a.Admitted) (s : State) :
    hostAccess a s = { s with bus := some .notAdmitted } := by
  simp only [hostAccess, if_neg h]

theorem hostAccess_write {a : BitVec 16} (v : Word) (h : a.toNat % 4 = 0) (s : State) :
    hostAccess (memWrite a v) s = { busWrite (target a) v s with bus := some (.admitted none) } := by
  have : (memWrite a v).Admitted := ⟨rfl, h⟩
  simp only [hostAccess, if_pos this]
  rfl

theorem hostAccess_read {a : BitVec 16} (h : a.toNat % 4 = 0) (s : State) :
    hostAccess (memRead a) s =
      { (busRead (target a) s).2 with bus := some (.admitted (some (busRead (target a) s).1)) } := by
  have : (memRead a).Admitted := ⟨rfl, h⟩
  simp only [hostAccess, if_pos this]
  rfl

/-- What a host read returns is the read of its register. -/
theorem readReturns_iff {a : BitVec 16} (h : a.toNat % 4 = 0) (s : State) (v : Word) :
    ReadReturns s a v ↔ (busRead (target a) s).1 = v := by
  rw [ReadReturns, hostAccess_read h]
  simp [Response.admitted]

/-- Everything an access can do (R55): nothing but its answer, or its register's read or write. -/
theorem hostAccess_cases (a : Access) (s : State) :
    hostAccess a s = { s with bus := some .notAdmitted } ∨
      hostAccess a s = { busWrite (target a.addr) a.wdata s with bus := some (.admitted none) } ∨
      hostAccess a s =
        { (busRead (target a.addr) s).2 with bus := some (.admitted (some (busRead (target a.addr) s).1)) } := by
  unfold hostAccess
  split
  · split
    · exact .inr (.inl rfl)
    · exact .inr (.inr rfl)
  · exact .inl rfl

/-! ### The register map -/

theorem target_node {a : BitVec 16} (h : 0x4000 ≤ a.toNat) (h' : a.toNat < 0x4800) :
    target a = .node (BitVec.ofNat 9 ((a.toNat - 0x4000) / 4)) := by
  simp only [target]
  rw [if_neg (by omega), if_pos h']

theorem target_code {a : BitVec 16} (h : 0x8000 ≤ a.toNat) (h' : a.toNat < 0xC000) : target a = targetCode a.toNat := by
  simp only [target]
  rw [if_neg (by omega), if_neg (by omega), if_neg (by omega), if_pos h']

theorem target_register {a : BitVec 16} (h : a.toNat < 0x4000) : target a = targetRegister a.toNat := by
  simp only [target]
  rw [if_pos h]

/-- NODE_RAM[i] stands at its offset (R40). -/
theorem target_nodeOffset (i : NodeIx) : target (BitVec.ofNat 16 (nodeOffset i)) = .node i := by
  have hi := i.isLt
  have ho : (BitVec.ofNat 16 (nodeOffset i)).toNat = 0x4000 + 4 * i.toNat := by
    rw [BitVec.toNat_ofNat, nodeOffset]
    omega
  rw [target_node (by omega) (by omega), ho]
  congr 1
  apply BitVec.eq_of_toNat_eq
  rw [BitVec.toNat_ofNat]
  omega

/-- Word k of a CODE_RAM entry stands at its offset (R42). -/
theorem target_codeOffset (sym : Byte) (k : Nat) (hk : k ≤ 8) :
    target (BitVec.ofNat 16 (codeOffset sym k)) = if k = 0 then .codeHeader sym else .codeWord sym k := by
  have hs := sym.isLt
  have ho : (BitVec.ofNat 16 (codeOffset sym k)).toNat = 0x8000 + 64 * sym.toNat + 4 * k := by
    rw [BitVec.toNat_ofNat, codeOffset]
    omega
  have h1 : (0x8000 + 64 * sym.toNat + 4 * k) % 64 / 4 = k := by omega
  have h2 : BitVec.ofNat 8 ((0x8000 + 64 * sym.toNat + 4 * k - 0x8000) / 64) = sym := by
    apply BitVec.eq_of_toNat_eq
    rw [BitVec.toNat_ofNat]
    omega
  rw [target_code (by omega) (by omega), ho]
  simp only [targetCode, h1, h2, hk, if_true]

end Sys2Proof.Machine
end

