-- ==== Sys2Proof/Laws/Decode.lean ====
section
/-! SUPPORT. Bit fields and the words of commands as numbers, and what the decoder reads. -/

namespace Sys2Proof

theorem field_toNat (w : Word) (lo len : Nat) : (field w lo len).toNat = w.toNat / 2 ^ lo % 2 ^ len := by
  simp [field, BitVec.extractLsb'_toNat, Nat.shiftRight_eq_div_pow]

theorem field_eq_iff (w : Word) (lo len : Nat) (x : BitVec len) :
    field w lo len = x ↔ w.toNat / 2 ^ lo % 2 ^ len = x.toNat := by
  rw [← BitVec.toNat_inj, field_toNat]

theorem opField_toNat (w : Word) : (field w 28 4).toNat = w.toNat / 2 ^ 28 := by
  rw [field_toNat]
  have := w.isLt
  omega

/-- The opcode of a word is one of the sixteen values. -/
theorem opField_eq_iff (w : Word) (x : BitVec 4) : field w 28 4 = x ↔ w.toNat / 2 ^ 28 = x.toNat := by
  rw [← BitVec.toNat_inj, opField_toNat]

theorem getLsbD_31 (w : Word) : w.getLsbD 31 = decide (2 ^ 31 ≤ w.toNat) := by
  have hlt := w.isLt
  rw [BitVec.getLsbD, Nat.testBit_eq_decide_div_mod_eq]
  congr 1
  apply propext
  omega

theorem unitOf_eq_dec_iff (w : Word) : unitOf w = .dec ↔ 2 ^ 31 ≤ w.toNat := by
  rw [unitOf, getLsbD_31]
  simp

/-! ### The words of commands as numbers -/

theorem or_setWidth_toNat {n : Nat} (a : Nat) (x : BitVec n) (hn : n ≤ 28) (ha : a < 16) :
    (BitVec.ofNat 32 (2 ^ 28 * a) ||| x.setWidth 32).toNat = 2 ^ 28 * a + x.toNat := by
  have hx : x.toNat < 2 ^ 28 := lt_of_lt_of_le x.isLt (Nat.pow_le_pow_right (by omega) hn)
  rw [BitVec.toNat_or, BitVec.toNat_ofNat, BitVec.toNat_setWidth, Nat.mod_eq_of_lt (by omega),
    Nat.mod_eq_of_lt (by omega), Nat.two_pow_add_eq_or_of_lt hx]

theorem encode_nop_toNat (x : BitVec 28) : (encode (.nop x)).toNat = x.toNat := by
  show (x.setWidth 32).toNat = _
  rw [BitVec.toNat_setWidth]
  have := x.isLt
  omega

theorem encode_encSym_toNat (sym : Byte) : (encode (.encSym sym)).toNat = 0x20000000 + sym.toNat :=
  or_setWidth_toNat 2 sym (by omega) (by omega)

theorem encode_encReset_toNat (x : BitVec 28) : (encode (.encReset x)).toNat = 0x50000000 + x.toNat :=
  or_setWidth_toNat 5 x (by omega) (by omega)

theorem encode_decReset_toNat (x : BitVec 28) : (encode (.decReset x)).toNat = 0xD0000000 + x.toNat :=
  or_setWidth_toNat 13 x (by omega) (by omega)

theorem encode_decBits_toNat (n : BitVec 4) (d : Byte) :
    (encode (.decBits n d)).toNat = 0xA0000000 + 256 * n.toNat + d.toNat := by
  have hn := n.isLt
  have hd := d.isLt
  show ((0xA0000000#32 ||| (n.setWidth 32 <<< 8)) ||| d.setWidth 32).toNat = _
  have h1 : (n.setWidth 32 <<< 8).toNat = 256 * n.toNat := by
    rw [BitVec.toNat_shiftLeft, BitVec.toNat_setWidth, Nat.shiftLeft_eq]
    omega
  have h2 : (0xA0000000#32 ||| (n.setWidth 32 <<< 8)).toNat = 2 ^ 8 * (0xA00000 + n.toNat) := by
    rw [BitVec.toNat_or, h1]
    have := Nat.two_pow_add_eq_or_of_lt (i := 28) (b := 256 * n.toNat) (by omega) 10
    show 0xA0000000 ||| 256 * n.toNat = _
    rw [show (0xA0000000 : Nat) = 2 ^ 28 * 10 from rfl, ← this]
    omega
  rw [BitVec.toNat_or, h2, BitVec.toNat_setWidth, Nat.mod_eq_of_lt (by omega),
    ← Nat.two_pow_add_eq_or_of_lt (by omega)]
  omega

/-! ### What the decoder reads -/

theorem decodeF0_legal {i j : Instr} {w : Word} (h : decodeF0 i w = .legal j) : j = i ∧ w.toNat % 2 ^ 28 = 0 := by
  unfold decodeF0 at h
  split at h
  · rename_i hz
    rw [field_eq_iff] at hz
    cases h
    exact ⟨rfl, by simpa using hz⟩
  · cases h

theorem decodeF0_of_zero {i : Instr} {w : Word} (h : w.toNat % 2 ^ 28 = 0) : decodeF0 i w = .legal i := by
  have : field w 0 28 = 0 := by rw [field_eq_iff]; simpa using h
  simp [decodeF0, this]

/-- An illegal word is charged to the unit of its bit [31] (R72). -/
theorem decode_illegal_unit {w : Word} {u : CodecUnit} {why : IllegalReason} (h : decode w = .illegal u why) :
    u = unitOf w := by
  unfold decode decodeF0 decodeFS decodeFB at h
  split at h <;> try split at h
  all_goals try split at h
  all_goals first | (cases h; rfl) | cases h

end Sys2Proof
end

