-- ==== Sys2Proof/Laws/Decoder.lean ====
section
/-! SUPPORT. What the decoder's walk does (R111): what one bit can do, what a walk leaves alone, and the walk over a tree
read from NODE_RAM. -/

namespace Sys2Proof.Machine

open Reference

@[simp] theorem groupBits_length (n : BitVec 4) (data : Byte) : (groupBits n data).length = n.toNat := by
  simp [groupBits]

@[simp] theorem DecUnit.consumed_out (d : DecUnit) : d.consumed.out = d.out := rfl
@[simp] theorem DecUnit.consumed_symcnt (d : DecUnit) : d.consumed.symcnt = d.symcnt := rfl
@[simp] theorem DecUnit.consumed_bitcnt (d : DecUnit) : d.consumed.bitcnt = d.bitcnt + 1 := rfl
@[simp] theorem DecUnit.consumed_seen (d : DecUnit) : d.consumed.seen = true := rfl
@[simp] theorem DecUnit.consumed_state (d : DecUnit) : d.consumed.state = d.state := rfl
@[simp] theorem DecUnit.consumed_err (d : DecUnit) : d.consumed.err = d.err := rfl
@[simp] theorem DecUnit.consumed_errCmd (d : DecUnit) : d.consumed.errCmd = d.errCmd := rfl
@[simp] theorem DecUnit.consumed_ptr (d : DecUnit) : d.consumed.ptr = d.ptr := rfl

/-- Everything one bit consumed without error can do (R111). -/
theorem walkBit_more {s : State} {b : Bool} {d d' : DecUnit} (h : walkBit s b d = .more d') :
    s.treeValid = true ∧ d'.state = d.state ∧ d'.err = d.err ∧ d'.errCmd = d.errCmd ∧ d'.seen = true ∧
      d'.bitcnt = d.bitcnt + 1 ∧
      ((d'.out = d.out ∧ d'.symcnt = d.symcnt ∧ ∃ q, nodeRead s.mem d'.ptr = .ok q ∧ nodeIsLeaf q = false) ∨
        (∃ sym, d'.out = d.out ++ [sym] ∧ d'.symcnt = d.symcnt + 1 ∧ (d'.ptr = d.ptr ∨ d'.ptr = s.root))) := by
  unfold walkBit at h
  split at h
  · rename_i hv
    refine ⟨hv, ?_⟩
    split at h
    · cases h
    · split at h
      · cases h
        exact ⟨rfl, rfl, rfl, rfl, rfl, .inr ⟨_, rfl, rfl, .inl rfl⟩⟩
      · split at h
        · cases h
        · split at h
          · cases h
          · rename_i q hq
            split at h
            · cases h
              exact ⟨rfl, rfl, rfl, rfl, rfl, .inr ⟨_, rfl, rfl, .inr rfl⟩⟩
            · rename_i hleaf
              cases h
              exact ⟨rfl, rfl, rfl, rfl, rfl, .inl ⟨rfl, rfl, q, hq, by simpa using hleaf⟩⟩
  · cases h

/-- A bit raises only where there is no tree, and then nothing of it is kept (R111, D30). -/
theorem walkBit_raised {s : State} {b : Bool} {d d' : DecUnit} {code : ErrCode} (h : walkBit s b d = .raised d' code) :
    s.treeValid = false ∧ d' = d ∧ code = .inconsistentEmptyState := by
  unfold walkBit at h
  split at h
  · split at h
    · cases h
    · split at h
      · cases h
      · split at h
        · cases h
        · split at h
          · cases h
          · split at h <;> cases h
  · rename_i hv
    cases h
    exact ⟨by simpa using hv, rfl, rfl⟩

/-- With no tree, the first bit raises (R111). -/
theorem walkBit_of_noTree {s : State} (h : s.treeValid = false) (b : Bool) (d : DecUnit) :
    walkBit s b d = .raised d .inconsistentEmptyState := by
  simp [walkBit, h]

/-- What a walk without error leaves alone, and how much it emits (R111). -/
theorem walkBits_more {s : State} {bits : List Bool} {d d' : DecUnit} (h : walkBits s bits d = .more d') :
    d'.state = d.state ∧ d'.err = d.err ∧ d'.errCmd = d.errCmd ∧ (d.seen = true → d'.seen = true) ∧
      (bits ≠ [] → d'.seen = true ∧ s.treeValid = true) ∧
      d'.bitcnt = d.bitcnt + BitVec.ofNat 32 bits.length ∧
      ∃ syms, d'.out = d.out ++ syms ∧ syms.length ≤ bits.length ∧
        d'.symcnt = d.symcnt + BitVec.ofNat 32 syms.length := by
  induction bits generalizing d with
  | nil =>
    cases h
    exact ⟨rfl, rfl, rfl, id, fun h => absurd rfl h, by simp, [], by simp⟩
  | cons b bits ih =>
    simp only [walkBits] at h
    split at h
    · rename_i d1 h1
      obtain ⟨hv, a1, a2, a3, a4, a5, a6⟩ := walkBit_more h1
      obtain ⟨b1, b2, b3, b4, _, b6, syms, b7, b8, b9⟩ := ih h
      refine ⟨b1.trans a1, b2.trans a2, b3.trans a3, fun _ => b4 a4, fun _ => ⟨b4 a4, hv⟩, ?_, ?_⟩
      · rw [b6, a5, List.length_cons, BitVec.add_assoc]
        congr 1
        rw [Nat.add_comm]
        exact (BitVec.ofNat_add 1 bits.length).symm
      · rcases a6 with ⟨c1, c2, _⟩ | ⟨sym, c1, c2, _⟩
        · exact ⟨syms, by rw [b7, c1], by rw [List.length_cons]; omega, by rw [b9, c2]⟩
        · refine ⟨sym :: syms, by rw [b7, c1]; simp, by simpa using b8, ?_⟩
          rw [b9, c2, List.length_cons, BitVec.add_assoc]
          congr 1
          rw [Nat.add_comm]
          exact (BitVec.ofNat_add 1 syms.length).symm
    · cases h
    · cases h

/-- A walk raises only where there is no tree, on its first bit (R111). -/
theorem walkBits_raised {s : State} {bits : List Bool} {d d' : DecUnit} {code : ErrCode}
    (h : walkBits s bits d = .raised d' code) :
    s.treeValid = false ∧ d' = d ∧ code = .inconsistentEmptyState := by
  cases bits with
  | nil => cases h
  | cons b bits =>
    simp only [walkBits] at h
    split at h
    · rename_i d1 h1
      have hv := (walkBit_more h1).1
      exfalso
      clear h1
      induction bits generalizing d1 with
      | nil => cases h
      | cons c bits ih =>
        simp only [walkBits] at h
        split at h
        · exact ih _ h
        · rename_i h2
          rw [(walkBit_raised h2).1] at hv
          cases hv
        · cases h
    · rename_i h1
      cases h
      exact walkBit_raised h1
    · cases h

/-- Two walks one after the other are one walk. -/
theorem walkBits_append (s : State) (bits bits' : List Bool) (d : DecUnit) :
    walkBits s (bits ++ bits') d =
      match walkBits s bits d with
      | .more d' => walkBits s bits' d'
      | .raised d' code => .raised d' code
      | .fault f => .fault f := by
  induction bits generalizing d with
  | nil => rfl
  | cons b bits ih =>
    simp only [List.cons_append, walkBits]
    split
    · exact ih _
    · rfl
    · rfl

/-! ### Trees read from NODE_RAM -/

/-- A leaf word. -/
theorem treeAt_leaf {m : Memory} {k : Nat} {i : NodeIx} {sym : Byte} {w : Nat}
    (h : treeAt m k i = some (.leaf sym w)) :
    ∃ r, nodeRead m i = .ok r ∧ nodeIsLeaf r = true ∧ nodeSym r = sym := by
  cases k with
  | zero => cases h
  | succ k =>
    simp only [treeAt] at h
    split at h
    · cases h
    · rename_i r hr
      split at h
      · rename_i hl
        cases h
        exact ⟨r, hr, hl, rfl⟩
      · split at h <;> cases h

/-- An internal word and its children. -/
theorem treeAt_internal {m : Memory} {k : Nat} {i : NodeIx} {w : Nat} {l r : CodeTree}
    (h : treeAt m k i = some (.internal w l r)) :
    ∃ p, nodeRead m i = .ok p ∧ nodeIsLeaf p = false ∧
      ∀ b, ∃ j, treeAt m j (nodeChild p b) = some ((CodeTree.internal w l r).child b) := by
  cases k with
  | zero => cases h
  | succ k =>
    simp only [treeAt] at h
    split at h
    · cases h
    · rename_i p hp
      split at h
      · cases h
      · rename_i hl
        split at h
        · rename_i l' r' hl' hr'
          cases h
          refine ⟨p, hp, by simpa using hl, fun b => ⟨k, ?_⟩⟩
          cases b
          · exact hl'
          · exact hr'
        · cases h

theorem CodeTree.size_pos (t : CodeTree) : 1 ≤ t.size := by
  cases t <;> simp only [CodeTree.size] <;> omega

/-- Where the decoder's pointer stands in the tree `t` at ROOT: at the root, or at a smaller subtree that is no leaf. -/
def PointsTo (s : State) (t : CodeTree) (ptr : NodeIx) (p : CodeTree) : Prop :=
  (ptr = s.root ∧ p = t) ∨
    (p.size < t.size ∧ (∃ k, treeAt s.mem k ptr = some p) ∧ ∃ w l r, p = .internal w l r)

theorem treeAt_succ {m : Memory} {k : Nat} {i : NodeIx} {t : CodeTree} (h : treeAt m k i = some t) :
    treeAt m (k + 1) i = some t := by
  induction k generalizing i t with
  | zero => cases h
  | succ k ih =>
    rw [treeAt] at h ⊢
    split at h
    · cases h
    · split at h
      · rename_i hl
        simpa [hl] using h
      · rename_i hl
        split at h
        · rename_i l r hl' hr'
          simp only [hl, ih hl', ih hr']
          simpa using h
        · cases h

/-- The depth bound does not matter once a reading has ended. -/
theorem treeAt_unique {m : Memory} {i : NodeIx} {k k' : Nat} {t t' : CodeTree}
    (h : treeAt m k i = some t) (h' : treeAt m k' i = some t') : t = t' := by
  have mono : ∀ {a : Nat} {u : CodeTree} (n : Nat), treeAt m a i = some u → treeAt m (a + n) i = some u := by
    intro a u n hu
    induction n with
    | zero => exact hu
    | succ n ih => exact treeAt_succ ih
  have h1 := mono k' h
  have h2 := mono k h'
  rw [Nat.add_comm k' k, h1] at h2
  exact Option.some.inj h2

/-- A pointer stands at the root exactly where it points to the whole tree. -/
theorem PointsTo.at_root_iff {s : State} {t p : CodeTree} {ptr : NodeIx} {k : Nat}
    (ht : treeAt s.mem k s.root = some t) (h : PointsTo s t ptr p) : ptr = s.root ↔ p = t := by
  rcases h with ⟨h1, h2⟩ | ⟨h1, ⟨j, h2⟩, _⟩
  · simp [h1, h2]
  · constructor
    · intro hp
      rw [hp] at h2
      exact treeAt_unique h2 ht
    · intro hp
      rw [hp] at h1
      omega

/-- One bit over a tree read from NODE_RAM: a step of the walk of decode_ref (R90). -/
theorem walkBit_tree {s : State} {t p : CodeTree} {k : Nat} {d : DecUnit} (hv : s.treeValid = true)
    (ht : treeAt s.mem k s.root = some t) (hp : PointsTo s t d.ptr p) (b : Bool) :
    ∃ d' p' syms, walkBit s b d = .more d' ∧ PointsTo s t d'.ptr p' ∧ d'.out = d.out ++ syms ∧
      ∀ bits, walk t p (b :: bits) = (syms ++ (walk t p' bits).1, (walk t p' bits).2) := by
  cases t with
  | leaf sym w =>
    obtain ⟨r, hr, hl, hs⟩ := treeAt_leaf ht
    refine ⟨(d.emitSym (nodeSym r)).consumed, p, [sym], ?_, hp, by simp [hs], fun bits => rfl⟩
    simp [walkBit, hv, hr, hl]
  | internal w l r =>
    obtain ⟨rw', hr, hrl, hrc⟩ := treeAt_internal ht
    obtain ⟨pw, pl, pr, hpe⟩ : ∃ w' l' r', p = .internal w' l' r' := by
      rcases hp with ⟨_, h⟩ | ⟨_, _, h⟩
      · exact ⟨w, l, r, h⟩
      · exact h
    obtain ⟨j, hj⟩ : ∃ j, treeAt s.mem j d.ptr = some p := by
      rcases hp with ⟨h1, h2⟩ | ⟨_, h, _⟩
      · exact ⟨k, by rw [h1, h2]; exact ht⟩
      · exact h
    have hsize : p.size ≤ (CodeTree.internal w l r).size := by
      rcases hp with ⟨_, h2⟩ | ⟨h, _, _⟩
      · rw [h2]
      · omega
    subst hpe
    obtain ⟨pn, hpn, hpl, hpc⟩ := treeAt_internal hj
    obtain ⟨j', hc⟩ := hpc b
    have hcsize : ((CodeTree.internal pw pl pr).child b).size < (CodeTree.internal pw pl pr).size := by
      cases b <;> simp only [CodeTree.child, CodeTree.size, if_true, if_false, Bool.false_eq_true] <;> omega
    cases hch : (CodeTree.internal pw pl pr).child b with
    | leaf sym w' =>
      rw [hch] at hc
      obtain ⟨q, hq, hql, hqs⟩ := treeAt_leaf hc
      refine ⟨{ (d.emitSym (nodeSym q)).consumed with ptr := s.root }, .internal w l r, [sym], ?_, .inl ⟨rfl, rfl⟩,
        by simp [hqs], fun bits => ?_⟩
      · simp [walkBit, hv, hr, hrl, hpn, hq, hql]
      · simp [walk, hch]
    | internal cw cl cr =>
      rw [hch] at hc hcsize
      obtain ⟨q, hq, hql, _⟩ := treeAt_internal hc
      refine ⟨{ d.consumed with ptr := nodeChild pn b }, .internal cw cl cr, [], ?_,
        .inr ⟨by omega, ⟨j', hc⟩, cw, cl, cr, rfl⟩, by simp, fun bits => ?_⟩
      · simp [walkBit, hv, hr, hrl, hpn, hq, hql]
      · simp [walk, hch]

/-- The decoder's walk over a tree read from NODE_RAM is the walk of decode_ref (R90, R116). -/
theorem walkBits_tree {s : State} {t : CodeTree} {k : Nat} (hv : s.treeValid = true)
    (ht : treeAt s.mem k s.root = some t) (bits : List Bool) {p : CodeTree} {d : DecUnit} (hp : PointsTo s t d.ptr p) :
    ∃ d', walkBits s bits d = .more d' ∧ PointsTo s t d'.ptr (walk t p bits).2 ∧ d'.out = d.out ++ (walk t p bits).1 := by
  induction bits generalizing p d with
  | nil =>
    refine ⟨d, rfl, ?_, ?_⟩
    · simpa [walk] using hp
    · simp [walk]
  | cons b bits ih =>
    obtain ⟨d1, p1, syms, h1, h2, h3, h4⟩ := walkBit_tree hv ht hp b
    obtain ⟨d2, g1, g2, g3⟩ := ih h2
    refine ⟨d2, by simp only [walkBits, h1, g1], ?_, ?_⟩
    · rw [h4]; exact g2
    · rw [h4, g3, h3]; simp

end Sys2Proof.Machine
end

