-- ==== Sys2Proof/Laws/Encoder.lean ====
section
/-! SUPPORT. What the encoder's shared operations do: appending bits (R101) and closing a stream (R102). -/

namespace Sys2Proof.Machine

open Reference

/-! ### What appending leaves alone -/

section
variable (b : Bool) (bits : List Bool) (e : EncUnit)

@[simp] theorem EncUnit.appendBit_state : (e.appendBit b).state = e.state := by
  unfold EncUnit.appendBit; dsimp only; split <;> rfl
@[simp] theorem EncUnit.appendBit_err : (e.appendBit b).err = e.err := by
  unfold EncUnit.appendBit; dsimp only; split <;> rfl
@[simp] theorem EncUnit.appendBit_errCmd : (e.appendBit b).errCmd = e.errCmd := by
  unfold EncUnit.appendBit; dsimp only; split <;> rfl
@[simp] theorem EncUnit.appendBit_bitcnt : (e.appendBit b).bitcnt = e.bitcnt := by
  unfold EncUnit.appendBit; dsimp only; split <;> rfl
@[simp] theorem EncUnit.appendBit_symcnt : (e.appendBit b).symcnt = e.symcnt := by
  unfold EncUnit.appendBit; dsimp only; split <;> rfl

@[simp] theorem EncUnit.appendBits_nil : e.appendBits [] = e := rfl
@[simp] theorem EncUnit.appendBits_cons : e.appendBits (b :: bits) = (e.appendBit b).appendBits bits := rfl

@[simp] theorem EncUnit.appendBits_state : (e.appendBits bits).state = e.state := by
  induction bits generalizing e with
  | nil => rfl
  | cons b bits ih => simp [ih]
@[simp] theorem EncUnit.appendBits_err : (e.appendBits bits).err = e.err := by
  induction bits generalizing e with
  | nil => rfl
  | cons b bits ih => simp [ih]
@[simp] theorem EncUnit.appendBits_errCmd : (e.appendBits bits).errCmd = e.errCmd := by
  induction bits generalizing e with
  | nil => rfl
  | cons b bits ih => simp [ih]
@[simp] theorem EncUnit.appendBits_bitcnt : (e.appendBits bits).bitcnt = e.bitcnt := by
  induction bits generalizing e with
  | nil => rfl
  | cons b bits ih => simp [ih]
@[simp] theorem EncUnit.appendBits_symcnt : (e.appendBits bits).symcnt = e.symcnt := by
  induction bits generalizing e with
  | nil => rfl
  | cons b bits ih => simp [ih]

@[simp] theorem EncUnit.encodeSymbol_state : (e.encodeSymbol bits).state = e.state := e.appendBits_state bits
@[simp] theorem EncUnit.encodeSymbol_err : (e.encodeSymbol bits).err = e.err := e.appendBits_err bits
@[simp] theorem EncUnit.encodeSymbol_errCmd : (e.encodeSymbol bits).errCmd = e.errCmd := e.appendBits_errCmd bits
@[simp] theorem EncUnit.encodeSymbol_acc : (e.encodeSymbol bits).acc = (e.appendBits bits).acc := rfl
@[simp] theorem EncUnit.encodeSymbol_accN : (e.encodeSymbol bits).accN = (e.appendBits bits).accN := rfl
@[simp] theorem EncUnit.encodeSymbol_out : (e.encodeSymbol bits).out = (e.appendBits bits).out := rfl
@[simp] theorem EncUnit.encodeSymbol_bitcnt :
    (e.encodeSymbol bits).bitcnt = e.bitcnt + BitVec.ofNat 32 bits.length := rfl
@[simp] theorem EncUnit.encodeSymbol_symcnt : (e.encodeSymbol bits).symcnt = e.symcnt + 1 := rfl

end

/-! ### Pending bits -/

@[simp] theorem pendingBits_length (e : EncUnit) : (pendingBits e).length = e.accN.toNat := by
  simp [pendingBits]

theorem accN_lt (e : EncUnit) : e.accN.toNat < 8 := e.accN.isLt

theorem pendingBits_getD (e : EncUnit) (k : Nat) :
    (pendingBits e).getD k false = (decide (k < e.accN.toNat) && e.acc.getLsbD (e.accN.toNat - 1 - k)) := by
  by_cases h : k < e.accN.toNat <;> simp [pendingBits, List.getD_eq_getElem?_getD, h]

theorem pendingBits_of_accN_eq_zero {e : EncUnit} (h : e.accN = 0) : pendingBits e = [] := by
  simp [pendingBits, h]

theorem getLsbD_byteOfBits (f : Nat → Bool) (i : Nat) :
    (byteOfBits f).getLsbD i = (decide (i < 8) && f (7 - i)) := by
  by_cases h : i < 8
  · simp only [byteOfBits, BitVec.getLsbD_append, BitVec.getLsbD_ofBool]
    interval_cases i <;> simp
  · have hw : (byteOfBits f).getLsbD i = false := BitVec.getLsbD_of_ge (byteOfBits f) i (by omega)
    simp [h, hw]

theorem getD_snoc (p : List Bool) (b : Bool) (k : Nat) :
    (p ++ [b]).getD k false = if k < p.length then p.getD k false else if k = p.length then b else false := by
  simp only [List.getD_eq_getElem?_getD, List.getElem?_append]
  split
  · rfl
  · rename_i h
    split
    · rename_i h2; simp [h2]
    · rename_i h2
      have : 1 ≤ k - p.length := by omega
      simp [List.getElem?_eq_none (show [b].length ≤ k - p.length from this)]

/-- The byte of ACC followed by one more bit (R101), read bit by bit. -/
theorem getLsbD_shifted (acc : BitVec 7) (b : Bool) (i : Nat) (hi : i < 8) :
    ((acc.setWidth 8 <<< 1 ||| (BitVec.ofBool b).setWidth 8 : Byte)).getLsbD i =
      if i = 0 then b else acc.getLsbD (i - 1) := by
  simp only [BitVec.getLsbD_or, BitVec.getLsbD_shiftLeft, BitVec.getLsbD_setWidth, BitVec.getLsbD_ofBool]
  by_cases h : i = 0
  · subst h; simp
  · have h1 : ¬ i < 1 := by omega
    have h2 : i - 1 < 8 := by omega
    simp [h, hi, h1, h2]

/-- The eighth bit completes a byte: the pending bits and it, oldest first. -/
theorem EncUnit.appendBit_full {e : EncUnit} (b : Bool) (h : e.accN = 7) :
    e.appendBit b =
      { e with out := e.out ++ [byteOfBits (fun k => (pendingBits e ++ [b]).getD k false)], acc := 0, accN := 0 } := by
  have h7 : e.accN.toNat = 7 := by rw [h]; rfl
  have hb : (e.acc.setWidth 8 <<< 1 ||| (BitVec.ofBool b).setWidth 8 : Byte) =
      byteOfBits (fun k => (pendingBits e ++ [b]).getD k false) := by
    apply BitVec.eq_of_getLsbD_eq
    intro i hi
    rw [getLsbD_byteOfBits, getLsbD_shifted _ _ _ hi, getD_snoc, pendingBits_getD, pendingBits_length, h7]
    by_cases h0 : i = 0
    · subst h0; simp
    · have h1 : 7 - i < 7 := by omega
      have h2 : 7 - 1 - (7 - i) = i - 1 := by omega
      simp [h0, hi, h1, h2]
  unfold EncUnit.appendBit
  simp only [h, if_pos, hb]
  rfl

/-- Any other bit joins the pending bits as the newest. -/
theorem EncUnit.appendBit_pending {e : EncUnit} (b : Bool) (h : e.accN ≠ 7)
    (hz : ∀ i, e.accN.toNat ≤ i → e.acc.getLsbD i = false) :
    (e.appendBit b).out = e.out ∧ (e.appendBit b).accN.toNat = e.accN.toNat + 1 ∧
      pendingBits (e.appendBit b) = pendingBits e ++ [b] ∧
      ∀ i, (e.appendBit b).accN.toNat ≤ i → (e.appendBit b).acc.getLsbD i = false := by
  have hlt : e.accN.toNat < 7 := by
    have := accN_lt e
    have hne : e.accN.toNat ≠ 7 := fun hh => h (BitVec.eq_of_toNat_eq hh)
    omega
  have hn : (e.accN + 1).toNat = e.accN.toNat + 1 := by
    rw [BitVec.toNat_add]
    exact Nat.mod_eq_of_lt (by show e.accN.toNat + 1 < 8; omega)
  have happ : e.appendBit b = { e with
      acc := ((e.acc.setWidth 8 <<< 1 ||| (BitVec.ofBool b).setWidth 8 : Byte)).setWidth 7, accN := e.accN + 1 } := by
    unfold EncUnit.appendBit
    simp only [h, if_false]
  have hbit : ∀ i, (e.appendBit b).acc.getLsbD i = if i = 0 then b else decide (i < 7) && e.acc.getLsbD (i - 1) := by
    intro i
    rw [happ]
    simp only [BitVec.getLsbD_setWidth]
    by_cases hi : i < 8
    · rw [getLsbD_shifted _ _ _ hi]
      by_cases h0 : i = 0
      · simp [h0]
      · simp [h0]
    · have : ¬ i < 7 := by omega
      have : i ≠ 0 := by omega
      simp [*]
  refine ⟨by rw [happ], by rw [happ]; exact hn, ?_, ?_⟩
  · have hN : (e.appendBit b).accN.toNat = e.accN.toNat + 1 := by rw [happ]; exact hn
    unfold pendingBits
    rw [hN, List.range_succ, List.map_append]
    congr 1
    · apply List.map_congr_left
      intro k hk
      rw [List.mem_range] at hk
      rw [hbit]
      have h1 : e.accN.toNat + 1 - 1 - k ≠ 0 := by omega
      have h2 : e.accN.toNat + 1 - 1 - k < 7 := by omega
      have h3 : e.accN.toNat + 1 - 1 - k - 1 = e.accN.toNat - 1 - k := by omega
      rw [if_neg h1, h3, decide_eq_true h2, Bool.true_and]
    · simp [hbit]
  · intro i hi
    have hN : (e.appendBit b).accN.toNat = e.accN.toNat + 1 := by rw [happ]; exact hn
    rw [hN] at hi
    rw [hbit, if_neg (by omega), hz (i - 1) (by omega)]
    simp

/-! ### Full bytes and the rest of a bit string -/

theorem packFull_of_lt {bits : List Bool} (h : bits.length < 8) : packFull bits = [] := by
  simp [packFull, Nat.div_eq_of_lt h]

theorem restBits_of_lt {bits : List Bool} (h : bits.length < 8) : restBits bits = bits := by
  simp [restBits, Nat.div_eq_of_lt h]

theorem packByte_append (p bits : List Bool) (hp : p.length = 8) (j : Nat) :
    packByte (p ++ bits) (j + 1) = packByte bits j := by
  unfold packByte
  congr 1
  funext k
  rw [List.getD_append_right _ _ _ _ (by omega)]
  congr 1
  omega

theorem packByte_zero_append (p bits : List Bool) (hp : p.length = 8) :
    packByte (p ++ bits) 0 = packByte p 0 := by
  apply BitVec.eq_of_getLsbD_eq
  intro i hi
  simp only [packByte, getLsbD_byteOfBits]
  rw [List.getD_append _ _ _ _ (by omega)]

/-- The first full byte of a bit string. -/
theorem packFull_append (p bits : List Bool) (hp : p.length = 8) :
    packFull (p ++ bits) = byteOfBits (fun k => p.getD k false) :: packFull bits := by
  have hl : (p ++ bits).length / 8 = bits.length / 8 + 1 := by
    rw [List.length_append, hp, Nat.add_comm, Nat.add_div_right _ (by omega)]
  unfold packFull
  rw [hl, List.range_succ_eq_map, List.map_cons, packByte_zero_append p bits hp, List.map_map]
  refine congrArg₂ List.cons ?_ (List.map_congr_left fun j _ => packByte_append p bits hp j)
  simp [packByte]

theorem restBits_append (p bits : List Bool) (hp : p.length = 8) : restBits (p ++ bits) = restBits bits := by
  have hl : 8 * ((p ++ bits).length / 8) = p.length + 8 * (bits.length / 8) := by
    rw [List.length_append, hp, Nat.add_comm, Nat.add_div_right _ (by omega)]
    omega
  unfold restBits
  rw [hl, List.drop_append, List.drop_eq_nil_of_le (by omega)]
  simp

/-- Appending bits (R101): the full bytes of the pending bits and the new ones are emitted in order, and the rest is
pending. -/
theorem EncUnit.appendBits_law (bits : List Bool) (e : EncUnit)
    (hz : ∀ i, e.accN.toNat ≤ i → e.acc.getLsbD i = false) :
    (e.appendBits bits).out = e.out ++ packFull (pendingBits e ++ bits) ∧
      pendingBits (e.appendBits bits) = restBits (pendingBits e ++ bits) ∧
      ∀ i, (e.appendBits bits).accN.toNat ≤ i → (e.appendBits bits).acc.getLsbD i = false := by
  induction bits generalizing e with
  | nil =>
    have hlt : (pendingBits e).length < 8 := by rw [pendingBits_length]; exact accN_lt e
    refine ⟨?_, ?_, hz⟩
    · simp [packFull_of_lt hlt]
    · simp [restBits_of_lt hlt]
  | cons b bits ih =>
    rw [EncUnit.appendBits_cons]
    have hs : pendingBits e ++ b :: bits = (pendingBits e ++ [b]) ++ bits := by simp
    by_cases h : e.accN = 7
    · have hp : (pendingBits e ++ [b]).length = 8 := by simp [h]
      have hpe : pendingBits (e.appendBit b) = [] := by
        rw [EncUnit.appendBit_full b h]; rfl
      obtain ⟨h1, h2, h3⟩ := ih (e.appendBit b) (by
        rw [EncUnit.appendBit_full b h]; intro i _; simp)
      refine ⟨?_, ?_, h3⟩
      · rw [h1, hpe, hs, packFull_append _ _ hp, EncUnit.appendBit_full b h]
        simp
      · rw [h2, hpe, hs, restBits_append _ _ hp]
        simp
    · obtain ⟨g1, _, g3, g4⟩ := EncUnit.appendBit_pending b h hz
      obtain ⟨h1, h2, h3⟩ := ih (e.appendBit b) g4
      refine ⟨?_, ?_, h3⟩
      · rw [h1, g1, g3, hs]
      · rw [h2, g3, hs]

/-- The number of bits pending after bits are appended (R101). -/
theorem EncUnit.appendBits_accN (bits : List Bool) (e : EncUnit)
    (hz : ∀ i, e.accN.toNat ≤ i → e.acc.getLsbD i = false) :
    (e.appendBits bits).accN.toNat = (e.accN.toNat + bits.length) % 8 := by
  have h := congrArg List.length (EncUnit.appendBits_law bits e hz).2.1
  rw [pendingBits_length] at h
  rw [h, restBits, List.length_drop, List.length_append, pendingBits_length]
  omega

/-- The number of bytes emitted when bits are appended (R101): `need` of R122. -/
theorem EncUnit.appendBits_out_length (bits : List Bool) (e : EncUnit)
    (hz : ∀ i, e.accN.toNat ≤ i → e.acc.getLsbD i = false) :
    (e.appendBits bits).out.length = e.out.length + (e.accN.toNat + bits.length) / 8 := by
  rw [(EncUnit.appendBits_law bits e hz).1]
  simp [packFull]

/-- The padded last byte (R102) is the packed form of the pending bits. -/
theorem EncUnit.paddedByte_eq (e : EncUnit) (h : e.accN ≠ 0) : e.paddedByte = packByte (pendingBits e) 0 := by
  have hlt := accN_lt e
  have h0 : e.accN.toNat ≠ 0 := fun hh => h (BitVec.eq_of_toNat_eq hh)
  apply BitVec.eq_of_getLsbD_eq
  intro i hi
  simp only [packByte, getLsbD_byteOfBits, Nat.mul_zero, Nat.zero_add, pendingBits_getD, EncUnit.paddedByte,
    BitVec.getLsbD_shiftLeft, BitVec.getLsbD_setWidth]
  by_cases hi2 : i < 8 - e.accN.toNat
  · have : ¬ 7 - i < e.accN.toNat := by omega
    simp [hi, hi2, this]
  · have h1 : 7 - i < e.accN.toNat := by omega
    have h2 : i - (8 - e.accN.toNat) < 8 := by omega
    have h3 : e.accN.toNat - 1 - (7 - i) = i - (8 - e.accN.toNat) := by omega
    simp [hi, hi2, h1, h2, h3]

/-- Closing a stream (R102): the pending bits leave as one padded byte, if there are any. -/
theorem EncUnit.flushed_out (e : EncUnit) :
    e.flushed.out = e.out ++ pack (pendingBits e) := by
  by_cases h : e.accN = 0
  · simp [EncUnit.flushed, h, pendingBits_of_accN_eq_zero h, pack]
  · have h0 : e.accN.toNat ≠ 0 := fun hh => h (BitVec.eq_of_toNat_eq hh)
    have hlt := accN_lt e
    have : (e.accN.toNat + 7) / 8 = 1 := by omega
    have hp : pack (pendingBits e) = [e.paddedByte] := by simp [pack, this, EncUnit.paddedByte_eq e h]
    rw [hp]
    show (if e.accN = 0 then e else e.emitByte e.paddedByte).out = _
    rw [if_neg h]
    rfl

/-- A packed bit string is its full bytes and the packed rest. -/
theorem pack_eq (bits : List Bool) : pack bits = packFull bits ++ pack (restBits bits) := by
  by_cases h : bits.length < 8
  · rw [packFull_of_lt h, restBits_of_lt h]; rfl
  · have hsplit : bits = bits.take 8 ++ bits.drop 8 := (List.take_append_drop 8 bits).symm
    have hp : (bits.take 8).length = 8 := by rw [List.length_take]; omega
    have hlen : (bits.drop 8).length < bits.length := by rw [List.length_drop]; omega
    have ih := pack_eq (bits.drop 8)
    have hc : pack (bits.take 8 ++ bits.drop 8) =
        byteOfBits (fun k => (bits.take 8).getD k false) :: pack (bits.drop 8) := by
      have hl : ((bits.take 8 ++ bits.drop 8).length + 7) / 8 = ((bits.drop 8).length + 7) / 8 + 1 := by
        rw [List.length_append, hp]; omega
      unfold pack
      rw [hl, List.range_succ_eq_map, List.map_cons, packByte_zero_append _ _ hp, List.map_map]
      refine congrArg₂ List.cons ?_ (List.map_congr_left fun j _ => packByte_append _ _ hp j)
      simp [packByte]
    rw [hsplit, hc, packFull_append _ _ hp, restBits_append _ _ hp, List.cons_append, ← ih]
termination_by bits.length

/-- What a present entry of CODE_RAM says of its header (R52). -/
theorem codeRead_present {m : Memory} {sym len code} (h : codeRead m sym = .ok (.present len code)) :
    codeValid m sym = true ∧ ∃ b, codeLen m sym = some b ∧ b.toNat = len := by
  unfold codeRead at h
  split at h
  · rename_i hv
    split at h
    · cases h
    · rename_i b hb
      split at h
      · cases h
      · simp only [Except.ok.injEq, CodeEntry.present.injEq] at h
        exact ⟨hv, b, hb, h.1⟩
  · cases h

end Sys2Proof.Machine
end

