-- ==== Sys2Proof/Laws/Step.lean ====
section
/-! SUPPORT. What a command, an engine turn and a step can do, said once. -/

namespace Sys2Proof.Machine

/-! ### Turns -/

theorem step_of_engine {s : State} {ts : List Turn} (hb : s.cfg.InBounds) (ht : s.turns = .engine :: ts) :
    step s = engineStep { s with turns := ts } := by
  simp only [step, if_pos hb, ht, runTurn]

theorem step_of_noTurns {s : State} (hb : s.cfg.InBounds) (ht : s.turns = []) : step s = engineStep s := by
  simp only [step, if_pos hb, ht]

theorem step_of_host {s : State} {a : Access} {ts : List Turn} (hb : s.cfg.InBounds) (ht : s.turns = .host a :: ts) :
    step s = .next (hostAccess a { s with turns := ts }) := by
  simp only [step, if_pos hb, ht, runTurn]

theorem step_of_reset {s : State} {p : Option Access} {ts : List Turn} (hb : s.cfg.InBounds)
    (ht : s.turns = .reset p :: ts) : step s = .next (hardReset p { s with turns := ts }) := by
  simp only [step, if_pos hb, ht, runTurn]

theorem step_of_not_inBounds {s : State} (hb : ¬ s.cfg.InBounds) : step s = .refused .configurationOutOfBounds := by
  simp only [step, if_neg hb]

/-- Everything a step that answers a next state can be: an engine turn, a host access or a reset, each with its turn taken
off the list. -/
theorem step_next {s t : State} (h : step s = .next t) :
    s.cfg.InBounds ∧
      ((s.turns = [] ∧ engineStep s = .next t) ∨
        ∃ ts, (s.turns = .engine :: ts ∧ engineStep { s with turns := ts } = .next t) ∨
          (∃ a, s.turns = .host a :: ts ∧ t = hostAccess a { s with turns := ts }) ∨
          (∃ p, s.turns = .reset p :: ts ∧ t = hardReset p { s with turns := ts })) := by
  by_cases hb : s.cfg.InBounds
  · refine ⟨hb, ?_⟩
    cases ht : s.turns with
    | nil => exact .inl ⟨rfl, (step_of_noTurns hb ht).symm.trans h⟩
    | cons turn ts =>
      refine .inr ⟨ts, ?_⟩
      cases turn with
      | engine => exact .inl ⟨rfl, (step_of_engine hb ht).symm.trans h⟩
      | host a =>
        rw [step_of_host hb ht] at h
        cases h
        exact .inr (.inl ⟨a, rfl, rfl⟩)
      | reset p =>
        rw [step_of_reset hb ht] at h
        cases h
        exact .inr (.inr ⟨p, rfl, rfl⟩)
  · rw [step_of_not_inBounds hb] at h
    cases h

/-! ### The hold rule -/

/-- The hold rule does not read CMDQ or the list of turns. -/
theorem heldInstr_congr (i : Instr) (s : State) (q : List Word) (ts : List Turn) :
    heldInstr i { s with cmdq := q, turns := ts } = heldInstr i s := by
  cases i <;> rfl

theorem held_congr (w : Word) (s : State) (q : List Word) (ts : List Turn) :
    held w { s with cmdq := q, turns := ts } = held w s := by
  unfold held
  split
  · exact heldInstr_congr _ s q ts
  · rfl

theorem held_of_legal {w : Word} {i : Instr} (h : decode w = .legal i) (s : State) : held w s = heldInstr i s := by
  simp only [held, h]

theorem held_of_illegal {w : Word} {u : CodecUnit} {why : IllegalReason} (h : decode w = .illegal u why) (s : State) :
    held w s = false := by
  simp only [held, h]

theorem execWord_of_legal {w : Word} {i : Instr} (h : decode w = .legal i) (s : State) : execWord w s = exec i s := by
  simp only [execWord, h]

theorem execWord_of_illegal {w : Word} {u : CodecUnit} {why : IllegalReason} (h : decode w = .illegal u why) (s : State) :
    execWord w s = .next (illegalCommand u w s) := by
  simp only [execWord, h, execIllegal]

/-- Everything an engine turn that answers a next state can be: nothing while CMDQ is empty or the head is held, else the
head executed after its removal. -/
theorem engineStep_next {s t : State} (h : engineStep s = .next t) :
    (s.cmdq = [] ∧ t = s) ∨
      ∃ w rest, s.cmdq = w :: rest ∧
        ((held w s = true ∧ t = s) ∨ (held w s = false ∧ execWord w { s with cmdq := rest } = .next t)) := by
  unfold engineStep at h
  split at h
  · rename_i hq
    cases h
    exact .inl ⟨hq, rfl⟩
  · rename_i w rest hq
    refine .inr ⟨w, rest, hq, ?_⟩
    split at h
    · rename_i hh
      cases h
      exact .inl ⟨hh, rfl⟩
    · rename_i hh
      exact .inr ⟨by simpa using hh, h⟩

/-! ### Commands -/

/-- What ENC_SYM can do when it answers a next state (R101). -/
theorem execEncSym_next {sym : Byte} {s t : State} (h : execEncSym sym s = .next t) :
    (s.enc.state = .error ∧ t = s) ∨
      (s.enc.state ≠ .error ∧ ∃ code, code ≠ .none ∧ t = raiseErr .enc code (encode (.encSym sym)) s ∧
        needEncSym sym s = 0) ∨
      (s.enc.state = .active ∧ ∃ l code, codeRead s.mem sym = .ok (.present (l + 1) code) ∧
        t = s.setEnc (s.enc.encodeSymbol (codeBits (l + 1) code))) := by
  unfold execEncSym at h
  split at h
  · rename_i he
    cases h
    exact .inl ⟨he, rfl⟩
  · rename_i he
    cases h
    exact .inr (.inl ⟨by simp [he], _, by simp, rfl, by simp [needEncSym, he]⟩)
  · rename_i he
    split at h
    · cases h
    · rename_i hc
      cases h
      refine .inr (.inl ⟨by simp [he], _, by simp, rfl, ?_⟩)
      simp only [needEncSym, he]
      unfold codeRead at hc
      split at hc
      · split at hc
        · cases hc
        · split at hc <;> cases hc
      · rename_i hv
        simp [hv]
    · rename_i code hc
      cases h
      obtain ⟨_, len, hl, h0⟩ := codeRead_present hc
      exact .inr (.inl ⟨by simp [he], _, by simp, rfl, by simp [needEncSym, he, hl, h0]⟩)
    · rename_i l code hc
      cases h
      exact .inr (.inr ⟨he, l, code, hc, rfl⟩)

/-- What DEC_BITS can do when it answers a next state (R111). -/
theorem execDecBits_next {n : BitVec 4} {data : Byte} {s t : State} (h : execDecBits n data s = .next t) :
    (s.dec.state = .error ∧ t = s) ∨
      (s.dec.state ≠ .error ∧ ∃ code, code ≠ .none ∧ t = raiseErr .dec code (encode (.decBits n data)) s) ∨
      (LegalCount n ∧ s.dec.state = .active ∧ ∃ d, walkBits s (groupBits n data) s.dec = .more d ∧ t = s.setDec d) := by
  unfold execDecBits at h
  split at h
  · rename_i hn
    split at h
    · rename_i hd
      cases h
      exact .inl ⟨hd, rfl⟩
    · rename_i hd
      cases h
      exact .inr (.inl ⟨by simp [hd], _, by simp, rfl⟩)
    · rename_i hd
      split at h
      · rename_i d hw
        cases h
        exact .inr (.inr ⟨hn, hd, d, hw, rfl⟩)
      · rename_i d code hw
        cases h
        obtain ⟨_, rfl, rfl⟩ := walkBits_raised hw
        exact .inr (.inl ⟨by simp [hd], _, by simp, rfl⟩)
      · cases h
  · cases h
    rcases illegalCommand_cases .dec (encode (.decBits n data)) s with ⟨h1, h2⟩ | ⟨h1, h2⟩
    · exact .inl ⟨h1, h2⟩
    · exact .inr (.inl ⟨h1, _, by simp, h2⟩)

/-- What DEC_END can do (R112). -/
theorem execDecEnd_next {s t : State} (h : execDecEnd s = .next t) :
    (s.dec.state = .error ∧ t = s) ∨
      (s.dec.state ≠ .error ∧ ∃ code, code ≠ .none ∧ t = raiseErr .dec code (encode .decEnd) s) ∨
      (s.dec.state = .active ∧ (s.treeValid = false ∨ (s.dec.seen = true ∧ s.dec.ptr = s.root)) ∧
        t = s.setDec { s.dec with state := .idle }) := by
  unfold execDecEnd at h
  split at h
  · rename_i hd
    cases h
    exact .inl ⟨hd, rfl⟩
  · rename_i hd
    cases h
    exact .inr (.inl ⟨by simp [hd], _, by simp, rfl⟩)
  · rename_i hd
    split at h
    · cases h
      exact .inr (.inl ⟨by simp [hd], _, by simp, rfl⟩)
    · rename_i h1
      split at h
      · cases h
        exact .inr (.inl ⟨by simp [hd], _, by simp, rfl⟩)
      · rename_i h2
        cases h
        refine .inr (.inr ⟨hd, ?_, rfl⟩)
        cases hv : s.treeValid with
        | false => exact .inl rfl
        | true =>
          right
          simpa [hv] using And.intro h1 h2

/-- A command that answers a next state has written its own unit and nothing else (R125). -/
theorem exec_next {i : Instr} {s t : State} (h : exec i s = .next t) :
    (i.unit = none ∧ t = s) ∨ (i.unit = some .enc ∧ ∃ e, t = s.setEnc e) ∨
      (i.unit = some .dec ∧ ∃ d, t = s.setDec d) := by
  cases i with
  | nop =>
    cases h
    exact .inl ⟨rfl, rfl⟩
  | encStart =>
    refine .inr (.inl ⟨rfl, ?_⟩)
    simp only [exec, execEncStart] at h
    split at h <;> cases h
    exacts [⟨s.enc, rfl⟩, ⟨_, rfl⟩, ⟨_, rfl⟩]
  | encSym sym =>
    refine .inr (.inl ⟨rfl, ?_⟩)
    rcases execEncSym_next h with ⟨_, rfl⟩ | ⟨_, c, _, rfl, _⟩ | ⟨_, l, c, _, rfl⟩
    exacts [⟨_, rfl⟩, ⟨_, rfl⟩, ⟨_, rfl⟩]
  | encFlush =>
    refine .inr (.inl ⟨rfl, ?_⟩)
    simp only [exec, execEncFlush] at h
    split at h <;> cases h
    exacts [⟨s.enc, rfl⟩, ⟨_, rfl⟩, ⟨_, rfl⟩]
  | encAbort =>
    refine .inr (.inl ⟨rfl, ?_⟩)
    simp only [exec, execEncAbort] at h
    split at h <;> cases h
    exacts [⟨s.enc, rfl⟩, ⟨_, rfl⟩, ⟨_, rfl⟩]
  | encReset =>
    cases h
    exact .inr (.inl ⟨rfl, _, rfl⟩)
  | decStart =>
    refine .inr (.inr ⟨rfl, ?_⟩)
    simp only [exec, execDecStart] at h
    split at h <;> cases h
    exacts [⟨s.dec, rfl⟩, ⟨_, rfl⟩, ⟨_, rfl⟩]
  | decBits n d =>
    refine .inr (.inr ⟨rfl, ?_⟩)
    rcases execDecBits_next h with ⟨_, rfl⟩ | ⟨_, c, _, rfl⟩ | ⟨_, _, c, _, rfl⟩
    exacts [⟨_, rfl⟩, ⟨_, rfl⟩, ⟨_, rfl⟩]
  | decEnd =>
    refine .inr (.inr ⟨rfl, ?_⟩)
    rcases execDecEnd_next h with ⟨_, rfl⟩ | ⟨_, c, _, rfl⟩ | ⟨_, _, rfl⟩
    exacts [⟨_, rfl⟩, ⟨_, rfl⟩, ⟨_, rfl⟩]
  | decAbort =>
    refine .inr (.inr ⟨rfl, ?_⟩)
    simp only [exec, execDecAbort] at h
    split at h <;> cases h
    exacts [⟨s.dec, rfl⟩, ⟨_, rfl⟩, ⟨_, rfl⟩]
  | decReset =>
    cases h
    exact .inr (.inr ⟨rfl, _, rfl⟩)

end Sys2Proof.Machine
end

