-- ==== Sys2Proof/Laws/Host.lean ====
section
/-! SUPPORT. What a step of host software beside a block, and a step of a system, can do. -/

namespace Sys2Proof.Machine

/-- The engine's step of a bench is the block's engine step. -/
theorem Bench.step_engine {b : Bench} {s : State} (hb : b.block.cfg.InBounds)
    (h : engineStep { b.block with turns := [] } = .next s) : b.step .engine = .next { b with block := s } := by
  simp only [Bench.step, step_of_engine (s := { b.block with turns := [.engine] }) hb rfl, h]

/-- The host's step of a bench is its next access and the answer to it. -/
theorem Bench.step_host {b : Bench} {a : Access} (hb : b.block.cfg.InBounds) (ha : b.host.access = some a) :
    b.step .host = .next
      { host := b.host.answered (hostAccess a { b.block with turns := [] }).answer
        block := hostAccess a { b.block with turns := [] } } := by
  simp only [Bench.step, ha, step_of_host (s := { b.block with turns := [.host a] }) hb rfl]

/-- Host software that has finished makes no step. -/
theorem Bench.step_host_finished {b : Bench} (ha : b.host.access = none) : b.step .host = .next b := by
  simp only [Bench.step, ha]

/-- What every step of a bench keeps, a run under any schedule keeps, and it does not stop if no step does. -/
theorem Bench.run_of_invariant {P : Bench → Prop} (h : ∀ b who, P b → ∃ b', b.step who = .next b' ∧ P b')
    (schedule : List Agent) (b : Bench) (hb : P b) : ∃ b', Bench.run schedule b = .next b' ∧ P b' := by
  induction schedule generalizing b with
  | nil => exact ⟨b, rfl, hb⟩
  | cons who rest ih =>
    obtain ⟨b', h1, h2⟩ := h b who hb
    simp only [Bench.run, h1]
    exact ih b' h2

/-- Everything a step of a system that answers a next state can be. -/
theorem System.stepAt_next {y y' : System} {k : Nat} (h : y.stepAt k = .next y') :
    y.WellFormed ∧
      ((y.insts[k]? = none ∧ y' = y) ∨
        ∃ s s', y.insts[k]? = some s ∧ step s = .next s' ∧ y' = { insts := y.insts.set k s' }) := by
  unfold System.stepAt at h
  split at h
  · rename_i hw
    refine ⟨hw, ?_⟩
    split at h
    · rename_i hk
      cases h
      exact .inl ⟨hk, rfl⟩
    · rename_i s hk
      split at h <;> cases h
      rename_i s' hs
      exact .inr ⟨s, s', hk, hs, rfl⟩
  · cases h

end Sys2Proof.Machine
end

