-- ==== Sys2Proof/Laws/Invariant.lean ====
section
/-! SUPPORT. What keeps the invariant, one lemma per kind of change of the state. -/

namespace Sys2Proof.Machine

/-- The RAMs after reset. -/
theorem Memory.inv_nil : Memory.Inv [] :=
  ⟨⟨List.Pairwise.nil, by simp⟩, by simp, fun _ _ _ _ => rfl⟩

/-- A RAM word whose lanes hold only stored bits keeps the RAMs' invariant. -/
theorem Memory.Inv.writeWord {m : Memory} (h : m.Inv) (a : Nat) (w : Word)
    (hb : ∀ k, k < 4 → (byteLane w k &&& storedBits (a+k) = byteLane w k))
    (hs : ∀ k, k < 4 → storedBits (a+k) ≠ 0 ∨ Memory.unlisted (a+k) = some (byteLane w k))
    (hal : a % 4 = 0)
    (hu : PlainWordOffset a → ∀ k, k < 4 → Memory.unlisted (a + k) ≠ some (byteLane w k)) : (m.writeWord a w).Inv := by
  refine ⟨Memory.wf_writeWord h.wf a w, ?_, ?_⟩
  · intro c hc
    unfold Memory.writeWord at hc
    have fin : ∀ k, k < 4 → c = (a + k, byteLane w k) ∧ Memory.unlisted (a + k) ≠ some (byteLane w k) →
        c.2 &&& storedBits c.1 = c.2 ∧ storedBits c.1 ≠ 0 := by
      intro k hk ⟨h1, h2⟩
      subst h1
      exact ⟨hb k hk, (hs k hk).resolve_right h2⟩
    rcases Memory.mem_write hc with h1 | hc
    · exact fin 3 (by omega) h1
    rcases Memory.mem_write hc with h1 | hc
    · exact fin 2 (by omega) h1
    rcases Memory.mem_write hc with h1 | hc
    · exact fin 1 (by omega) h1
    rcases Memory.mem_write hc with h1 | hc
    · exact fin 0 (by omega) h1
    exact h.stored c hc
  · intro x hx k hk
    by_cases hxa : x = a
    · subst hxa
      have f : ∀ k, k < 4 → ((m.writeWord x w).find (x+k)).isSome = true := by
        intro k hk
        have h1 := hu hx k hk
        have h2 : (m.writeWord x w).read (x+k) = some (byteLane w k) := by
          rw [Memory.read_writeWord]; interval_cases k <;> simp
        have h3 : Memory.unlisted (x+k) = none := by
          unfold Memory.unlisted; rw [if_neg]; obtain ⟨_, h⟩ := hx; omega
        unfold Memory.read at h2
        split at h2
        · rename_i hf; simp [hf]
        · rw [h3] at h2; cases h2
      rw [f k hk]; have := f 0 (by omega); rw [Nat.add_zero] at this; rw [this]
    · have f : ∀ k, k < 4 → (m.writeWord a w).find (x+k) = m.find (x+k) := by
        intro k hk
        obtain ⟨hx4, _⟩ := hx
        unfold Memory.writeWord
        rw [Memory.find_write_of_ne _ _ _ _ (by omega), Memory.find_write_of_ne _ _ _ _ (by omega),
          Memory.find_write_of_ne _ _ _ _ (by omega), Memory.find_write_of_ne _ _ _ _ (by omega)]
      have f0 := f 0 (by omega)
      rw [Nat.add_zero] at f0
      rw [f k hk, f0]; exact h.whole x hx k hk

theorem byteLane_and (w m : Word) (k : Nat) : byteLane (w &&& m) k = byteLane w k &&& byteLane m k := by
  simp [byteLane, BitVec.extractLsb'_and]

/-- A stored NODE_RAM word keeps the RAMs' invariant (R40). -/
theorem Memory.Inv.writeNode {m : Memory} (h : m.Inv) (i : NodeIx) (v : Word) :
    (m.writeWord (nodeOffset i) (v &&& nodeMask)).Inv := by
  have hi := i.isLt
  have e : ∀ k, k < 4 → storedBits (nodeOffset i + k) = byteLane nodeMask k := by
    intro k hk
    unfold storedBits nodeOffset
    rw [if_pos (by omega)]
    interval_cases k
    · rw [if_neg (by omega), if_neg (by omega)]; decide
    · rw [if_pos (by omega)]; decide
    · rw [if_neg (by omega), if_neg (by omega)]; decide
    · rw [if_neg (by omega), if_pos (by omega)]; decide
  apply Memory.Inv.writeWord h
  · intro k hk; rw [e k hk, byteLane_and, BitVec.and_assoc, BitVec.and_self]
  · intro k hk; left; rw [e k hk]; interval_cases k <;> decide
  · unfold nodeOffset; omega
  · intro hp k hk; unfold Memory.unlisted; rw [if_neg]; simp; unfold nodeOffset; omega

/-- A stored CODE_RAM header keeps it (R42). -/
theorem Memory.Inv.writeHeader {m : Memory} (h : m.Inv) (i : Byte) (v : Word) :
    (m.writeWord (codeOffset i 0) (v &&& headerMask)).Inv := by
  have hi := i.isLt
  have e : ∀ k, k < 4 → storedBits (codeOffset i 0 + k) = byteLane headerMask k := by
    intro k hk
    unfold storedBits codeOffset
    rw [if_neg (by omega), if_pos (by omega)]
    interval_cases k
    · rw [if_neg (by omega), if_neg (by omega), if_pos (by omega)]; decide
    · rw [if_pos (by omega)]; decide
    · rw [if_pos (by omega)]; decide
    · rw [if_neg (by omega), if_pos (by omega)]; decide
  apply Memory.Inv.writeWord h
  · intro k hk; rw [e k hk, byteLane_and, BitVec.and_assoc, BitVec.and_self]
  · intro k hk; rw [e k hk]
    interval_cases k
    · left; decide
    · right
      rw [byteLane_and, show byteLane headerMask 1 = 0 by decide]
      unfold Memory.unlisted codeOffset
      rw [if_pos (by omega)]
      simp
    · right
      rw [byteLane_and, show byteLane headerMask 2 = 0 by decide]
      unfold Memory.unlisted codeOffset
      rw [if_pos (by omega)]
      simp
    · left; decide
  · unfold codeOffset; omega
  · intro hp k hk; exfalso; unfold codeOffset at hp; obtain ⟨_, hp⟩ := hp; omega

/-- A stored code word keeps it (R42). -/
theorem Memory.Inv.writeCode {m : Memory} (h : m.Inv) (i : Byte) (v : Word) (j : Nat) (hj : 1 ≤ j) (hj' : j ≤ 8) :
    (m.writeWord (codeOffset i j) v).Inv := by
  have hi := i.isLt
  have e : ∀ k, k < 4 → storedBits (codeOffset i j + k) = 0xff := by
    intro k hk
    unfold storedBits codeOffset
    rw [if_neg (by omega), if_pos (by omega)]
    rw [if_neg (by omega), if_neg (by omega), if_pos (by omega)]
  apply Memory.Inv.writeWord h
  · intro k hk; rw [e k hk]; exact BitVec.and_allOnes
  · intro k hk; rw [e k hk]; left; decide
  · unfold codeOffset; omega
  · intro hp k hk; unfold Memory.unlisted codeOffset; rw [if_neg]; simp; omega

theorem target_codeWord_range {a : BitVec 16} {sym k} (h : target a = .codeWord sym k) : 1 ≤ k ∧ k ≤ 8 := by
  simp only [target] at h
  split at h
  · unfold targetRegister at h; split at h <;> cases h
  split at h
  · cases h
  split at h
  · cases h
  split at h
  · unfold targetCode at h; dsimp at h
    split at h
    · cases h
    split at h
    · cases h; omega
    · cases h
  · cases h

/-- The decoder's part of the invariant reads the configuration, the decoder, ROOT, TREE_VALID and NODE_RAM alone. -/
theorem DecUnit.Inv.congr {s s' : State} {d : DecUnit} (h : d.Inv s) (hc : s'.cfg = s.cfg) (hr : s'.root = s.root)
    (hv : s'.treeValid = s.treeValid) (hm : ∀ i, nodeRead s'.mem i = nodeRead s.mem i) : d.Inv s' := by
  refine ⟨h.error, h.errCmd, ?_, ?_, ?_⟩
  · rw [hr]; exact h.unseen
  · rw [hr, hv, hm]; exact h.pointer
  · rw [hc]; exact h.level

theorem State.Inv.setBus {s : State} (h : s.Inv) (b : Option Response) : ({ s with bus := b } : State).Inv :=
  ⟨h.config, h.memory, h.enc, h.dec.congr rfl rfl rfl (fun _ => rfl), h.queue⟩

theorem State.Inv.setFreeIdx {s : State} (h : s.Inv) (n : Nat) : ({ s with freeIdx := n } : State).Inv :=
  ⟨h.config, h.memory, h.enc, h.dec.congr rfl rfl rfl (fun _ => rfl), h.queue⟩

theorem State.Inv.setTurns {s : State} (h : s.Inv) (ts : List Turn) : ({ s with turns := ts } : State).Inv :=
  ⟨h.config, h.memory, h.enc, h.dec.congr rfl rfl rfl (fun _ => rfl), h.queue⟩

theorem State.Inv.setFlags {s : State} (h : s.Inv) (drop lost : Bool) :
    ({ s with cfgDrop := drop, cmdLost := lost } : State).Inv :=
  ⟨h.config, h.memory, h.enc, h.dec.congr rfl rfl rfl (fun _ => rfl), h.queue⟩

theorem State.Inv.setCmdq {s : State} (h : s.Inv) (q : List Word) (hq : q.length ≤ s.cfg.cmdqDepth) :
    ({ s with cmdq := q } : State).Inv :=
  ⟨h.config, h.memory, h.enc, h.dec.congr rfl rfl rfl (fun _ => rfl), hq⟩

/-- Outside a decoder stream the decoder's tables may change (R60). -/
theorem State.Inv.setTables {s : State} (h : s.Inv) (hd : s.dec.state ≠ .active) (valid : Bool) (root : NodeIx)
    (m : Memory) (hm : m.Inv) : ({ s with treeValid := valid, root := root, mem := m } : State).Inv :=
  ⟨h.config, hm, h.enc,
    ⟨h.dec.error, h.dec.errCmd, fun ha => absurd ha hd, fun ha => absurd ha hd, h.dec.level⟩, h.queue⟩

theorem nodeRead_writeWord_code {m : Memory} {i : NodeIx} {a : Nat} {w : Word} (h : 0x8000 ≤ a) :
    nodeRead (m.writeWord a w) i = nodeRead m i := by
  have := i.isLt
  unfold nodeRead tableWord
  rw [Memory.readWord_writeWord_of_disjoint _ _ _ _ (by unfold nodeOffset; omega)]

/-- A write to CODE_RAM leaves the decoder's tables alone. -/
theorem State.Inv.setCodeMem {s : State} (h : s.Inv) (a : Nat) (w : Word) (ha : 0x8000 ≤ a)
    (hm : (s.mem.writeWord a w).Inv) : ({ s with mem := s.mem.writeWord a w } : State).Inv :=
  ⟨h.config, hm, h.enc, h.dec.congr rfl rfl rfl (fun _ => nodeRead_writeWord_code ha), h.queue⟩

theorem State.Inv.setEnc {s : State} (h : s.Inv) {e : EncUnit} (he : e.Inv s.cfg) : (s.setEnc e).Inv :=
  ⟨h.config, h.memory, he, ⟨h.dec.error, h.dec.errCmd, h.dec.unseen, h.dec.pointer, h.dec.level⟩, h.queue⟩

theorem State.Inv.setDec {s : State} (h : s.Inv) {e : DecUnit} (he : e.Inv s) : (s.setDec e).Inv :=
  ⟨h.config, h.memory, h.enc, ⟨he.error, he.errCmd, he.unseen, he.pointer, he.level⟩, h.queue⟩

theorem State.Inv.raiseErr {s : State} (h : s.Inv) (u code w) (hc : code ≠ .none) :
    (raiseErr u code w s).Inv := by
  cases u
  · rw [raiseErr_enc]; apply State.Inv.setEnc h
    have := h.enc
    exact ⟨by simp [hc], by simp [hc], this.acc, by simp, this.level⟩
  · rw [raiseErr_dec]; apply State.Inv.setDec h
    have := h.dec
    exact ⟨by simp [hc], by simp [hc], by simp, by simp, this.level⟩

end Sys2Proof.Machine
end

