-- ==== Sys2Proof/Laws/PerInstr.lean ====
section
/-! SUPPORT. Statements about every command, one lemma per constructor. -/

namespace Sys2Proof.Laws.OpcodeField

/-- The value of OP in the opcode map (R73). -/
def opcode : Instr → Nat
  | .nop _ => 0x0
  | .encStart => 0x1
  | .encSym _ => 0x2
  | .encFlush => 0x3
  | .encAbort => 0x4
  | .encReset _ => 0x5
  | .decStart => 0x9
  | .decBits _ _ => 0xA
  | .decEnd => 0xB
  | .decAbort => 0xC
  | .decReset _ => 0xD

/-- R71, R72, R73: the word of a command carries its opcode in bits [31:28], and bit [31] is its unit, except for NOP. -/
def Statement (i : Instr) : Prop :=
  (encode i).toNat / 2 ^ 28 = opcode i ∧ ∀ u, i.unit = some u → u = unitOf (encode i)

/-- OR-ing a value of at most 28 bits under an opcode keeps the opcode. -/
theorem or_low (c : Word) (k : Nat) (n : Nat) (x : BitVec n) (h : n ≤ 28) (h0 : c.toNat / 2 ^ 28 = k) :
    (c ||| x.setWidth 32).toNat / 2 ^ 28 = k := by
  have hx : x.toNat < 2 ^ 28 := lt_of_lt_of_le x.isLt (Nat.pow_le_pow_right (by omega) h)
  have hx' : (x.setWidth 32).toNat / 2 ^ 28 = 0 := by
    rw [BitVec.toNat_setWidth, Nat.mod_eq_of_lt (by omega)]
    exact Nat.div_eq_of_lt hx
  rw [BitVec.toNat_or, ← Nat.shiftRight_eq_div_pow, Nat.shiftRight_or_distrib, Nat.shiftRight_eq_div_pow,
    Nat.shiftRight_eq_div_pow, h0, hx', Nat.or_zero]

theorem nop (x : BitVec 28) : Statement (.nop x) := by
  refine ⟨?_, by simp [Instr.unit]⟩
  have := or_low 0#32 0 28 x (by omega) (by decide)
  rwa [BitVec.zero_or] at this

theorem encStart : Statement .encStart := by
  refine ⟨by decide, ?_⟩
  rintro u ⟨⟩; decide

theorem encSym (sym : Byte) : Statement (.encSym sym) := by
  refine ⟨or_low _ 0x2 8 sym (by omega) (by decide), ?_⟩
  rintro u ⟨⟩
  simp [unitOf, encode]

theorem encFlush : Statement .encFlush := by
  refine ⟨by decide, ?_⟩
  rintro u ⟨⟩; decide

theorem encAbort : Statement .encAbort := by
  refine ⟨by decide, ?_⟩
  rintro u ⟨⟩; decide

theorem encReset (x : BitVec 28) : Statement (.encReset x) := by
  refine ⟨or_low _ 0x5 28 x (by omega) (by decide), ?_⟩
  rintro u ⟨⟩
  simp [unitOf, encode]

theorem decStart : Statement .decStart := by
  refine ⟨by decide, ?_⟩
  rintro u ⟨⟩; decide

theorem decBits (n : BitVec 4) (data : Byte) : Statement (.decBits n data) := by
  refine ⟨or_low _ 0xA 8 data (by omega) ?_, ?_⟩
  · revert n; clear data; decide
  · rintro u ⟨⟩
    simp [unitOf, encode]

theorem decEnd : Statement .decEnd := by
  refine ⟨by decide, ?_⟩
  rintro u ⟨⟩; decide

theorem decAbort : Statement .decAbort := by
  refine ⟨by decide, ?_⟩
  rintro u ⟨⟩; decide

theorem decReset (x : BitVec 28) : Statement (.decReset x) := by
  refine ⟨or_low _ 0xD 28 x (by omega) (by decide), ?_⟩
  rintro u ⟨⟩
  simp [unitOf, encode]

end Sys2Proof.Laws.OpcodeField
end

