-- ==== Sys2Proof/Laws/Tables.lean ====
section
/-! SUPPORT. What the engine's table reads depend on (R52, R125), and where a read of code words stops (R49). -/

namespace Sys2Proof.Machine

/-- A RAM word depends on its four bytes alone. -/
theorem Memory.readWord_congr {m m' : Memory} {a : Nat} (h : ∀ k, k < 4 → m'.read (a + k) = m.read (a + k)) :
    m'.readWord a = m.readWord a := by
  have h0 := h 0 (by omega)
  rw [Nat.add_zero] at h0
  unfold Memory.readWord
  rw [h 3 (by omega), h 2 (by omega), h 1 (by omega), h0]

/-- NodeRead depends on the bytes of NODE_RAM alone. -/
theorem nodeRead_congr {m m' : Memory} (h : ∀ a, 0x4000 ≤ a → a < 0x4800 → m'.read a = m.read a) (i : NodeIx) :
    nodeRead m' i = nodeRead m i := by
  have := i.isLt
  unfold nodeRead tableWord
  rw [Memory.readWord_congr fun j hj => h _ (by unfold nodeOffset; omega) (by unfold nodeOffset; omega)]

/-- CodeRead depends on the bytes of CODE_RAM alone. -/
theorem codeRead_congr {m m' : Memory} (h : ∀ a, 0x8000 ≤ a → a < 0xC000 → m'.read a = m.read a) (sym : Byte) :
    codeRead m' sym = codeRead m sym := by
  have := sym.isLt
  have hword : ∀ k, k ≤ 8 → m'.readWord (codeOffset sym k) = m.readWord (codeOffset sym k) := fun k hk =>
    Memory.readWord_congr fun j hj => h _ (by unfold codeOffset; omega) (by unfold codeOffset; omega)
  have hwords : ∀ k, k ≤ 8 → codeWords m' sym k = codeWords m sym k := by
    intro k hk
    induction k with
    | zero => rfl
    | succ k ih => simp only [codeWords, ih (by omega), tableWord, hword (k + 1) hk]
  have hvalid : codeValid m' sym = codeValid m sym := by
    unfold codeValid
    rw [h _ (by unfold codeOffset; omega) (by unfold codeOffset; omega)]
  have hlen : codeLen m' sym = codeLen m sym := by
    unfold codeLen
    rw [h _ (by unfold codeOffset; omega) (by unfold codeOffset; omega)]
  unfold codeRead
  rw [hvalid, hlen]
  split
  · split
    · rfl
    · rename_i len _
      rw [hwords _ (by have := len.isLt; unfold codeWordCount; omega)]
  · rfl

/-- A walk depends on the node words, ROOT and TREE_VALID alone. -/
theorem walkBits_congr {s s' : State} (h : ∀ i, nodeRead s'.mem i = nodeRead s.mem i) (hr : s'.root = s.root)
    (hv : s'.treeValid = s.treeValid) (bits : List Bool) (d : DecUnit) : walkBits s' bits d = walkBits s bits d := by
  induction bits generalizing d with
  | nil => rfl
  | cons b bits ih =>
    have hb : walkBit s' b d = walkBit s b d := by simp only [walkBit, h, hr, hv]
    simp only [walkBits, hb]
    split <;> simp only [ih]

/-- A read of code words stops at the first unwritten one. -/
theorem codeWords_of_unwritten {m : Memory} {sym : Byte} {k n : Nat} (h1 : 1 ≤ k) (h2 : k ≤ n)
    (hb : ∀ j, 1 ≤ j → j < k → m.readWord (codeOffset sym j) ≠ none) (h : m.readWord (codeOffset sym k) = none) :
    codeWords m sym n = .error (.unwrittenTableWord (codeOffset sym k)) := by
  have before : ∀ j, j < k → ∃ w, codeWords m sym j = .ok w := by
    intro j hj
    induction j with
    | zero => exact ⟨_, rfl⟩
    | succ j ih =>
      obtain ⟨w, hw⟩ := ih (by omega)
      obtain ⟨v, hv⟩ := Option.ne_none_iff_exists'.1 (hb (j + 1) (by omega) hj)
      exact ⟨w ||| (v.setWidth 256 <<< (32 * j)), by simp only [codeWords, hw, tableWord, hv]⟩
  induction n with
  | zero => omega
  | succ n ih =>
    by_cases hk : k = n + 1
    · subst hk
      obtain ⟨w, hw⟩ := before n (by omega)
      simp only [codeWords, hw, tableWord, h]
    · simp only [codeWords, ih (by omega)]

end Sys2Proof.Machine
end

