-- ==== Sys2Proof/Tests/Slice0.lean ====
section
/-! SUPPORT. Tests: the smoke test of WellFormed, words written out from the encoding tables, single steps with the expected
values of spec/95_test_vectors.md, and for every statement with hypotheses a witness that meets them. -/

namespace Sys2Proof.Tests

open Sys2Proof Sys2Proof.Machine Sys2Proof.Reference

/-! ### WellFormed -/

theorem test_wellFormed_decBits_zero : ¬ (Instr.decBits 0 0xFF).WellFormed := by decide

theorem test_wellFormed_decBits_nine : ¬ (Instr.decBits 9 0xFF).WellFormed := by decide

theorem test_wellFormed_decBits_range : (Instr.decBits 1 0).WellFormed ∧ (Instr.decBits 8 0).WellFormed := by decide

/-! ### Decoding: words written out bit by bit, OP first (R71, R73) -/

theorem test_decode_nop : decode 0b0000_0000101010111100110111101111#32 = .legal (.nop 0x0ABCDEF#28) := by decide

theorem test_decode_encStart : decode 0b0001_0000000000000000000000000000#32 = .legal .encStart := by decide

theorem test_decode_encSym : decode 0b0010_00000000000000000000_01100010#32 = .legal (.encSym 0x62) := by decide

theorem test_decode_encFlush : decode 0b0011_0000000000000000000000000000#32 = .legal .encFlush := by decide

theorem test_decode_encAbort : decode 0b0100_0000000000000000000000000000#32 = .legal .encAbort := by decide

theorem test_decode_encReset : decode 0b0101_1010101111001101111011110000#32 = .legal (.encReset 0xABCDEF0#28) := by decide

theorem test_decode_decStart : decode 0b1001_0000000000000000000000000000#32 = .legal .decStart := by decide

theorem test_decode_decBits : decode 0b1010_0000000000000000_0011_11000000#32 = .legal (.decBits 3 0xC0) := by decide

theorem test_decode_decEnd : decode 0b1011_0000000000000000000000000000#32 = .legal .decEnd := by decide

theorem test_decode_decAbort : decode 0b1100_0000000000000000000000000000#32 = .legal .decAbort := by decide

theorem test_decode_decReset : decode 0b1101_0000000000000000000000000001#32 = .legal (.decReset 1) := by decide

/-- The words of VE13. -/
theorem test_decode_illegal_encoder :
    [0x60000000#32, 0x70000000#32, 0x10000001#32, 0x20000161#32, 0x3000F000#32, 0x40000001#32].map decode =
      [.illegal .enc .reservedOpcode, .illegal .enc .reservedOpcode, .illegal .enc .mustBeZero, .illegal .enc .mustBeZero,
        .illegal .enc .mustBeZero, .illegal .enc .mustBeZero] := by decide

/-- The words of VD14. -/
theorem test_decode_illegal_decoder :
    [0xA0000000#32, 0xA0000900#32, 0xA0001180#32, 0x80000000#32, 0xE0000000#32, 0xF0000000#32, 0x90000001#32].map decode =
      [.illegal .dec .bitCount, .illegal .dec .bitCount, .illegal .dec .mustBeZero, .illegal .dec .reservedOpcode,
        .illegal .dec .reservedOpcode, .illegal .dec .reservedOpcode, .illegal .dec .mustBeZero] := by decide

/-- The canonical word of a table row. -/
theorem test_decodeTableWord : decodeTableWord 32 0xA0000180 = some (.decBits 1 0x80) := by decide

/-! ### Small states -/

/-- RAM words written one after another into empty RAMs. -/
def load (ws : List (Nat × Word)) : Memory := ws.foldl (fun m w => m.writeWord w.1 w.2) []

/-- The NODE_RAM and CODE_RAM words of V1. -/
def v1Mem : Memory :=
  load [(0x4000, 0x00020001#32), (0x4004, 0x80000061#32), (0x4008, 0x00040003#32), (0x400C, 0x80000063#32),
    (0x4010, 0x80000062#32), (0x9840, 0x80000001#32), (0x9844, 0#32), (0x9880, 0x80000002#32), (0x9884, 3#32)]

/-- V1 loaded ('c' has no code here). -/
def v1 : State := { State.reset with treeValid := true, mem := v1Mem }

/-- V1 with both units in a state. -/
def units (st : UnitState) (s : State) : State :=
  { s with enc := { s.enc with state := st }, dec := { s.dec with state := st } }

/-- V1 with both units ACTIVE. -/
def v1Open : State := units .active v1

/-- V1 with both units in ERROR, after SequenceErrors. -/
def v1Error : State :=
  { v1 with enc := { v1.enc with state := .error, err := .sequenceError, errCmd := 0x30000000#32 }
            dec := { v1.dec with state := .error, err := .sequenceError, errCmd := 0xB0000000#32 } }

/-- The encoder of V1's open stream with pending bits. -/
def v1Pending (n : BitVec 3) (acc : BitVec 7) : State := { v1Open with enc := { v1Open.enc with acc := acc, accN := n } }

/-- A single leaf 'x' at node 0 (VD9). -/
def leafOpen : State := { v1Open with mem := load [(0x4000, 0x80000078#32)] }

/-- The entry 0xFF of VE4: 255 one-bits; seven bits pending, 0b1010101. -/
def longOpen : State :=
  { v1Pending 7 0b1010101 with
    mem := load [(0xBFC0, 0x800000FF#32), (0xBFC4, 0xFFFFFFFF#32), (0xBFC8, 0xFFFFFFFF#32), (0xBFCC, 0xFFFFFFFF#32),
      (0xBFD0, 0xFFFFFFFF#32), (0xBFD4, 0xFFFFFFFF#32), (0xBFD8, 0xFFFFFFFF#32), (0xBFDC, 0xFFFFFFFF#32),
      (0xBFE0, 0x7FFFFFFF#32)] }

/-- A command word in CMDQ, the engine's turn next. -/
def fetching (w : Word) (s : State) : State := { s with cmdq := [w], turns := [.engine] }

/-- The state after a step or a command, if there is one. -/
def after : StepResult → Option State
  | .next s => some s
  | .fault _ => none
  | .refused _ => none

/-- The fault of a step or a command, if there is one. -/
def stopped : StepResult → Option Fault
  | .next _ => none
  | .fault f => some f
  | .refused _ => none

theorem next_of_after {r : StepResult} {t : State} (h : after r = some t) : r = .next t := by
  cases r <;> simp_all [after]

theorem fault_of_stopped {r : StepResult} {f : Fault} (h : stopped r = some f) : r = .fault f := by
  cases r <;> simp_all [stopped]

/-! ### Single steps, at most two a command -/

/-- VC1. -/
theorem test_nop : after (step (fetching 0x0ABCDEF0#32 v1Error)) = some v1Error := by decide

/-- VE1. -/
theorem test_encStart : (after (step (fetching 0x10000000#32 v1))).map statusWord = some 0x00000111#32 := by decide

/-- VE2, second 'b': five bits pending become seven. -/
theorem test_encSym_pending :
    (after (exec (.encSym 0x62) (v1Pending 5 0b0000011))).map (fun s => (s.enc.acc, s.enc.accN, s.enc.out)) =
      some (0b0001111, 7, []) := by decide

/-- VE4: LEN = 255 with seven bits pending emits 32 bytes and leaves six ones. -/
theorem test_encSym_longest :
    (after (exec (.encSym 0xFF) longOpen)).map (fun s => (s.enc.acc, s.enc.accN, s.enc.bitcnt, s.enc.out)) =
      some (0b0111111, 6, 255, 0xAB :: List.replicate 31 0xFF) := by decide +kernel

/-- VE4: six pending ones leave as 0xFC. -/
theorem test_encFlush_padded :
    (after (exec .encFlush (v1Pending 6 0b0111111))).map (fun s => (s.enc.out, s.enc.accN, s.enc.state)) =
      some ([0xFC], 0, .idle) := by decide

/-- VE5. -/
theorem test_encFlush_empty : (after (exec .encFlush v1Open)).map (fun s => s.enc.out) = some [] := by decide

/-- VE12: the pending bit is kept. -/
theorem test_encAbort :
    (after (exec .encAbort (units .active { v1 with enc := { v1.enc with accN := 1 } }))).map
      (fun s => (errWord s, s.enc.errCmd, s.enc.accN)) = some (0x00000001#32, 0x40000000#32, 1) := by decide

/-- VE9, with the FI word 0x5ABCDEF0. -/
theorem test_encReset :
    (after (step (fetching 0x5ABCDEF0#32 v1Error))).map (fun s => (errWord s, s.enc)) =
      some (0x00000060#32, EncUnit.reset) := by decide

/-- VD1. -/
theorem test_decStart : (after (step (fetching 0x90000000#32 v1))).map statusWord = some 0x00000114#32 := by decide

/-- VD2. -/
theorem test_decBits_three :
    (after (exec (.decBits 3 0xC0) v1Open)).map (fun s => (s.dec.out, s.dec.ptr, s.dec.bitcnt, s.dec.symcnt)) =
      some ([0x62, 0x61], 0, 3, 2) := by decide

/-- VD3. -/
theorem test_decBits_eight :
    (after (exec (.decBits 8 0x1F) v1Open)).map (fun s => (s.dec.out, s.dec.ptr, s.dec.bitcnt, s.dec.symcnt)) =
      some ([0x61, 0x61, 0x61, 0x62, 0x62], 2, 8, 5) := by decide

/-- VD4. -/
theorem test_decEnd_truncated :
    (after (exec .decEnd { v1Open with dec := { v1Open.dec with ptr := 2, seen := true } })).map
      (fun s => (errWord s, s.dec.errCmd, s.dec.ptr)) = some (0x00000030#32, 0xB0000000#32, 2) := by decide

/-- VD8. -/
theorem test_decEnd_empty_against_tree : (after (exec .decEnd v1Open)).map errWord = some 0x00000040#32 := by decide

/-- VD12. -/
theorem test_decAbort :
    (after (exec .decAbort v1)).map (fun s => (errWord s, s.dec.errCmd, statusWord s)) =
      some (0x00000010#32, 0xC0000000#32, 0x00000118#32) := by decide

/-- VD5: the pointer goes back to ROOT, here 4. -/
theorem test_decReset :
    (after (step (fetching 0xD0000000#32 { v1Error with root := 4 }))).map (fun s => (s.dec.state, s.dec.err, s.dec.ptr)) =
      some (.idle, .none, 4) := by decide

/-- VE13 and VD14: an illegal word touches its unit only. -/
theorem test_illegal_words :
    (after (step (fetching 0x20000161#32 v1))).map (fun s => (errWord s, s.enc.errCmd)) =
      some (0x00000007#32, 0x20000161#32) ∧
    (after (step (fetching 0xA0000000#32 v1))).map (fun s => (errWord s, s.dec.errCmd)) =
      some (0x00000070#32, 0xA0000000#32) := by decide

/-- VC3: the third ENC_SYM needs 32 entries; with one entry free it is held, with 32 it is not. -/
theorem test_hold :
    heldInstr (.encSym 0xFF) { longOpen with enc := { longOpen.enc with accN := 6, out := List.replicate 63 0 } } = true ∧
    heldInstr (.encSym 0xFF) { longOpen with enc := { longOpen.enc with accN := 6, out := List.replicate 32 0 } } = false := by
  decide +kernel

/-- VE3: the fields of STATUS with seven bits pending; V2: STATUS and PARAMS after reset. -/
theorem test_status_views :
    statusWord { v1Pending 7 0b1010101 with dec := DecUnit.reset } = 0x000ABD11#32 ∧
    statusWord State.reset = 0x00000110#32 ∧ paramsWord State.reset.cfg = 0x08104010#32 := by decide

/-- VC4: the 17th command is lost. -/
theorem test_cmd_lost :
    statusWord (hostAccess (memWrite 0x020 0x10000000#32) { State.reset with cmdq := List.replicate 16 0 }) =
      0x00000160#32 := by decide

/-- VC5: the header of 'a' is kept and CFG_DROP is set. -/
theorem test_cfg_drop :
    (hostAccess (memWrite 0x9840 0) (units .active v1)).mem = v1Mem ∧
    (hostAccess (memWrite 0x9840 0) (units .active v1)).cfgDrop = true := by decide

/-- L1.1 and V1: the tree's words and the codes of "aaabbc". -/
theorem test_build_aaabbc :
    (build [(0x61, 3), (0x62, 2), (0x63, 1)]).map (fun t => treeWords t 0) =
      some [0x00020001#32, 0x80000061#32, 0x00040003#32, 0x80000063#32, 0x80000062#32] ∧
    derive (build [(0x61, 3), (0x62, 2), (0x63, 1)]) =
      [(0x61, [false]), (0x63, [true, false]), (0x62, [true, true])] := by decide

/-- R93: steps (1) and (5) of a load: an ACTIVE unit keeps the loader at step (1), CFG_DROP is cleared, and a CFG_DROP at the
end sends it back. -/
theorem test_loader :
    ((loader none).answered 0x00000111#32).phase = .ready ∧ ((loader none).answered 0x00000190#32).phase = .clearDrop ∧
    ({ loader none with phase := .writing [] } : Loader).answered 0x00000190#32 = loader none ∧
    (({ loader none with phase := .writing [] } : Loader).answered 0x00000110#32).access = none := by decide +kernel

/-- R94, R96: a unit that is not IDLE stops the driver before its first command; an upstream input that fails after one symbol
makes the host write ENC_ABORT. -/
theorem test_driver :
    (({ encodeDriver [0x61] with phase := .requireStatus } : Driver).answered 0x00000112#32).phase = .done .notReady ∧
    ((encodeDriver [0x61, 0x62]).upstreamFails 2).cmds = [.encStart, .encSym 0x61, .encAbort] ∧
    ((decodeDriver [0x1F] 8).upstreamFails 0).cmds = [.decAbort] := by decide

/-- P1: the reads 0x8000001F, 0x80000000 and 0 of `DRAIN_ENC -> B` give B = [0x1F, 0x00] and end it. -/
theorem test_drain :
    (((HostProgram.start [.drainEnc "B"]).answered 0x8000001F#32).answered 0x80000000#32).answered 0 =
      { prog := [], reads := [], lists := [("B", [0x1F, 0x00])] } := by decide

/-- The word of an assembled line, if the line is a command. -/
def lineWord (line : List Char) : Option Word :=
  match Assembler.assembleLine line with
  | .ok (some i) => some (encode i)
  | .ok none => none
  | .error _ => none

/-- R80: case, a character literal and a comment; a byte operand out of range. -/
theorem test_assemble :
    lineWord ['e', 'n', 'c', '_', 's', 'Y', 'm', ' ', '\'', 'a', '\'', ' ', ';', 'x'] = some 0x20000061#32 ∧
    lineWord ['E', 'N', 'C', '_', 'S', 'Y', 'M', ' ', '2', '5', '6'] = none := by decide

/-! ### The invariant on the small states -/

theorem v1Mem_inv : v1Mem.Inv :=
  ((((((((Memory.inv_nil.writeNode 0 0x00020001#32).writeNode 1 0x80000061#32).writeNode 2 0x00040003#32).writeNode 3
    0x80000063#32).writeNode 4 0x80000062#32).writeHeader 0x61 0x80000001#32).writeCode 0x61 0#32 1 (by decide)
    (by decide)).writeHeader 0x62 0x80000002#32).writeCode 0x62 3#32 1 (by decide) (by decide)

theorem v1Open_inv : v1Open.Inv :=
  { config := by decide
    memory := v1Mem_inv
    enc := { error := by decide, errCmd := by decide, acc := fun i _ => BitVec.getLsbD_zero, pending := by decide
             level := by decide }
    dec := { error := by decide, errCmd := by decide, unseen := by decide, pointer := fun _ h => absurd rfl h
             level := by decide }
    queue := by decide }

theorem fetching_inv (w : Word) : (fetching w v1Open).Inv :=
  (v1Open_inv.setCmdq [w] (by show 1 ≤ 16; decide)).setTurns [.engine]

/-! ### Witnesses: for every statement with hypotheses, states and operands that meet them, clause by clause -/

theorem witness_DecodeOfEncodeIsTheCommand : (Instr.decBits 1 0).WellFormed ∧ (Instr.decBits 8 0xFF).WellFormed := by decide

theorem witness_EncodeOfDecodeIsTheWord : ∃ w i, decode w = .legal i ∧ i = .decBits 8 0xFF :=
  ⟨0xA00008FF#32, _, by decide, rfl⟩

theorem witness_IllegalWordsAreTheFiveCases :
    (∃ w why, decode w = .illegal .dec why) ∧ ∃ w why, decode w = .illegal .enc why :=
  ⟨⟨0xA0000900#32, .bitCount, by decide⟩, ⟨0x70000000#32, .reservedOpcode, by decide⟩⟩

theorem witness_EngineStepRunsTheDecodedCommand :
    ∃ (s : State) (w : Word) (i : Instr), s.cfg.InBounds ∧ s.cmdq = [w] ∧ decode w = .legal i ∧ heldInstr i s = false ∧
      s.turns = [.engine] ∧ ({ s with turns := [] } : State).turns = [] :=
  ⟨fetching 0xA00003C0#32 v1Open, 0xA00003C0#32, .decBits 3 0xC0, by decide⟩

theorem witness_EngineStepRunsIllegalWords :
    (∃ s : State, s.cfg.InBounds ∧ s.turns = [.engine] ∧ s.cmdq = [0xF0000000#32] ∧ s.unitState .dec = .error) ∧
    (∃ s : State, s.cfg.InBounds ∧ s.turns = [.engine] ∧ s.cmdq = [0x60000000#32] ∧ s.unitState .enc ≠ .error) ∧
    (∃ s : State, s.cfg.InBounds ∧ s.turns = [.engine] ∧ s.cmdq = [0xF0000000#32] ∧ s.unitState .dec ≠ .error) ∧
    decode 0xF0000000#32 = .illegal .dec .reservedOpcode ∧ decode 0x60000000#32 = .illegal .enc .reservedOpcode :=
  ⟨⟨fetching 0xF0000000#32 v1Error, by decide⟩, ⟨fetching 0x60000000#32 v1Open, by decide⟩,
    ⟨fetching 0xF0000000#32 v1, by decide⟩, by decide⟩

theorem witness_EngineWaitsWhenEmptyOrHeld :
    (∃ s : State, s.cfg.InBounds ∧ s.turns = [.engine] ∧ s.cmdq = []) ∧
    ∃ s : State, s.cfg.InBounds ∧ s.turns = [.engine] ∧ s.cmdq = [0xA00003C0#32] ∧
      decode 0xA00003C0#32 = .legal (.decBits 3 0xC0) ∧ heldInstr (.decBits 3 0xC0) s = true :=
  ⟨⟨{ v1 with turns := [.engine] }, by decide⟩,
    ⟨fetching 0xA00003C0#32 { v1Open with dec := { v1Open.dec with out := List.replicate 14 0 } }, by decide⟩⟩

theorem witness_CommandsEmitWhatTheHoldRuleAllows :
    (∃ t, v1Open.Inv ∧ exec (.encSym 0x62) v1Open = .next t ∧ t.enc.state ≠ .error ∧ heldInstr (.encSym 0x62) v1Open = false) ∧
    ∃ t, v1Open.Inv ∧ (Instr.decBits 8 0x1F).WellFormed ∧ exec (.decBits 8 0x1F) v1Open = .next t ∧
      heldInstr (.decBits 8 0x1F) v1Open = false :=
  ⟨⟨_, v1Open_inv, rfl, by decide, by decide⟩, ⟨_, v1Open_inv, by decide, rfl, by decide⟩⟩

theorem witness_EmptyOutputNeverHolds :
    longOpen.cfg.InBounds ∧ longOpen.enc.out = [] ∧ longOpen.dec.out = [] ∧ need (.encSym 0xFF) longOpen = 32 ∧
      need (.decBits 8 0) longOpen = 8 := by decide

theorem witness_CommandsLeaveTheQueueInOrder :
    (∃ t, step (fetching 0xA00003C0#32 v1Open) = .next t ∧ held 0xA00003C0#32 (fetching 0xA00003C0#32 v1Open) = false) ∧
    (∃ t, step { fetching 0xA00003C0#32 v1Open with turns := [] } = .next t) ∧
    ∃ t, step { v1Open with turns := [.host (memWrite 0x020 0#32)] } = .next t :=
  ⟨⟨_, rfl, by decide⟩, ⟨_, rfl⟩, ⟨_, rfl⟩⟩

theorem witness_HostAndResetTurnsTakeTheirStep :
    v1.cfg.InBounds ∧ ({ v1 with turns := [.host (memRead 0x00C)] } : State).turns = [.host (memRead 0x00C)] ∧
      ({ v1 with turns := [.reset none] } : State).turns = [.reset none] := by decide

theorem witness_NopChangesNothing :
    (fetching 0x0FFFFFFF#32 v1Error).cfg.InBounds ∧ (fetching 0x0FFFFFFF#32 v1Error).turns = [.engine] ∧
      (fetching 0x0FFFFFFF#32 v1Error).cmdq = [0x0FFFFFFF#32] ∧ (0x0FFFFFFF#32 : Word).toNat < 2 ^ 28 := by decide

theorem witness_EncStartByUnitState :
    v1.enc.state = .idle ∧ v1Open.enc.state = .active ∧ v1Error.enc.state = .error := by decide

/-- The second state is at the longest code, with ACC_N = 7. -/
theorem witness_EncSymAppendsTheCode :
    ((v1Pending 3 0).enc.state = .active ∧ (v1Pending 3 0).enc.accN.toNat = 3 ∧
      (∀ k, 3 ≤ k → (v1Pending 3 0).enc.acc.getLsbD k = false) ∧
      ∃ code, codeRead (v1Pending 3 0).mem 0x62 = .ok (.present (1 + 1) code)) ∧
    (longOpen.enc.state = .active ∧ longOpen.enc.accN.toNat = 7 ∧ (∀ k, 7 ≤ k → longOpen.enc.acc.getLsbD k = false) ∧
      ∃ code, codeRead longOpen.mem 0xFF = .ok (.present (254 + 1) code)) :=
  ⟨⟨by decide, by decide, fun _ _ => BitVec.getLsbD_zero, _, rfl⟩,
    ⟨by decide, by decide, fun k h => BitVec.getLsbD_of_ge _ k h, _, rfl⟩⟩

theorem witness_EncSymErrorsInOrder :
    v1Error.enc.state = .error ∧ v1.enc.state = .idle ∧
    (v1Open.enc.state = .active ∧ codeValid v1Open.mem 0x64 = false) ∧
    ∃ s : State, s.enc.state = .active ∧ codeValid s.mem 0x65 = true ∧ codeLen s.mem 0x65 = some 0 :=
  ⟨by decide, by decide, by decide, { v1Open with mem := load [(0x9940, 0x80000000#32)] }, by decide⟩

theorem witness_EncFlushPadsAndCloses :
    ((v1Pending 7 0x7F).enc.state = .active ∧ v1Open.enc.state = .active ∧ v1Open.enc.accN = 0) ∧
      v1.enc.state = .idle ∧ v1Error.enc.state = .error := by decide

theorem witness_AbortsRecordInputUnreadable :
    (v1.enc.state ≠ .error ∧ v1Open.enc.state ≠ .error) ∧ v1Error.enc.state = .error ∧
      (v1.dec.state ≠ .error ∧ v1Open.dec.state ≠ .error) ∧ v1Error.dec.state = .error := by decide

theorem witness_EncoderWordsAreDiscardedInError :
    [0x10000000#32, 0x20000061#32, 0x30000000#32, 0x40000000#32, 0x60000000#32, 0x7FFFFFFF#32].all (fun w =>
      (fetching w v1Error).cfg.InBounds ∧ (fetching w v1Error).turns = [.engine] ∧ (fetching w v1Error).cmdq = [w] ∧
        (fetching w v1Error).enc.state = .error ∧ w.getLsbD 31 = false ∧ field w 28 4 ≠ 0 ∧ field w 28 4 ≠ 5) = true := by
  decide

theorem witness_DecStartByUnitState :
    v1.dec.state = .idle ∧ v1Open.dec.state = .active ∧ v1Error.dec.state = .error := by decide

/-- The pointer at ROOT, the pointer at the internal node 2, and the single-leaf tree. -/
theorem witness_DecBitsWalksTheTree :
    (∃ t, treeAt v1Open.mem 3 v1Open.root = some t ∧ v1Open.dec.ptr = v1Open.root) ∧
    (∃ s : State, s.dec.state = .active ∧ s.treeValid = true ∧ ∃ t w l r, treeAt s.mem 3 s.root = some t ∧
      treeAt s.mem 2 s.dec.ptr = some (.internal w l r) ∧ (CodeTree.internal w l r).size < t.size) ∧
    (∃ s w, treeAt leafOpen.mem 1 leafOpen.root = some (.leaf s w) ∧ leafOpen.dec.ptr = leafOpen.root) ∧
    LegalCount 1 ∧ LegalCount 8 ∧ v1Open.dec.state = .active ∧ v1Open.treeValid = true ∧ leafOpen.dec.state = .active ∧
    leafOpen.treeValid = true :=
  ⟨⟨.internal 0 (.leaf 0x61 0) (.internal 0 (.leaf 0x63 0) (.leaf 0x62 0)), by decide, by decide⟩,
    ⟨{ v1Open with dec := { v1Open.dec with ptr := 2 } }, by decide, by decide,
      .internal 0 (.leaf 0x61 0) (.internal 0 (.leaf 0x63 0) (.leaf 0x62 0)), 0, .leaf 0x63 0, .leaf 0x62 0, by decide,
      by decide, by decide⟩,
    ⟨0x78, 0, by decide, by decide⟩, by decide⟩

theorem witness_DecBitsErrorsInOrder :
    LegalCount 1 ∧ LegalCount 8 ∧ v1Error.dec.state = .error ∧ v1.dec.state = .idle ∧
      ∃ s : State, s.dec.state = .active ∧ s.treeValid = false :=
  ⟨by decide, by decide, by decide, by decide, units .active State.reset, by decide⟩

/-- A leaf at ROOT; a leaf below the pointer (bit 0); an internal node below the pointer (bit 1). -/
theorem witness_DecBitsConsumesOneBit :
    (leafOpen.dec.state = .active ∧ leafOpen.treeValid = true ∧
      ∃ r, nodeRead leafOpen.mem leafOpen.root = .ok r ∧ r.getLsbD 31 = true) ∧
    (v1Open.dec.state = .active ∧ v1Open.treeValid = true ∧
      ∃ r, nodeRead v1Open.mem v1Open.root = .ok r ∧ r.getLsbD 31 = false ∧
        (∃ q, nodeRead v1Open.mem (field r 0 9) = .ok q ∧ q.getLsbD 31 = true) ∧
        ∃ q, nodeRead v1Open.mem (field r 16 9) = .ok q ∧ q.getLsbD 31 = false) :=
  ⟨⟨by decide, by decide, 0x80000078#32, rfl, by decide⟩,
    ⟨by decide, by decide, 0x00020001#32, rfl, by decide, ⟨0x80000061#32, rfl, by decide⟩, 0x00040003#32, rfl, by decide⟩⟩

theorem witness_DecBitsRunsBitByBit :
    (1 ≤ (1#4).toNat ∧ (7#4).toNat ≤ 7) ∧ v1Open.dec.state = .active ∧ v1Open.treeValid = true := by decide

theorem witness_UnusedDataBitsAreIgnored :
    LegalCount 1 ∧ v1Open.dec.state = .active ∧ v1Open.treeValid = true ∧
      ∀ j, 8 - (1#4).toNat ≤ j → j ≤ 7 → (0x00#8).getLsbD j = (0x7F#8).getLsbD j := by
  refine ⟨by decide, by decide, by decide, fun j h1 h2 => ?_⟩
  obtain rfl : j = 7 := by simp at h1; omega
  decide

theorem witness_DecEndChecksTheStream :
    v1Error.dec.state = .error ∧ v1.dec.state = .idle ∧
    (v1Open.dec.state = .active ∧ v1Open.treeValid = true ∧ v1Open.dec.seen = false) ∧
    (∃ s : State, s.dec.state = .active ∧ s.treeValid = true ∧ s.dec.seen = true ∧ s.dec.ptr ≠ s.root) ∧
    (∃ s : State, s.dec.state = .active ∧ s.treeValid = false) ∧
    ∃ s : State, s.dec.state = .active ∧ s.dec.seen = true ∧ s.dec.ptr = s.root :=
  ⟨by decide, by decide, by decide, ⟨{ v1Open with dec := { v1Open.dec with seen := true, ptr := 2 } }, by decide⟩,
    ⟨units .active State.reset, by decide⟩, ⟨{ v1Open with dec := { v1Open.dec with seen := true } }, by decide⟩⟩

theorem witness_DecoderWordsAreDiscardedInError :
    [0x90000000#32, 0xA0000180#32, 0xB0000000#32, 0xC0000000#32, 0x80000000#32, 0xFFFFFFFF#32].all (fun w =>
      (fetching w v1Error).cfg.InBounds ∧ (fetching w v1Error).turns = [.engine] ∧ (fetching w v1Error).cmdq = [w] ∧
        (fetching w v1Error).dec.state = .error ∧ w.getLsbD 31 = true ∧ field w 28 4 ≠ 0xD) = true := by
  decide

/-- DEC_BITS at the root word, at the word of DEC_PTR, at the selected child (N = 1 and N = 8); ENC_SYM at LEN, at code
word 1 and at code word 8, the last one of the longest code. -/
theorem witness_EngineReadsOfUnwrittenWordsFault :
    (LegalCount 1 ∧ LegalCount 8) ∧
    (∃ s : State, s.dec.state = .active ∧ s.treeValid = true ∧ s.mem.readWord (nodeOffset s.root) = none) ∧
    (∃ s : State, s.dec.state = .active ∧ s.treeValid = true ∧ nodeRead s.mem s.root = .ok 0x00020001#32 ∧
      (0x00020001#32).getLsbD 31 = false ∧ s.mem.readWord (nodeOffset s.dec.ptr) = none) ∧
    (∃ s : State, s.dec.state = .active ∧ s.treeValid = true ∧ nodeRead s.mem s.root = .ok 0x00020001#32 ∧
      nodeRead s.mem s.dec.ptr = .ok 0x00020001#32 ∧ s.mem.readWord (nodeOffset (field 0x00020001#32 16 9)) = none ∧
      s.mem.readWord (nodeOffset (field 0x00020001#32 0 9)) = none) ∧
    (∃ s : State, s.enc.state = .active ∧ codeValid s.mem 0x61 = true ∧ codeLen s.mem 0x61 = none) ∧
    (∃ s : State, s.enc.state = .active ∧ codeValid s.mem 0x61 = true ∧ codeLen s.mem 0x61 = some 1 ∧
      1 ≤ ((1 : Byte).toNat + 31) / 32 ∧ s.mem.readWord (codeOffset 0x61 1) = none) ∧
    ∃ s : State, s.enc.state = .active ∧ codeValid s.mem 0xFF = true ∧ codeLen s.mem 0xFF = some 255 ∧
      8 ≤ ((255 : Byte).toNat + 31) / 32 ∧
      (s.mem.readWord (codeOffset 0xFF 1) ≠ none ∧ s.mem.readWord (codeOffset 0xFF 2) ≠ none ∧
        s.mem.readWord (codeOffset 0xFF 3) ≠ none ∧ s.mem.readWord (codeOffset 0xFF 4) ≠ none ∧
        s.mem.readWord (codeOffset 0xFF 5) ≠ none ∧ s.mem.readWord (codeOffset 0xFF 6) ≠ none ∧
        s.mem.readWord (codeOffset 0xFF 7) ≠ none) ∧
      s.mem.readWord (codeOffset 0xFF 8) = none :=
  ⟨by decide, ⟨{ v1Open with mem := [] }, by decide⟩,
    ⟨{ v1Open with mem := load [(0x4000, 0x00020001#32)], dec := { v1Open.dec with ptr := 2 } }, rfl, rfl, rfl, rfl,
      by decide⟩,
    ⟨{ v1Open with mem := load [(0x4000, 0x00020001#32)] }, rfl, rfl, rfl, rfl, by decide, by decide⟩,
    ⟨{ v1Open with mem := [(0x9843, 0x80)] }, by decide⟩,
    ⟨{ v1Open with mem := load [(0x9840, 0x80000001#32)] }, by decide⟩,
    ⟨{ v1Open with mem := load [(0xBFC0, 0x800000FF#32), (0xBFC4, 0#32), (0xBFC8, 0#32), (0xBFCC, 0#32), (0xBFD0, 0#32),
        (0xBFD4, 0#32), (0xBFD8, 0#32), (0xBFDC, 0#32)] }, by decide⟩⟩

theorem witness_CommandsWriteOnlyTheirUnit :
    (∃ t, exec (.encSym 0x62) v1Open = .next t) ∧ (∃ t, exec (.decBits 3 0xC0) v1Open = .next t) ∧
      (Instr.encSym 0x62).unit ≠ some .dec ∧ (Instr.decBits 3 0xC0).unit ≠ some .enc :=
  ⟨⟨_, rfl⟩, ⟨_, rfl⟩, by decide, by decide⟩

/-- The other unit's RAM bytes differ: node word 0 for the encoder, the header of 'a' for the decoder. -/
theorem witness_UnitsAreIndependent :
    (∃ (s' t : State), exec (.encSym 0x62) v1Open = .next t ∧ (Instr.encSym 0x62).unit = some .enc ∧
      s'.enc = v1Open.enc ∧ (∀ a, 0x8000 ≤ a → a < 0xC000 → s'.mem.read a = v1Open.mem.read a) ∧
      s'.mem.read 0x4000 ≠ v1Open.mem.read 0x4000) ∧
    ∃ (s' t : State), exec (.decBits 3 0xC0) v1Open = .next t ∧ (Instr.decBits 3 0xC0).unit = some .dec ∧
      s'.dec = v1Open.dec ∧ (∀ a, 0x4000 ≤ a → a < 0x4800 → s'.mem.read a = v1Open.mem.read a) ∧
      s'.root = v1Open.root ∧ s'.treeValid = v1Open.treeValid ∧ s'.mem.read 0x9840 ≠ v1Open.mem.read 0x9840 :=
  ⟨⟨{ v1Open with mem := v1Mem.writeWord 0x4000 0#32 }, _, rfl, rfl, rfl,
      fun a h _ => Memory.read_writeWord_of_outside v1Mem 0x4000 0#32 a (by omega), by decide⟩,
    ⟨{ v1Open with mem := v1Mem.writeWord 0x9840 0#32 }, _, rfl, rfl, rfl,
      fun a _ h => Memory.read_writeWord_of_outside v1Mem 0x9840 0#32 a (by omega), rfl, rfl, by decide⟩⟩

theorem witness_ErrorEntryRecordsTheWord :
    (∃ t, execWord 0x20000064#32 v1Open = .next t ∧ v1Open.enc.state ≠ .error ∧ t.enc.state = .error) ∧
    ∃ t, execWord 0xA0000900#32 v1Open = .next t ∧ v1Open.dec.state ≠ .error ∧ t.dec.state = .error :=
  ⟨⟨_, rfl, by decide, by decide⟩, ⟨_, rfl, by decide, by decide⟩⟩

theorem witness_OnlyUnitResetLeavesError :
    (∃ t, execWord 0x50000000#32 v1Error = .next t ∧ v1Error.enc.state = .error ∧ t.enc.state ≠ .error) ∧
    ∃ t, execWord 0xD0000000#32 v1Error = .next t ∧ v1Error.dec.state = .error ∧ t.dec.state ≠ .error :=
  ⟨⟨_, rfl, by decide, by decide⟩, ⟨_, rfl, by decide, by decide⟩⟩

theorem witness_AccessesNotAdmittedHaveNoEffect :
    (∃ a : Access, a.size ≠ 4 ∧ a.addr.toNat % 4 = 0) ∧ ∃ a : Access, a.size = 4 ∧ a.addr.toNat % 4 ≠ 0 :=
  ⟨⟨{ memWrite 0x020 0 with size := 2 }, by decide⟩, ⟨memWrite 0xFFFE 0, by decide⟩⟩

theorem witness_CmdWritesAreQueuedOrLost :
    ({ v1 with cmdq := List.replicate 15 0 } : State).cmdq.length < v1.cfg.cmdqDepth ∧
      v1.cfg.cmdqDepth ≤ ({ v1 with cmdq := List.replicate 16 0 } : State).cmdq.length := by decide

/-- The first and the last word of each range; the offset 0x4800 and word 9 of an entry lie outside. -/
theorem witness_ClosedGatesDropConfigurationWrites :
    (∀ a ∈ [0x4000#16, 0x47FC#16], a.toNat % 4 = 0 ∧ 0x4000 ≤ a.toNat ∧ a.toNat < 0x4800) ∧
    (∀ a ∈ [0x8000#16, 0x8020#16, 0xBFC0#16, 0xBFE0#16],
      a.toNat % 4 = 0 ∧ 0x8000 ≤ a.toNat ∧ a.toNat < 0xC000 ∧ a.toNat % 64 < 36) ∧
    (fetching 0#32 v1).cmdq ≠ [] ∧ v1Open.dec.state = .active ∧ v1Open.enc.state = .active := by
  refine ⟨?_, ?_, by decide⟩ <;> simp only [List.forall_mem_cons] <;> simp

theorem witness_OpenGatesStoreConfigurationWrites :
    v1.cmdq = [] ∧ v1.dec.state ≠ .active ∧ v1.enc.state ≠ .active := by decide

theorem witness_TablesAreStableUnderStreams :
    (∃ t, step { v1Open with turns := [.host (memWrite 0x9840 0)] } = .next t ∧ v1Open.enc.state = .active) ∧
    (∃ t, step { v1Open with turns := [.host (memWrite 0x008 1)] } = .next t ∧ v1Open.dec.state = .active) ∧
    ∃ t, step { v1 with cmdq := [0], turns := [.host (memWrite 0x4000 1)] } = .next t :=
  ⟨⟨_, rfl, by decide⟩, ⟨_, rfl, by decide⟩, ⟨_, rfl⟩⟩

theorem witness_OutputReadsTakeTheHead :
    (∃ s : State, s.enc.out = [0x1F, 0x00] ∧ s.dec.out = [0x62]) ∧ v1.enc.out = [] ∧ v1.dec.out = [] :=
  ⟨⟨{ v1 with enc := { v1.enc with out := [0x1F, 0x00] }, dec := { v1.dec with out := [0x62] } }, by decide⟩, by decide⟩

theorem witness_OtherReadsHaveNoSideEffect :
    ∀ a ∈ [0x000#16, 0x020#16, 0x02C#16, 0x4000#16, 0xFFFC#16],
      a.toNat % 4 = 0 ∧ a.toNat ≠ 0x024 ∧ a.toNat ≠ 0x028 := by simp

/-- Every numbered unit state and error code is one some state has. -/
theorem witness_RegisterReadsGiveTheirFields :
    (∀ st : UnitState, ∃ s : State, s.enc.state = st ∧ s.dec.state = st) ∧
    ∀ e : ErrCode, ∃ s : State, s.enc.err = e ∧ s.dec.err = e :=
  ⟨fun st => ⟨units st v1, rfl, rfl⟩,
    fun e => ⟨{ v1Error with enc := { v1Error.enc with err := e }, dec := { v1Error.dec with err := e } }, rfl, rfl⟩⟩

/-- Node 2, 'b' with LEN 2 and its first code word, and the eighth code word of the longest code. -/
theorem witness_TableReadsHaveReservedBitsZero :
    v1.mem.readWord (nodeOffset 2) = some 0x00040003#32 ∧ v1.mem.readWord (codeOffset 0x62 1) = some 3#32 ∧
      codeLen v1.mem 0x62 = some 2 ∧ codeLen longOpen.mem 0xFF = some 255 ∧
      longOpen.mem.readWord (codeOffset 0xFF 8) = some 0x7FFFFFFF#32 := by decide

/-- The first and the last reserved offset of each range. -/
theorem witness_ReservedAndReadOnlyIgnoreWrites :
    (∀ a ∈ [0x044#16, 0x3FFC#16], a.toNat % 4 = 0 ∧ 0x044 ≤ a.toNat ∧ a.toNat < 0x4000) ∧
    (∀ a ∈ [0x4800#16, 0x7FFC#16], a.toNat % 4 = 0 ∧ 0x4800 ≤ a.toNat ∧ a.toNat < 0x8000) ∧
    (∀ a ∈ [0xC000#16, 0xFFFC#16], a.toNat % 4 = 0 ∧ 0xC000 ≤ a.toNat) ∧
    (∀ a ∈ [0x8024#16, 0xBFFC#16], a.toNat % 4 = 0 ∧ 0x8000 ≤ a.toNat ∧ a.toNat < 0xC000 ∧ 36 ≤ a.toNat % 64) ∧
    (0x040#16).toNat % 4 = 0 := by simp

theorem witness_HardwareResetClearsTheBlock :
    v1Open.cfg.InBounds ∧ ({ v1Open with turns := [.reset (some (memRead 0x00C))] } : State).turns =
      [.reset (some (memRead 0x00C))] := by decide

theorem witness_EveryStepKeepsTheInvariant :
    ∃ t, (fetching 0xA00003C0#32 v1Open).Inv ∧ step (fetching 0xA00003C0#32 v1Open) = .next t :=
  ⟨_, fetching_inv _, rfl⟩

/-- V1 in an instance with a BASE and an ENC_OUT depth. -/
def v1At (base depth : Nat) : State := { v1 with cfg := { Config.default with base := base, encOutDepth := depth } }

theorem witness_OnlyBadConfigurationsAreRefused :
    (State.reset.cfg.InBounds ∧ ¬ (v1At 0 31).cfg.InBounds) ∧
    ({ insts := [v1At 0 64, v1At 0x10000 32] } : System).WellFormed ∧ ({ insts := [] } : System).insts = [] ∧
    (∃ s ∈ ({ insts := [v1At 0 64, v1At 0x10000 31] } : System).insts, ¬ s.cfg.InBounds) ∧
    ¬ (({ insts := [v1At 0 64, v1At 0 32] } : System).insts.map (fun s => s.cfg.base)).Nodup := by
  decide

theorem witness_FaultsAreUnwrittenTableWords :
    (∃ f, step (fetching 0xA0000180#32 { v1Open with mem := [] }) = .fault f) ∧
    ∃ f, step (fetching 0x20000061#32 { v1Open with mem := [(0x9843, 0x80)] }) = .fault f :=
  ⟨⟨_, rfl⟩, ⟨_, rfl⟩⟩

theorem witness_EncoderStreamLaw :
    v1.enc.state = .idle ∧ (∃ bits, encodeRef (codeView v1.mem) [0x61, 0x62] = .ok bits) ∧ codeValid v1.mem 0x64 = false :=
  ⟨by decide, ⟨_, rfl⟩, by decide⟩

/-- A whole stream, a truncated one, bits without a tree, and no bits against a tree. -/
theorem witness_DecoderStreamLaw :
    (v1.dec.state = .idle ∧ v1.treeValid = true ∧ ∃ t, treeAt v1.mem 3 v1.root = some t ∧
      (∃ syms, decodeRef (some t) (streamBits [(3, 0xC0)]) = .ok syms) ∧
      (∃ k, decodeRef (some t) (streamBits [(1, 0x80)]) = .error (.truncatedStream k)) ∧
      ∃ k, decodeRef (some t) (streamBits []) = .error (.inconsistentEmptyState k)) ∧
    (State.reset.dec.state = .idle ∧ State.reset.treeValid = false ∧
      (∃ syms, decodeRef none (streamBits []) = .ok syms) ∧
      ∃ k, decodeRef none (streamBits [(1, 0x80)]) = .error (.inconsistentEmptyState k)) ∧
    ∀ g ∈ [((3 : BitVec 4), (0xC0 : Byte)), (1, 0x80)], LegalCount g.1 :=
  ⟨⟨by decide, by decide, .internal 0 (.leaf 0x61 0) (.internal 0 (.leaf 0x63 0) (.leaf 0x62 0)), by decide, ⟨_, rfl⟩,
      ⟨_, rfl⟩, ⟨_, rfl⟩⟩,
    ⟨by decide, by decide, ⟨_, rfl⟩, ⟨_, rfl⟩⟩, by simp [LegalCount]⟩

/-- The single-leaf tree of "x" (P3), loaded by hand. -/
theorem witness_CommandStreamsRoundTrip :
    ∃ s : State, s.enc.state = .idle ∧ s.dec.state = .idle ∧ s.enc.out = [] ∧ s.dec.out = [] ∧
      HoldsTree s (build (count [0x78])) ∧ HoldsTable s (CodeTable.view (derive (build (count [0x78])))) := by
  refine ⟨{ State.reset with
    treeValid := true, mem := load [(0x4000, 0x80000078#32), (0x9E00, 0x80000001#32), (0x9E04, 1#32)] },
    by decide, by decide, by decide, by decide, ?_, ?_⟩
  · have hb : build (count [0x78]) = some (.leaf 0x78 1) := by decide +kernel
    rw [hb]
    exact ⟨rfl, 1, by decide⟩
  · have hb : build (count [0x78]) = some (.leaf 0x78 1) := by decide +kernel
    rw [hb]
    unfold HoldsTable
    decide +kernel

/-- The bench after a run, if the run of its host program is over (R13). -/
def overAfter (r : Host.Outcome Bench Fault Refusal) : Option Bench :=
  match r with
  | .next b => if b.Over then some b else none
  | .fault _ => none
  | .refused _ => none

/-- Turns of the host and the engine, one after the other. -/
def alternate (n : Nat) : List Agent := (List.replicate n [Agent.host, Agent.engine]).flatten

/-- The empty sequence (P4): the three runs are over within these schedules, from the state after reset. -/
theorem witness_DriversRoundTrip :
    State.reset.cfg.InBounds ∧ State.reset.cmdq = [] ∧ State.reset.enc.state = .idle ∧ State.reset.dec.state = .idle ∧
    State.reset.enc.out = [] ∧ State.reset.dec.out = [] ∧
    encodeRef (CodeTable.view (derive (build (count [])))) [] = .ok [] ∧ ([] : List Bool).length < 2 ^ 32 ∧
    (((overAfter (Bench.run (List.replicate 259 .host)
        { host := .loader (loader (build (count []))), block := State.reset })).bind fun b =>
      overAfter (Bench.run (alternate 16) { host := .driver (encodeDriver []), block := b.block })).bind fun b =>
      overAfter (Bench.run (alternate 16) { host := .driver (decodeDriver [] 0), block := b.block })).isSome = true :=
  ⟨by decide, rfl, rfl, rfl, rfl, rfl, rfl, by decide, by decide +kernel⟩

theorem witness_BuiltTreesWeighTheSequence : ∃ t, build (count [0x78]) = some t :=
  ⟨.leaf 0x78 1, by decide +kernel⟩

theorem witness_AssembledCommandsAreWellFormed :
    (∃ i, Assembler.assembleLine ['d', 'e', 'c', '_', 'b', 'i', 't', 's', ' ', '8', ',', '0', 'x', 'f', 'f'] =
      .ok (some i)) ∧ ∃ x, Assembler.assembleLine ['N', 'O', 'P'] = .ok (some (.nop x)) :=
  ⟨⟨_, rfl⟩, ⟨_, rfl⟩⟩

theorem witness_LoadLeavesTreeAndTable :
    v1.cmdq = [] ∧ v1.enc.state ≠ .active ∧ v1.dec.state ≠ .active ∧ v1.cfgDrop = false ∧
      (CodeTree.internal 3 (.leaf 0x61 1) (.leaf 0x62 2)).size ≤ 512 ∧
      ∀ c ∈ derive (some (.internal 3 (.leaf 0x61 1) (.leaf 0x62 2))), c.2.length ≤ 255 := by decide

theorem witness_InstancesShareNothing :
    ∃ y', ({ insts := [v1, fetching 0x10000000#32 (v1At 0x10000 64)] } : System).stepAt 1 = .next y' :=
  ⟨_, if_pos (by decide)⟩

end Sys2Proof.Tests
end

section
/-! Proofs of the scope statements (00_scope.md): which steps are refused (R6, I22), and what the turns of the host and of
reset are (R11, R12). -/

namespace Sys2Proof.Machine

/-! ### No command is refused

A refusal of a step can only come from the configuration check, as every command has a meaning and every illegal word has
R123's. -/

theorem execEncSym_ne_refused (sym : Byte) (s : State) (r : Refusal) : execEncSym sym s ≠ .refused r := by
  unfold execEncSym
  split
  · nofun
  · nofun
  · split <;> nofun

theorem execDecBits_ne_refused (n : BitVec 4) (data : Byte) (s : State) (r : Refusal) :
    execDecBits n data s ≠ .refused r := by
  unfold execDecBits
  split
  · split
    · nofun
    · nofun
    · split <;> nofun
  · nofun

theorem execDecEnd_ne_refused (s : State) (r : Refusal) : execDecEnd s ≠ .refused r := by
  unfold execDecEnd
  split
  · nofun
  · nofun
  · split
    · nofun
    · split <;> nofun

theorem exec_ne_refused (i : Instr) (s : State) (r : Refusal) : exec i s ≠ .refused r := by
  cases i with
  | nop => nofun
  | encStart => simp only [exec, execEncStart]; split <;> nofun
  | encSym sym => exact execEncSym_ne_refused sym s r
  | encFlush => simp only [exec, execEncFlush]; split <;> nofun
  | encAbort => simp only [exec, execEncAbort]; split <;> nofun
  | encReset => nofun
  | decStart => simp only [exec, execDecStart]; split <;> nofun
  | decBits n data => exact execDecBits_ne_refused n data s r
  | decEnd => exact execDecEnd_ne_refused s r
  | decAbort => simp only [exec, execDecAbort]; split <;> nofun
  | decReset => nofun

theorem execWord_ne_refused (w : Word) (s : State) (r : Refusal) : execWord w s ≠ .refused r := by
  cases h : decode w with
  | legal i =>
    rw [execWord_of_legal h]
    exact exec_ne_refused i s r
  | illegal u why =>
    rw [execWord_of_illegal h]
    nofun

theorem engineStep_ne_refused (s : State) (r : Refusal) : engineStep s ≠ .refused r := by
  unfold engineStep
  split
  · nofun
  · split
    · nofun
    · exact execWord_ne_refused _ _ r

/-! ### Steps of a block and of a system -/

theorem step_ne_refused {s : State} (hb : s.cfg.InBounds) (r : Refusal) : step s ≠ .refused r := by
  cases ht : s.turns with
  | nil =>
    rw [step_of_noTurns hb ht]
    exact engineStep_ne_refused s r
  | cons turn ts =>
    cases turn with
    | engine =>
      rw [step_of_engine hb ht]
      exact engineStep_ne_refused _ r
    | host a =>
      rw [step_of_host hb ht]
      nofun
    | reset p =>
      rw [step_of_reset hb ht]
      nofun

theorem System.stepAt_of_not_wellFormed {y : System} (h : ¬ y.WellFormed) (k : Nat) :
    y.stepAt k = .refused .configurationOutOfBounds :=
  if_neg h

/-- A refusal of a legal system's step would be one of the stepped instance, whose configuration is within bounds. -/
theorem System.stepAt_ne_refused {y : System} (h : y.WellFormed) (k : Nat) (r : Refusal) : y.stepAt k ≠ .refused r := by
  have ⟨_, hbounds, _⟩ := h
  rw [System.stepAt, if_pos h]
  split
  · nofun
  · rename_i s hs
    have hstep := step_ne_refused (hbounds s (List.mem_of_getElem? hs))
    split
    · nofun
    · nofun
    · rename_i r' hr
      exact absurd hr (hstep r')

/-! ### The statements -/

/-- Settles O48: past the configuration check no turn is refused, as no command is. -/
theorem onlyBadConfigurationsAreRefused : Obligations.OnlyBadConfigurationsAreRefused := by
  refine ⟨fun s => ⟨step_ne_refused, step_of_not_inBounds⟩,
    fun y k => ⟨fun h => System.stepAt_ne_refused h k, ?_, ?_, ?_⟩⟩
  · exact fun hempty => System.stepAt_of_not_wellFormed (fun ⟨hne, _, _⟩ => hne hempty) k
  · exact fun ⟨s, hs, hout⟩ => System.stepAt_of_not_wellFormed (fun ⟨_, hbounds, _⟩ => hout (hbounds s hs)) k
  · exact fun hdup => System.stepAt_of_not_wellFormed (fun ⟨_, _, hnodup⟩ => hdup hnodup) k

/-- Settles O11: the two equations of `step` for these turns. -/
theorem hostAndResetTurnsTakeTheirStep : Obligations.HostAndResetTurnsTakeTheirStep :=
  fun _ _ hb => ⟨fun _ ht => step_of_host hb ht, fun _ ht => step_of_reset hb ht⟩

end Sys2Proof.Machine
end

section
/-! Proofs of the state statements (10_state.md): every step keeps the invariant, what commands and host accesses leave as it
was, what host reads return, and where the machine stops with a fault (R49). -/

namespace Sys2Proof.Machine

/-! ### The units' parts of the invariant

A unit that is not in ERROR records no error, so a command that runs without error keeps the error part by keeping `err` and
`errCmd`; what is left to show of each command is ACC, the pointer and the level of the output FIFO. -/

theorem EncUnit.Inv.err_eq_none {c : Config} {e : EncUnit} (h : e.Inv c) (hs : e.state ≠ .error) : e.err = .none :=
  by_contra fun hne => hs (h.error.mpr hne)

theorem DecUnit.Inv.err_eq_none {s : State} {d : DecUnit} (h : d.Inv s) (hs : d.state ≠ .error) : d.err = .none :=
  by_contra fun hne => hs (h.error.mpr hne)

theorem EncUnit.inv_reset (c : Config) : EncUnit.reset.Inv c :=
  ⟨by simp [EncUnit.reset], fun _ => rfl, by simp [EncUnit.reset], fun _ => rfl, Nat.zero_le _⟩

theorem EncUnit.Inv.opened {c : Config} {e : EncUnit} (h : e.Inv c) (hs : e.state = .idle) : e.opened.Inv c := by
  have herr := h.err_eq_none (by simp [hs])
  exact ⟨by simp [EncUnit.opened, herr], h.errCmd, by simp [EncUnit.opened], fun _ => rfl, h.level⟩

theorem EncUnit.Inv.encodeSymbol {c : Config} {e : EncUnit} (h : e.Inv c) (hs : e.state = .active) {bits : List Bool}
    (hfit : e.out.length + (e.accN.toNat + bits.length) / 8 ≤ c.encOutDepth) : (e.encodeSymbol bits).Inv c := by
  have herr := h.err_eq_none (by simp [hs])
  refine ⟨by simp [hs, herr], by simpa using h.errCmd, (EncUnit.appendBits_law bits e h.acc).2.2, by simp [hs], ?_⟩
  rw [EncUnit.encodeSymbol_out, EncUnit.appendBits_out_length bits e h.acc]
  exact hfit

@[simp] theorem EncUnit.flushed_err (e : EncUnit) : e.flushed.err = e.err := by
  simp only [EncUnit.flushed]; split <;> rfl

@[simp] theorem EncUnit.flushed_errCmd (e : EncUnit) : e.flushed.errCmd = e.errCmd := by
  simp only [EncUnit.flushed]; split <;> rfl

theorem EncUnit.flushed_out_length (e : EncUnit) :
    e.flushed.out.length = e.out.length + if e.accN = 0 then 0 else 1 := by
  simp only [EncUnit.flushed]; split <;> simp

theorem EncUnit.Inv.flushed {c : Config} {e : EncUnit} (h : e.Inv c) (hs : e.state = .active)
    (hfit : e.out.length + (if e.accN = 0 then 0 else 1) ≤ c.encOutDepth) : e.flushed.Inv c := by
  have herr := h.err_eq_none (by simp [hs])
  have hidle : e.flushed.state = .idle := rfl
  refine ⟨by simp [hidle, herr], by simpa using h.errCmd, by simp [EncUnit.flushed], fun _ => rfl, ?_⟩
  rw [EncUnit.flushed_out_length]
  exact hfit

/-- The decoder after either reset: without a stream the pointer may name any node. -/
theorem DecUnit.inv_reset (s : State) (root : NodeIx) : ({ DecUnit.reset with ptr := root } : DecUnit).Inv s :=
  ⟨by simp [DecUnit.reset], fun _ => rfl, nofun, nofun, Nat.zero_le _⟩

theorem DecUnit.Inv.opened {s : State} {d : DecUnit} (h : d.Inv s) (hs : d.state = .idle) : (d.opened s.root).Inv s := by
  have herr := h.err_eq_none (by simp [hs])
  exact ⟨by simp [DecUnit.opened, herr], h.errCmd, fun _ _ => rfl, fun _ hne => absurd rfl hne, h.level⟩

theorem DecUnit.Inv.closed {s : State} {d : DecUnit} (h : d.Inv s) (hs : d.state = .active) :
    ({ d with state := .idle } : DecUnit).Inv s := by
  have herr := h.err_eq_none (by simp [hs])
  exact ⟨by simp [herr], h.errCmd, nofun, nofun, h.level⟩

/-- The pointer names an internal node of a loaded tree, or it is at ROOT (R111). -/
def PointerValid (s : State) (ptr : NodeIx) : Prop :=
  ptr ≠ s.root → s.treeValid = true ∧ ∃ p, nodeRead s.mem ptr = .ok p ∧ nodeIsLeaf p = false

/-- A bit moves the pointer to an internal node, back to ROOT, or (in a tree of one leaf) not at all. -/
theorem walkBit_pointerValid {s : State} {b : Bool} {d d' : DecUnit} (hp : PointerValid s d.ptr)
    (h : walkBit s b d = .more d') : PointerValid s d'.ptr := by
  obtain ⟨hv, _, _, _, _, _, hmove⟩ := walkBit_more h
  rcases hmove with ⟨_, _, hinner⟩ | ⟨_, _, _, hstay | hroot⟩
  · exact fun _ => ⟨hv, hinner⟩
  · rwa [hstay]
  · exact fun hne => absurd hroot hne

theorem walkBits_pointerValid {s : State} {bits : List Bool} {d d' : DecUnit} (hp : PointerValid s d.ptr)
    (h : walkBits s bits d = .more d') : PointerValid s d'.ptr := by
  induction bits generalizing d with
  | nil =>
    cases h
    exact hp
  | cons b bits ih =>
    simp only [walkBits] at h
    split at h
    · rename_i d₁ h₁
      exact ih (walkBit_pointerValid hp h₁) h
    · cases h
    · cases h

theorem DecUnit.Inv.walked {s : State} {bits : List Bool} {d d' : DecUnit} (h : d.Inv s) (hs : d.state = .active)
    (hbits : bits ≠ []) (hfit : d.out.length + bits.length ≤ s.cfg.decOutDepth) (hw : walkBits s bits d = .more d') :
    d'.Inv s := by
  obtain ⟨hstate, herr, herrCmd, _, hseen, _, syms, hout, hsyms, _⟩ := walkBits_more hw
  refine ⟨by rw [hstate, herr]; exact h.error, by rw [herr, herrCmd]; exact h.errCmd, ?_, ?_, ?_⟩
  · intro _ hns
    rw [(hseen hbits).1] at hns
    cases hns
  · exact fun _ => walkBits_pointerValid (h.pointer hs) hw
  · rw [hout, List.length_append]
    omega

/-! ### Commands keep the invariant -/

/-- The output of a command that is not held fits into its unit's output FIFO (R122). -/
theorem need_le_freeOut {i : Instr} {u : CodecUnit} {s : State} (hu : i.unit = some u) (hh : heldInstr i s = false) :
    need i s ≤ s.freeOut u := by
  simp only [heldInstr, hu] at hh
  exact Nat.le_of_not_lt (of_decide_eq_false hh)

theorem codeBits_length (len : Nat) (code : BitVec 256) : (codeBits len code).length = len := by
  simp [codeBits]

/-- Where ENC_SYM appends a code, its `need` is the number of bytes that the appended bits complete. -/
theorem needEncSym_of_present {s : State} {sym : Byte} {l : Nat} {code : BitVec 256} (hs : s.enc.state = .active)
    (hc : codeRead s.mem sym = .ok (.present (l + 1) code)) :
    needEncSym sym s = (s.enc.accN.toNat + (l + 1)) / 8 := by
  obtain ⟨hv, len, hlen, hl⟩ := codeRead_present hc
  simp [needEncSym, hs, hv, hlen, hl]

/-- A command that is not held keeps the invariant. -/
theorem State.Inv.exec {i : Instr} {s t : State} (h : s.Inv) (hh : heldInstr i s = false) (he : exec i s = .next t) :
    t.Inv := by
  cases i with
  | nop =>
    cases he
    exact h
  | encStart =>
    simp only [Machine.exec, execEncStart] at he
    split at he <;> cases he
    · exact h
    · exact h.raiseErr _ _ _ (by simp)
    · rename_i hs
      exact h.setEnc (h.enc.opened hs)
  | encSym sym =>
    rcases execEncSym_next he with ⟨_, rfl⟩ | ⟨_, code, hcode, rfl, _⟩ | ⟨hs, l, code, hc, rfl⟩
    · exact h
    · exact h.raiseErr _ _ _ hcode
    · have hlevel := h.enc.level
      have hfit : (s.enc.accN.toNat + (l + 1)) / 8 ≤ s.cfg.encOutDepth - s.enc.out.length := by
        rw [← needEncSym_of_present hs hc]
        exact need_le_freeOut rfl hh
      exact h.setEnc (h.enc.encodeSymbol hs (by rw [codeBits_length]; omega))
  | encFlush =>
    simp only [Machine.exec, execEncFlush] at he
    split at he <;> cases he
    · exact h
    · exact h.raiseErr _ _ _ (by simp)
    · rename_i hs
      have hlevel := h.enc.level
      have hfit := need_le_freeOut rfl hh
      simp only [need, needEncFlush, hs, State.freeOut] at hfit
      exact h.setEnc (h.enc.flushed hs (by omega))
  | encAbort =>
    simp only [Machine.exec, execEncAbort] at he
    split at he <;> cases he
    · exact h
    · exact h.raiseErr _ _ _ (by simp)
    · exact h.raiseErr _ _ _ (by simp)
  | encReset =>
    cases he
    exact h.setEnc (EncUnit.inv_reset _)
  | decStart =>
    simp only [Machine.exec, execDecStart] at he
    split at he <;> cases he
    · exact h
    · exact h.raiseErr _ _ _ (by simp)
    · rename_i hs
      exact h.setDec (h.dec.opened hs)
  | decBits n data =>
    rcases execDecBits_next he with ⟨_, rfl⟩ | ⟨_, code, hcode, rfl⟩ | ⟨⟨hn, _⟩, hs, d, hw, rfl⟩
    · exact h
    · exact h.raiseErr _ _ _ hcode
    · have hlevel := h.dec.level
      have hfit := need_le_freeOut rfl hh
      simp only [need, needDecBits, hs, State.freeOut] at hfit
      refine h.setDec (h.dec.walked hs ?_ (by rw [groupBits_length]; omega) hw)
      exact List.ne_nil_of_length_pos (by rwa [groupBits_length])
  | decEnd =>
    rcases execDecEnd_next he with ⟨_, rfl⟩ | ⟨_, code, hcode, rfl⟩ | ⟨hs, _, rfl⟩
    · exact h
    · exact h.raiseErr _ _ _ hcode
    · exact h.setDec (h.dec.closed hs)
  | decAbort =>
    simp only [Machine.exec, execDecAbort] at he
    split at he <;> cases he
    · exact h
    · exact h.raiseErr _ _ _ (by simp)
    · exact h.raiseErr _ _ _ (by simp)
  | decReset =>
    cases he
    exact h.setDec (DecUnit.inv_reset s s.root)

theorem State.Inv.illegalCommand {s : State} (h : s.Inv) (u : CodecUnit) (w : Word) : (illegalCommand u w s).Inv := by
  rcases illegalCommand_cases u w s with ⟨_, hc⟩ | ⟨_, hc⟩ <;> rw [hc]
  · exact h
  · exact h.raiseErr _ _ _ (by simp)

theorem State.Inv.execWord {w : Word} {s t : State} (h : s.Inv) (hh : held w s = false) (he : execWord w s = .next t) :
    t.Inv := by
  cases hd : decode w with
  | legal i =>
    rw [execWord_of_legal hd] at he
    rw [held_of_legal hd] at hh
    exact h.exec hh he
  | illegal u why =>
    rw [execWord_of_illegal hd] at he
    cases he
    exact h.illegalCommand u w

theorem State.Inv.engineStep {s t : State} (h : s.Inv) (he : engineStep s = .next t) : t.Inv := by
  rcases engineStep_next he with ⟨_, rfl⟩ | ⟨w, rest, hq, ⟨_, rfl⟩ | ⟨hh, hw⟩⟩
  · exact h
  · exact h
  · have hrest : rest.length ≤ s.cfg.cmdqDepth := by
      have := h.queue
      rw [hq, List.length_cons] at this
      omega
    exact (h.setCmdq rest hrest).execWord ((held_congr w s rest s.turns).trans hh) hw

/-! ### Host accesses and the reset step keep the invariant -/

theorem State.Inv.busRead {s : State} (h : s.Inv) (t : Target) : (busRead t s).2.Inv := by
  rcases busRead_state t s with hr | hr | ⟨_, b, rest, hout, hr⟩ | ⟨_, b, rest, hout, hr⟩ <;> rw [hr]
  · exact h
  · exact h.setFreeIdx _
  · have hl := h.enc.level
    rw [hout, List.length_cons] at hl
    exact h.setEnc ⟨h.enc.error, h.enc.errCmd, h.enc.acc, h.enc.pending, Nat.le_of_succ_le hl⟩
  · have hl := h.dec.level
    rw [hout, List.length_cons] at hl
    exact h.setDec ⟨h.dec.error, h.dec.errCmd, h.dec.unseen, h.dec.pointer, Nat.le_of_succ_le hl⟩

theorem State.Inv.busWrite {s : State} (h : s.Inv) (a : BitVec 16) (v : Word) : (busWrite (target a) v s).Inv := by
  rcases busWrite_cases (target a) v s with hw | hw | ⟨_, hw⟩ | ⟨_, hlt, hw⟩ | ⟨_, _, hw⟩ |
    ⟨_, hd, ⟨_, hw⟩ | ⟨_, hw⟩ | ⟨i, _, hw⟩⟩ | ⟨_, _, ⟨sym, _, hw⟩ | ⟨sym, k, ht, hw⟩⟩ <;> rw [hw]
  · exact h
  · exact h.setFlags _ _
  · exact h.setFlags _ _
  · exact h.setCmdq _ (by simpa using hlt)
  · exact h.setFlags _ _
  · exact h.setTables hd _ _ _ h.memory
  · exact h.setTables hd _ _ _ h.memory
  · exact h.setTables hd _ _ _ (h.memory.writeNode i v)
  · exact h.setCodeMem _ _ (by unfold codeOffset; omega) (h.memory.writeHeader sym v)
  · obtain ⟨hk, hk'⟩ := target_codeWord_range ht
    exact h.setCodeMem _ _ (by unfold codeOffset; omega) (h.memory.writeCode sym v k hk hk')

theorem State.Inv.hostAccess {s : State} (h : s.Inv) (a : Access) : (hostAccess a s).Inv := by
  rcases hostAccess_cases a s with ha | ha | ha <;> rw [ha]
  · exact h.setBus _
  · exact (h.busWrite _ _).setBus _
  · exact (h.busRead _).setBus _

/-- The reset step establishes the invariant within any configuration in bounds. -/
theorem inv_hardReset {s : State} (hb : s.cfg.InBounds) (p : Option Access) : (hardReset p s).Inv :=
  ⟨hb, Memory.inv_nil, EncUnit.inv_reset _, DecUnit.inv_reset _ 0, Nat.zero_le _⟩

/-- Settles O47, by the kinds of turn: an engine turn, a host access, a reset. -/
theorem everyStepKeepsTheInvariant : Obligations.EveryStepKeepsTheInvariant := by
  intro s t h hstep
  obtain ⟨hb, ⟨_, he⟩ | ⟨ts, ⟨_, he⟩ | ⟨a, _, rfl⟩ | ⟨p, _, rfl⟩⟩⟩ := step_next hstep
  · exact h.engineStep he
  · exact (h.setTurns ts).engineStep he
  · exact (h.setTurns ts).hostAccess a
  · exact inv_hardReset (s := { s with turns := ts }) hb p

/-- Settles O46, part by part, with the default configuration in bounds. -/
theorem resetMeetsTheInvariant : Obligations.ResetMeetsTheInvariant :=
  ⟨by decide, Memory.inv_nil, EncUnit.inv_reset _, DecUnit.inv_reset _ 0, Nat.zero_le _⟩

/-! ### The frame of commands -/

/-- Settles O29, by the unit that a command belongs to. -/
theorem commandsWriteOnlyTheirUnit : Obligations.CommandsWriteOnlyTheirUnit := by
  intro i s t h
  rcases exec_next h with ⟨_, rfl⟩ | ⟨hu, e, rfl⟩ | ⟨hu, d, rfl⟩
  · simp
  · simp [hu]
  · simp [hu]

/-- An executed word that answers a next state has written the units and nothing else. -/
theorem execWord_next {w : Word} {s t : State} (h : execWord w s = .next t) : ∃ e d, t = (s.setEnc e).setDec d := by
  cases hd : decode w with
  | legal i =>
    rw [execWord_of_legal hd] at h
    rcases exec_next h with ⟨_, rfl⟩ | ⟨_, e, rfl⟩ | ⟨_, d, rfl⟩
    exacts [⟨t.enc, t.dec, rfl⟩, ⟨e, s.dec, rfl⟩, ⟨s.enc, d, rfl⟩]
  | illegal u why =>
    rw [execWord_of_illegal hd] at h
    cases h
    rcases illegalCommand_cases u w s with ⟨_, hc⟩ | ⟨_, hc⟩ <;> rw [hc]
    · exact ⟨s.enc, s.dec, rfl⟩
    · cases u with
      | enc => exact ⟨{ s.enc with state := .error, err := .illegalCommand, errCmd := w }, s.dec, rfl⟩
      | dec => exact ⟨s.enc, { s.dec with state := .error, err := .illegalCommand, errCmd := w }, rfl⟩

/-! ### The order of CMDQ -/

/-- An engine turn takes the head off CMDQ exactly where the head is not held (R121, R122). -/
theorem engineStep_cmdq {s t : State} {w : Word} {rest : List Word} (h : engineStep s = .next t)
    (hq : s.cmdq = w :: rest) :
    (held w s = false ∧ t.cmdq = rest) ∨ (held w s = true ∧ t.cmdq = w :: rest) := by
  rcases engineStep_next h with ⟨hempty, _⟩ | ⟨w', rest', hq', ⟨hh, rfl⟩ | ⟨hh, he⟩⟩
  · rw [hempty] at hq
    cases hq
  · rw [hq] at hq'
    cases hq'
    exact .inr ⟨hh, hq⟩
  · rw [hq] at hq'
    cases hq'
    obtain ⟨e, d, rfl⟩ := execWord_next he
    exact .inl ⟨hh, rfl⟩

theorem busRead_cmdq (t : Target) (s : State) : (busRead t s).2.cmdq = s.cmdq := by
  rcases busRead_state t s with hr | hr | ⟨_, b, rest, _, hr⟩ | ⟨_, b, rest, _, hr⟩ <;> rw [hr] <;> rfl

theorem busWrite_cmdq (t : Target) (v : Word) (s : State) :
    (busWrite t v s).cmdq = s.cmdq ∨ (busWrite t v s).cmdq = s.cmdq ++ [v] := by
  rcases busWrite_cases t v s with hw | hw | ⟨_, hw⟩ | ⟨_, _, hw⟩ | ⟨_, _, hw⟩ |
    ⟨_, _, ⟨_, hw⟩ | ⟨_, hw⟩ | ⟨i, _, hw⟩⟩ | ⟨_, _, ⟨sym, _, hw⟩ | ⟨sym, k, _, hw⟩⟩ <;> rw [hw]
  case inr.inr.inr.inl => exact .inr rfl
  all_goals exact .inl rfl

/-- A host access takes no word off CMDQ, and appends at most one (R59). -/
theorem hostAccess_cmdq (a : Access) (s : State) :
    (hostAccess a s).cmdq = s.cmdq ∨ ∃ w, (hostAccess a s).cmdq = s.cmdq ++ [w] := by
  rcases hostAccess_cases a s with ha | ha | ha <;> rw [ha]
  · exact .inl rfl
  · exact (busWrite_cmdq (target a.addr) a.wdata s).imp_right fun hw => ⟨_, hw⟩
  · exact .inl (busRead_cmdq (target a.addr) s)

/-- Settles O10, by the kinds of turn. -/
theorem commandsLeaveTheQueueInOrder : Obligations.CommandsLeaveTheQueueInOrder := by
  intro s t h
  obtain ⟨_, ⟨ht, he⟩ | ⟨ts, ⟨ht, he⟩ | ⟨a, ht, rfl⟩ | ⟨p, ht, rfl⟩⟩⟩ := step_next h
  · exact ⟨fun w rest _ hq => engineStep_cmdq he hq, fun a ts ha => by simp [ht] at ha⟩
  · refine ⟨fun w rest _ hq => ?_, fun a ts' ha => by simp [ht] at ha⟩
    rw [← held_congr w s s.cmdq ts]
    exact engineStep_cmdq he hq
  · refine ⟨fun w rest hturn _ => ?_, fun _ _ _ => hostAccess_cmdq a { s with turns := ts }⟩
    simp [ht] at hturn
  · simp [ht]

/-! ### Unwritten table words -/

/-- A fault that names a table word which has no value. -/
def Fault.Unwritten (m : Memory) (f : Fault) : Prop :=
  ∃ offset, f = .unwrittenTableWord offset ∧ m.readWord offset = none

theorem Memory.readWord_of_read_none {m : Memory} {a : Nat} (h : m.read a = none) : m.readWord a = none := by
  unfold Memory.readWord
  rw [h]
  split
  · rename_i h0
    cases h0
  · rfl

theorem tableWord_of_unwritten {m : Memory} {offset : Nat} (h : m.readWord offset = none) :
    tableWord m offset = .error (.unwrittenTableWord offset) := by
  simp only [tableWord, h]

theorem tableWord_error {m : Memory} {offset : Nat} {f : Fault} (h : tableWord m offset = .error f) : f.Unwritten m := by
  unfold tableWord at h
  split at h <;> cases h
  rename_i hr
  exact ⟨offset, rfl, hr⟩

theorem codeWords_error {m : Memory} {sym : Byte} {n : Nat} {f : Fault} (h : codeWords m sym n = .error f) :
    f.Unwritten m := by
  induction n with
  | zero => cases h
  | succ n ih =>
    simp only [codeWords] at h
    split at h
    · rename_i hlow
      cases h
      exact ih hlow
    · split at h <;> cases h
      rename_i hw
      exact tableWord_error hw

theorem codeRead_error {m : Memory} {sym : Byte} {f : Fault} (h : codeRead m sym = .error f) : f.Unwritten m := by
  unfold codeRead at h
  split at h
  · split at h
    · rename_i hlen
      cases h
      exact ⟨_, rfl, Memory.readWord_of_read_none hlen⟩
    · split at h <;> cases h
      rename_i hw
      exact codeWords_error hw
  · cases h

theorem walkBit_fault {s : State} {b : Bool} {d : DecUnit} {f : Fault} (h : walkBit s b d = .fault f) :
    s.treeValid = true ∧ f.Unwritten s.mem := by
  unfold walkBit at h
  split at h
  · rename_i hv
    refine ⟨hv, ?_⟩
    split at h
    · rename_i hroot
      cases h
      exact tableWord_error hroot
    · split at h
      · cases h
      · split at h
        · rename_i hptr
          cases h
          exact tableWord_error hptr
        · split at h
          · rename_i hchild
            cases h
            exact tableWord_error hchild
          · split at h <;> cases h
  · cases h

theorem walkBits_fault {s : State} {bits : List Bool} {d : DecUnit} {f : Fault} (h : walkBits s bits d = .fault f) :
    s.treeValid = true ∧ f.Unwritten s.mem := by
  induction bits generalizing d with
  | nil => cases h
  | cons b bits ih =>
    simp only [walkBits] at h
    split at h
    · exact ih h
    · cases h
    · rename_i hb
      cases h
      exact walkBit_fault hb

/-- What a command that faults is: one of the two that read tables, in an open stream (R49, R52). -/
theorem exec_fault {i : Instr} {s : State} {f : Fault} (h : exec i s = .fault f) :
    f.Unwritten s.mem ∧
      ((∃ sym, i = .encSym sym ∧ s.enc.state = .active) ∨
        ∃ n data, i = .decBits n data ∧ s.dec.state = .active ∧ s.treeValid = true) := by
  cases i with
  | encSym sym =>
    simp only [exec, execEncSym] at h
    split at h
    · cases h
    · cases h
    · rename_i hs
      split at h <;> cases h
      rename_i hc
      exact ⟨codeRead_error hc, .inl ⟨sym, rfl, hs⟩⟩
  | decBits n data =>
    simp only [exec, execDecBits] at h
    split at h
    · split at h
      · cases h
      · cases h
      · rename_i hs
        split at h <;> cases h
        rename_i hw
        obtain ⟨hv, hf⟩ := walkBits_fault hw
        exact ⟨hf, .inr ⟨n, data, rfl, hs, hv⟩⟩
    · cases h
  | encStart => simp only [exec, execEncStart] at h; split at h <;> cases h
  | encFlush => simp only [exec, execEncFlush] at h; split at h <;> cases h
  | encAbort => simp only [exec, execEncAbort] at h; split at h <;> cases h
  | decStart => simp only [exec, execDecStart] at h; split at h <;> cases h
  | decEnd =>
    simp only [exec, execDecEnd] at h
    split at h
    · cases h
    · cases h
    · split at h
      · cases h
      · split at h <;> cases h
  | decAbort => simp only [exec, execDecAbort] at h; split at h <;> cases h
  | nop => cases h
  | encReset => cases h
  | decReset => cases h

/-- An engine turn faults only by executing a head word that decodes to a command. -/
theorem engineStep_fault {s : State} {f : Fault} (h : engineStep s = .fault f) :
    ∃ w rest i, s.cmdq = w :: rest ∧ decode w = .legal i ∧ exec i { s with cmdq := rest } = .fault f := by
  unfold engineStep at h
  split at h
  · cases h
  · rename_i w rest hq
    split at h
    · cases h
    · cases hd : decode w with
      | legal i => exact ⟨w, rest, i, hq, hd, (execWord_of_legal hd _).symm.trans h⟩
      | illegal u why =>
        rw [execWord_of_illegal hd] at h
        cases h

theorem step_fault {s : State} {f : Fault} (h : step s = .fault f) :
    (s.turns = [] ∨ ∃ ts, s.turns = .engine :: ts) ∧ ∃ ts, engineStep { s with turns := ts } = .fault f := by
  by_cases hb : s.cfg.InBounds
  · cases ht : s.turns with
    | nil =>
      rw [step_of_noTurns hb ht] at h
      exact ⟨.inl rfl, s.turns, h⟩
    | cons turn ts =>
      cases turn with
      | engine =>
        rw [step_of_engine hb ht] at h
        exact ⟨.inr ⟨ts, rfl⟩, ts, h⟩
      | host a =>
        rw [step_of_host hb ht] at h
        cases h
      | reset p =>
        rw [step_of_reset hb ht] at h
        cases h
  · rw [step_of_not_inBounds hb] at h
    cases h

/-- Settles O49: from the step to the engine's turn, to its command, to the table read that found no value. -/
theorem faultsAreUnwrittenTableWords : Obligations.FaultsAreUnwrittenTableWords := by
  intro s f h
  obtain ⟨hturn, ts, he⟩ := step_fault h
  obtain ⟨w, rest, i, hq, hd, hi⟩ := engineStep_fault he
  obtain ⟨⟨offset, hf, hr⟩, hcase⟩ := exec_fault hi
  refine ⟨hturn, offset, w, rest, hf, hr, hq, ?_⟩
  rcases hcase with ⟨sym, rfl, hs⟩ | ⟨n, data, rfl, hs, hv⟩
  · exact .inl ⟨sym, hd, hs⟩
  · exact .inr ⟨n, data, hd, hs, hv⟩

/-- The first bit of a group is bit [7] of its data byte (R75). -/
theorem groupBits_of_pos {n : BitVec 4} (hn : 1 ≤ n.toNat) (data : Byte) :
    ∃ rest, groupBits n data = data.getLsbD 7 :: rest := by
  obtain ⟨k, hk⟩ := Nat.exists_eq_add_of_le' hn
  exact ⟨_, by rw [groupBits, hk, List.range_succ_eq_map, List.map_cons]⟩

/-- A fault at the first bit of a DEC_BITS is the command's. -/
theorem exec_decBits_of_fault {s : State} {n : BitVec 4} {data : Byte} {f : Fault} (hn : LegalCount n)
    (hs : s.dec.state = .active) (h : walkBit s (data.getLsbD 7) s.dec = .fault f) :
    exec (.decBits n data) s = .fault f := by
  obtain ⟨rest, hbits⟩ := groupBits_of_pos hn.1 data
  simp only [exec, execDecBits, if_pos hn, hs, hbits, walkBits, h]

theorem exec_encSym_of_fault {s : State} {sym : Byte} {f : Fault} (hs : s.enc.state = .active)
    (h : codeRead s.mem sym = .error f) : exec (.encSym sym) s = .fault f := by
  simp only [exec, execEncSym, hs, h]

/-- Settles O28, read by read in the order of R111 and R52. -/
theorem engineReadsOfUnwrittenWordsFault : Obligations.EngineReadsOfUnwrittenWordsFault := by
  refine fun s => ⟨fun n data hn hs hv => ⟨fun hroot => ?_, fun r hr hr31 => ?_⟩, ?_, ?_⟩
  · have hread : nodeRead s.mem s.root = .error _ := tableWord_of_unwritten hroot
    exact exec_decBits_of_fault hn hs (by simp only [walkBit, hv, if_true, hread])
  · have hinner : nodeIsLeaf r = false := hr31
    refine ⟨fun hptr => ?_, fun p c hp hc hchild => ?_⟩
    · have hread : nodeRead s.mem s.dec.ptr = .error _ := tableWord_of_unwritten hptr
      exact exec_decBits_of_fault hn hs (by simp [walkBit, hv, hr, hinner, hread])
    · have hnode : c = nodeChild p (data.getLsbD 7) := hc
      have hread : nodeRead s.mem (nodeChild p (data.getLsbD 7)) = .error _ :=
        tableWord_of_unwritten (offset := nodeOffset _) (hnode ▸ hchild)
      rw [hnode]
      exact exec_decBits_of_fault hn hs
        (by simp only [walkBit, hv, hr, hinner, hp, hread, if_true, Bool.false_eq_true, if_false])
  · intro sym hs hv hlen
    exact exec_encSym_of_fault hs (by simp only [codeRead, hv, if_true, hlen])
  · intro sym len k hs hv hlen hk hk' hbefore hword
    have hwords := codeWords_of_unwritten hk (show k ≤ codeWordCount len.toNat from hk') hbefore hword
    exact exec_encSym_of_fault hs (by simp only [codeRead, hv, if_true, hlen, hwords])

/-! ### The register map -/

theorem targetRegister_of_ge {o : Nat} (h : 0x044 ≤ o) : targetRegister o = .reserved := by
  unfold targetRegister
  split <;> try omega
  rfl

/-- The reserved ranges of the map (R18, R43): above the registers, between and above the RAMs, and words 9 to 15 of a
CODE_RAM entry. -/
theorem target_reserved {a : BitVec 16}
    (h : (0x044 ≤ a.toNat ∧ a.toNat < 0x4000) ∨ (0x4800 ≤ a.toNat ∧ a.toNat < 0x8000) ∨ 0xC000 ≤ a.toNat ∨
      (0x8000 ≤ a.toNat ∧ a.toNat < 0xC000 ∧ 36 ≤ a.toNat % 64)) : target a = .reserved := by
  rcases h with ⟨hlo, hhi⟩ | ⟨hlo, hhi⟩ | hlo | ⟨hlo, hhi, hword⟩
  · rw [target_register hhi, targetRegister_of_ge hlo]
  · simp only [target]
    rw [if_neg (by omega), if_neg (by omega), if_pos hhi]
  · simp only [target]
    rw [if_neg (by omega), if_neg (by omega), if_neg (by omega), if_neg (by omega)]
  · rw [target_code hlo hhi]
    simp only [targetCode]
    rw [if_neg (by omega), if_neg (by omega)]

/-- Above the registers the map holds RAM words and reserved offsets only. -/
theorem target_of_ge {a : BitVec 16} (h : 0x4000 ≤ a.toNat) :
    (∃ i, target a = .node i) ∨ (∃ sym, target a = .codeHeader sym) ∨ (∃ sym k, target a = .codeWord sym k) ∨
      target a = .reserved := by
  simp only [target, targetCode]
  rw [if_neg (by omega)]
  split_ifs <;> simp

theorem targetRegister_outputFifo (o : Nat) :
    (targetRegister o = .encOut → o = 0x024) ∧ (targetRegister o = .decOut → o = 0x028) := by
  unfold targetRegister
  split <;> simp

/-- The output FIFO registers stand at their offsets alone (R18). -/
theorem target_outputFifo (a : BitVec 16) :
    (target a = .encOut → a.toNat = 0x024) ∧ (target a = .decOut → a.toNat = 0x028) := by
  by_cases hreg : a.toNat < 0x4000
  · rw [target_register hreg]
    exact targetRegister_outputFifo a.toNat
  · rcases target_of_ge (Nat.le_of_not_lt hreg) with ⟨_, ht⟩ | ⟨_, ht⟩ | ⟨_, _, ht⟩ | ht <;> simp [ht]

/-! ### Writes -/

/-- Settles O43: at a reserved offset and at every register listed `busWrite` is the identity. -/
theorem reservedAndReadOnlyIgnoreWrites : Obligations.ReservedAndReadOnlyIgnoreWrites := by
  intro s a v hal
  refine ⟨fun hres => ?_, fun hro => ?_⟩
  · rw [hostAccess_read hal, hostAccess_write v hal, target_reserved hres]
    exact ⟨rfl, rfl⟩
  · have hreg : target a = targetRegister a.toNat := target_register (by simp at hro; omega)
    rw [hostAccess_write v hal, hreg]
    generalize a.toNat = o at hro
    fin_cases hro <;> rfl

/-- Settles O41: the write to STATUS is `writeStatus`. -/
theorem statusWritesClearStickyFlags : Obligations.StatusWritesClearStickyFlags :=
  fun s v => hostAccess_write v (by decide) s

/-- A configuration write through an open gate (R60) leaves what its register stores, and the answer to it. -/
theorem hostAccess_write_open {u : CodecUnit} {s : State} {a : BitVec 16} {v : Word} {store : State → State}
    (hal : a.toNat % 4 = 0) (hw : busWrite (target a) v s = gatedWrite u store s) (hq : s.cmdq = [])
    (hu : s.unitState u ≠ .active) :
    hostAccess (memWrite a v) s = { store s with bus := some { ack := true, err := false, rdata := none } } := by
  rw [hostAccess_write v hal, hw, gatedWrite, if_pos ⟨hq, hu⟩]
  rfl

/-- Such a write of a RAM word: the word reads back, and every byte outside it is as before. -/
theorem hostAccess_write_ram {u : CodecUnit} {s : State} {a : BitVec 16} {v w : Word} {offset : Nat}
    (hal : a.toNat % 4 = 0)
    (hw : busWrite (target a) v s = gatedWrite u (fun s => { s with mem := s.mem.writeWord offset w }) s)
    (hq : s.cmdq = []) (hu : s.unitState u ≠ .active) :
    ∃ m : Memory,
      hostAccess (memWrite a v) s = { s with mem := m, bus := some { ack := true, err := false, rdata := none } } ∧
      m.readWord offset = some w ∧ ∀ b, (b < offset ∨ offset + 4 ≤ b) → m.read b = s.mem.read b :=
  ⟨s.mem.writeWord offset w, hostAccess_write_open hal hw hq hu, Memory.readWord_writeWord_self _ _ _,
    Memory.read_writeWord_of_outside _ _ _⟩

theorem nodeOffset_aligned (i : NodeIx) : (BitVec.ofNat 16 (nodeOffset i)).toNat % 4 = 0 := by
  rw [BitVec.toNat_ofNat, nodeOffset]
  omega

theorem codeOffset_aligned (sym : Byte) (k : Nat) : (BitVec.ofNat 16 (codeOffset sym k)).toNat % 4 = 0 := by
  rw [BitVec.toNat_ofNat, codeOffset]
  omega

/-- Settles O36, register by register. -/
theorem openGatesStoreConfigurationWrites : Obligations.OpenGatesStoreConfigurationWrites := by
  intro s v hq
  refine ⟨fun hd => ⟨?_, ?_, fun i => ?_⟩, fun he sym k hk => ?_⟩
  · exact hostAccess_write_open (u := .dec) (store := fun s => { s with treeValid := v.getLsbD 0 }) (by decide) rfl hq hd
  · exact hostAccess_write_open (u := .dec) (store := fun s => { s with root := field v 0 9 }) (by decide) rfl hq hd
  · exact hostAccess_write_ram (u := .dec) (nodeOffset_aligned i) (by rw [target_nodeOffset]; rfl) hq hd
  · refine hostAccess_write_ram (u := .enc) (codeOffset_aligned sym k) ?_ hq he
    rw [target_codeOffset sym k hk]
    split
    · rename_i h0
      subst h0
      rfl
    · rfl

/-! ### Reads of the registers -/

/-- Settles O39: only the reads of the output FIFOs change more than the counter of free values. -/
theorem otherReadsHaveNoSideEffect : Obligations.OtherReadsHaveNoSideEffect := by
  intro s a hal henc hdec
  refine ⟨(busRead (target a) s).1, (busRead (target a) s).2.freeIdx, ?_⟩
  rw [hostAccess_read hal]
  rcases busRead_state (target a) s with hr | hr | ⟨ht, _⟩ | ⟨ht, _⟩
  · rw [hr]; rfl
  · rw [hr]; rfl
  · exact absurd ((target_outputFifo a).1 ht) henc
  · exact absurd ((target_outputFifo a).2 ht) hdec

theorem outWord_eq (b : Byte) : outWord b = 0x80000000#32 ||| b.setWidth 32 := by
  revert b
  decide

/-- Settles O38, by whether the FIFO is empty. -/
theorem outputReadsTakeTheHead : Obligations.OutputReadsTakeTheHead := by
  intro s b rest
  rw [hostAccess_read (a := 0x024) (by decide), hostAccess_read (a := 0x028) (by decide), ← outWord_eq,
    show target 0x024 = .encOut from rfl, show target 0x028 = .decOut from rfl]
  refine ⟨fun h => ?_, fun h => ?_, fun h => ?_, fun h => ?_⟩
  · simp only [busRead, readEncOut, h]; rfl
  · simp only [busRead, readEncOut, h]; rfl
  · simp only [busRead, readDecOut, h]; rfl
  · simp only [busRead, readDecOut, h]; rfl

/-- Settles O45: the reads evaluate. -/
theorem resetStateReadsAsTheTableSays : Obligations.ResetStateReadsAsTheTableSays :=
  ⟨rfl, rfl, rfl, rfl, rfl, rfl, rfl, rfl, rfl, rfl, rfl, rfl, rfl, rfl, rfl, rfl, rfl⟩

theorem statusWord_fields (s : State) :
    field (statusWord s) 0 2 = s.enc.state.code ∧ field (statusWord s) 2 2 = s.dec.state.code ∧
      field (statusWord s) 10 3 = s.enc.accN ∧ field (statusWord s) 13 7 = s.enc.acc ∧
      field (statusWord s) 20 12 = 0 := by
  simp (disch := decide) only [field, statusWord, BitVec.extractLsb'_append_eq_of_le,
    BitVec.extractLsb'_append_eq_of_add_le]
  simp

theorem statusWord_flags (s : State) :
    (statusWord s).getLsbD 4 = s.cmdqEmpty ∧ (statusWord s).getLsbD 5 = s.cmdqFull ∧
      (statusWord s).getLsbD 6 = s.cmdLost ∧ (statusWord s).getLsbD 7 = s.cfgDrop ∧
      (statusWord s).getLsbD 8 = s.decAtRoot ∧ (statusWord s).getLsbD 9 = s.dec.seen := by
  simp only [statusWord, BitVec.getLsbD_append]
  simp

theorem errWord_fields (s : State) :
    field (errWord s) 0 4 = s.enc.err.code ∧ field (errWord s) 4 4 = s.dec.err.code ∧ field (errWord s) 8 24 = 0 := by
  simp (disch := decide) only [field, errWord, BitVec.extractLsb'_append_eq_of_le,
    BitVec.extractLsb'_append_eq_of_add_le]
  simp

theorem levelsWord_fields (s : State) :
    field (levelsWord s) 0 8 = BitVec.ofNat 8 s.cmdq.length ∧
      field (levelsWord s) 8 8 = BitVec.ofNat 8 s.enc.out.length ∧
      field (levelsWord s) 16 8 = BitVec.ofNat 8 s.dec.out.length ∧ field (levelsWord s) 24 8 = 0 := by
  simp (disch := decide) only [field, levelsWord, BitVec.extractLsb'_append_eq_of_le,
    BitVec.extractLsb'_append_eq_of_add_le]
  simp

theorem paramsWord_fields (c : Config) :
    field (paramsWord c) 0 8 = BitVec.ofNat 8 c.cmdqDepth ∧ field (paramsWord c) 8 8 = BitVec.ofNat 8 c.encOutDepth ∧
      field (paramsWord c) 16 8 = BitVec.ofNat 8 c.decOutDepth ∧ field (paramsWord c) 24 4 = 8#4 ∧
      field (paramsWord c) 28 4 = 0 := by
  simp (disch := decide) only [field, paramsWord, BitVec.extractLsb'_append_eq_of_le,
    BitVec.extractLsb'_append_eq_of_add_le]
  simp

/-- The unit states are numbered as R26 numbers them. -/
theorem UnitState.code_of_mem {p : UnitState × BitVec 2}
    (hp : p ∈ [(UnitState.idle, 0#2), (.active, 1#2), (.error, 2#2)]) : p.1.code = p.2 := by
  fin_cases hp <;> rfl

/-- The error codes are numbered as R128 numbers them. -/
theorem ErrCode.code_of_mem {p : ErrCode × BitVec 4}
    (hp : p ∈ [(ErrCode.none, 0#4), (.inputUnreadable, 1#4), (.unknownSymbol, 2#4), (.truncatedStream, 3#4),
      (.inconsistentEmptyState, 4#4), (.badCodeEntry, 5#4), (.sequenceError, 6#4), (.illegalCommand, 7#4)]) :
    p.1.code = p.2 := by
  fin_cases hp <;> rfl

/-- Settles O40, register by register. -/
theorem registerReadsGiveTheirFields : Obligations.RegisterReadsGiveTheirFields := by
  intro s
  obtain ⟨hencState, hdecState, haccN, hacc, hst⟩ := statusWord_fields s
  obtain ⟨hempty, hfull, hlost, hdrop, hatRoot, hseen⟩ := statusWord_flags s
  obtain ⟨hencErr, hdecErr, her⟩ := errWord_fields s
  refine ⟨statusWord s, errWord s, levelsWord s, paramsWord s.cfg, rfl, ?_, rfl, rfl, fun p hp => ⟨?_, ?_⟩,
    ⟨?_, ?_, hlost, hdrop, ?_, hseen, haccN, hacc, hst⟩, rfl, fun p hp => ⟨?_, ?_⟩, her, rfl, rfl, rfl,
    levelsWord_fields s, rfl, rfl, rfl, rfl, rfl, rfl, rfl, paramsWord_fields s.cfg⟩
  · rw [readReturns_iff (by decide)]
    show (BitVec.ofBool s.treeValid).setWidth 32 = _
    cases s.treeValid <;> rfl
  · intro h
    rw [hencState, h, UnitState.code_of_mem hp]
  · intro h
    rw [hdecState, h, UnitState.code_of_mem hp]
  · rw [hempty, State.cmdqEmpty, decide_eq_true_iff]
  · rw [hfull, State.cmdqFull, decide_eq_true_iff]
  · rw [hatRoot, State.decAtRoot, decide_eq_true_iff]
  · intro h
    rw [hencErr, h, ErrCode.code_of_mem hp]
  · intro h
    rw [hdecErr, h, ErrCode.code_of_mem hp]

/-! ### Reads of the tables -/

/-- A host read of a RAM word is some word under its mask, the stored one where there is one (R49, R61). -/
theorem readRam_fst (offset : Nat) (mask : Word) (s : State) :
    ∃ w, (readRam offset mask s).1 = w &&& mask ∧ ∀ x, s.mem.readWord offset = some x → w = x := by
  unfold readRam
  split
  · rename_i w hw
    exact ⟨w, rfl, fun x hx => Option.some.inj (hw.symm.trans hx)⟩
  · rename_i hnone
    exact ⟨_, rfl, fun x hx => by rw [hnone] at hx; cases hx⟩

/-- A host read of a header is VALID and some LEN, the stored one where there is one (R42, R49). -/
theorem readHeader_fst (sym : Byte) (s : State) :
    ∃ len : Byte, (readHeader sym s).1 = BitVec.ofBool (codeValid s.mem sym) ++ 0#23 ++ len ∧
      ∀ x, codeLen s.mem sym = some x → len = x := by
  unfold readHeader
  split
  · rename_i len hlen
    exact ⟨len, rfl, fun x hx => Option.some.inj (hlen.symm.trans hx)⟩
  · rename_i hnone
    exact ⟨_, rfl, fun x hx => by rw [hnone] at hx; cases hx⟩

theorem headerWord_reserved (valid : Bool) (len : Byte) :
    (BitVec.ofBool valid ++ 0#23 ++ len : Word) &&& 0x7FFFFF00#32 = 0 := by
  revert valid len
  decide

theorem headerWord_fields (valid : Bool) (len : Byte) :
    (BitVec.ofBool valid ++ 0#23 ++ len : Word).getLsbD 31 = valid ∧
      field (BitVec.ofBool valid ++ 0#23 ++ len : Word) 0 8 = len := by
  constructor
  · simp only [BitVec.getLsbD_append]
    simp
  · simp (disch := decide) only [field, BitVec.extractLsb'_append_eq_of_add_le]
    simp

/-- Settles O42, by the three kinds of table word. -/
theorem tableReadsHaveReservedBitsZero : Obligations.TableReadsHaveReservedBitsZero := by
  refine fun s i sym => ⟨?_, ?_, fun k hk hk' => ?_⟩
  · obtain ⟨w, hw, hstored⟩ := readRam_fst (nodeOffset i) nodeMask s
    refine ⟨w &&& nodeMask, ?_, ?_, fun x hx => by rw [hstored x hx]; rfl⟩
    · rw [← nodeOffset, readReturns_iff (nodeOffset_aligned i), target_nodeOffset]
      exact hw
    · rw [BitVec.and_assoc, show nodeMask &&& 0x7E00FE00#32 = 0#32 by decide, BitVec.and_zero]
      rfl
  · obtain ⟨len, hw, hstored⟩ := readHeader_fst sym s
    obtain ⟨hvalid, hlen⟩ := headerWord_fields (codeValid s.mem sym) len
    refine ⟨_, ?_, headerWord_reserved _ _, hvalid, fun x hx => hlen.trans (hstored x hx)⟩
    show ReadReturns s (BitVec.ofNat 16 (codeOffset sym 0)) _
    rw [readReturns_iff (codeOffset_aligned sym 0), target_codeOffset sym 0 (by omega)]
    exact hw
  · obtain ⟨w, hw, hstored⟩ := readRam_fst (codeOffset sym k) 0xFFFFFFFF#32 s
    refine ⟨w, ?_, hstored⟩
    rw [← codeOffset, readReturns_iff (codeOffset_aligned sym k), target_codeOffset sym k hk', if_neg (by omega)]
    exact hw.trans (BitVec.and_allOnes)

end Sys2Proof.Machine
end

section
/-! Proofs of the memory statements (20_memory.md): which accesses have an effect (R55), the writes to CMD (R59), the gates of
the configuration writes (R60) and the tables they protect (R66), and the packed form of a bit string (R53). -/

namespace Sys2Proof.Machine

open Reference

/-! ### Admission and CMD -/

/-- Settles O33: of the two disjuncts either one excludes the admission. -/
theorem accessesNotAdmittedHaveNoEffect : Obligations.AccessesNotAdmittedHaveNoEffect := by
  intro a s h
  refine hostAccess_of_not_admitted (fun ⟨hsize, hal⟩ => ?_) s
  exact h.elim (fun hne => hne hsize) (fun hne => hne hal)

/-- Settles O34: the write to CMD is `writeCmd`, which asks whether CMDQ has room. -/
theorem cmdWritesAreQueuedOrLost : Obligations.CmdWritesAreQueuedOrLost := by
  intro s w
  have hw : busWrite (target 0x020) w s = writeCmd w s := rfl
  rw [hostAccess_write w (by decide), hw]
  refine ⟨fun hroom => ?_, fun hfull => ?_⟩
  · rw [writeCmd, if_pos hroom]
    rfl
  · rw [writeCmd, if_neg (by omega)]
    rfl

/-! ### Closed gates -/

theorem gatedWrite_closed {u : CodecUnit} {s : State} (store : State → State)
    (hclosed : s.cmdq ≠ [] ∨ s.unitState u = .active) : gatedWrite u store s = { s with cfgDrop := true } := by
  rcases gatedWrite_cases u store s with ⟨hq, hu, _⟩ | ⟨_, hdrop⟩
  · exact absurd hclosed (not_or.mpr ⟨not_not.mpr hq, hu⟩)
  · exact hdrop

/-- CTRL, ROOT and the words of NODE_RAM are behind the decoder's gate (R18, R60). -/
theorem busWrite_decConfig_closed {a : BitVec 16} {s : State} (v : Word)
    (ha : a.toNat = 0x004 ∨ a.toNat = 0x008 ∨ (0x4000 ≤ a.toNat ∧ a.toNat < 0x4800))
    (hclosed : s.cmdq ≠ [] ∨ s.dec.state = .active) : busWrite (target a) v s = { s with cfgDrop := true } := by
  have hdrop := fun store => gatedWrite_closed (u := .dec) store hclosed
  rcases ha with hctrl | hroot | ⟨hlo, hhi⟩
  · rw [target_register (by omega), hctrl, targetRegister, busWrite, hdrop]
  · rw [target_register (by omega), hroot, targetRegister, busWrite, hdrop]
  · rw [target_node hlo hhi, busWrite, hdrop]

/-- Words 0 to 8 of the CODE_RAM entries are behind the encoder's gate (R43, R60). -/
theorem busWrite_encConfig_closed {a : BitVec 16} {s : State} (v : Word)
    (ha : 0x8000 ≤ a.toNat ∧ a.toNat < 0xC000 ∧ a.toNat % 64 < 36)
    (hclosed : s.cmdq ≠ [] ∨ s.enc.state = .active) : busWrite (target a) v s = { s with cfgDrop := true } := by
  have hdrop := fun store => gatedWrite_closed (u := .enc) store hclosed
  obtain ⟨hlo, hhi, hword⟩ := ha
  rw [target_code hlo hhi]
  simp only [targetCode]
  by_cases h0 : a.toNat % 64 / 4 = 0
  · rw [if_pos h0, busWrite, hdrop]
  · rw [if_neg h0, if_pos (by omega), busWrite, hdrop]

/-- Settles O35, by the unit whose gate is closed. -/
theorem closedGatesDropConfigurationWrites : Obligations.ClosedGatesDropConfigurationWrites := by
  intro s a v hal
  rw [hostAccess_write v hal]
  refine ⟨fun ha hclosed => ?_, fun ha hclosed => ?_⟩
  · rw [busWrite_decConfig_closed v ha hclosed]
    rfl
  · rw [busWrite_encConfig_closed v ha hclosed]
    rfl

/-! ### Tables under a stream -/

/-- What a step that is no reset keeps of the tables (R66): CODE_RAM where the encoder's gate is closed; NODE_RAM, ROOT and
TREE_VALID where the decoder's is. -/
def KeepsGatedTables (s t : State) : Prop :=
  ((s.enc.state = .active ∨ s.cmdq ≠ []) → ∀ a, 0x8000 ≤ a → a < 0xC000 → t.mem.read a = s.mem.read a) ∧
    ((s.dec.state = .active ∨ s.cmdq ≠ []) →
      t.root = s.root ∧ t.treeValid = s.treeValid ∧ ∀ a, 0x4000 ≤ a → a < 0x4800 → t.mem.read a = s.mem.read a)

theorem KeepsGatedTables.of_eq {s t : State} (hm : t.mem = s.mem) (hr : t.root = s.root) (hv : t.treeValid = s.treeValid) :
    KeepsGatedTables s t := by
  simp [KeepsGatedTables, hm, hr, hv]

/-- An engine turn writes no table: a command writes the units alone. -/
theorem engineStep_keepsGatedTables {s t : State} (h : engineStep s = .next t) : KeepsGatedTables s t := by
  rcases engineStep_next h with ⟨_, rfl⟩ | ⟨w, rest, _, ⟨_, rfl⟩ | ⟨_, hw⟩⟩
  · exact .of_eq rfl rfl rfl
  · exact .of_eq rfl rfl rfl
  · obtain ⟨e, d, rfl⟩ := execWord_next hw
    exact .of_eq rfl rfl rfl

theorem busRead_keepsGatedTables (t : Target) (s : State) : KeepsGatedTables s (busRead t s).2 := by
  rcases busRead_state t s with hr | hr | ⟨_, b, rest, _, hr⟩ | ⟨_, b, rest, _, hr⟩ <;> rw [hr] <;>
    exact .of_eq rfl rfl rfl

/-- Through the decoder's open gate everything below CODE_RAM may change. -/
theorem KeepsGatedTables.of_decOpen {s t : State} (hq : s.cmdq = []) (hd : s.dec.state ≠ .active)
    (hm : ∀ a, 0x8000 ≤ a → t.mem.read a = s.mem.read a) : KeepsGatedTables s t :=
  ⟨fun _ a hlo _ => hm a hlo, fun hclosed => (hclosed.elim hd (· hq)).elim⟩

/-- Through the encoder's open gate CODE_RAM may change. -/
theorem KeepsGatedTables.of_encOpen {s t : State} (hq : s.cmdq = []) (he : s.enc.state ≠ .active) (hr : t.root = s.root)
    (hv : t.treeValid = s.treeValid) (hm : ∀ a, a < 0x8000 → t.mem.read a = s.mem.read a) : KeepsGatedTables s t :=
  ⟨fun hclosed => (hclosed.elim he (· hq)).elim, fun _ => ⟨hr, hv, fun a _ hhi => hm a (by omega)⟩⟩

theorem Memory.read_writeWord_nodeOffset {m : Memory} (i : NodeIx) (w : Word) {a : Nat} (h : 0x8000 ≤ a) :
    (m.writeWord (nodeOffset i) w).read a = m.read a := by
  have hi := i.isLt
  exact Memory.read_writeWord_of_outside _ _ _ _ (by unfold nodeOffset; omega)

theorem Memory.read_writeWord_codeOffset {m : Memory} (sym : Byte) (k : Nat) (w : Word) {a : Nat} (h : a < 0x8000) :
    (m.writeWord (codeOffset sym k) w).read a = m.read a :=
  Memory.read_writeWord_of_outside _ _ _ _ (by unfold codeOffset; omega)

/-- A write that changed one unit's tables went through that unit's open gate, and the other unit's RAM lies elsewhere. -/
theorem busWrite_keepsGatedTables (t : Target) (v : Word) (s : State) : KeepsGatedTables s (busWrite t v s) := by
  rcases busWrite_cases t v s with hw | hw | ⟨_, hw⟩ | ⟨_, _, hw⟩ | ⟨_, _, hw⟩ |
    ⟨hq, hd, ⟨_, hw⟩ | ⟨_, hw⟩ | ⟨i, _, hw⟩⟩ | ⟨hq, he, ⟨sym, _, hw⟩ | ⟨sym, k, _, hw⟩⟩ <;> rw [hw]
  iterate 5 exact .of_eq rfl rfl rfl
  · exact .of_decOpen hq hd fun _ _ => rfl
  · exact .of_decOpen hq hd fun _ _ => rfl
  · exact .of_decOpen hq hd fun _ => Memory.read_writeWord_nodeOffset i _
  · exact .of_encOpen hq he rfl rfl fun _ => Memory.read_writeWord_codeOffset sym 0 _
  · exact .of_encOpen hq he rfl rfl fun _ => Memory.read_writeWord_codeOffset sym k v

theorem hostAccess_keepsGatedTables (a : Access) (s : State) : KeepsGatedTables s (hostAccess a s) := by
  rcases hostAccess_cases a s with ha | ha | ha <;> rw [ha]
  · exact .of_eq rfl rfl rfl
  · exact busWrite_keepsGatedTables (target a.addr) a.wdata s
  · exact busRead_keepsGatedTables (target a.addr) s

/-- Settles O37, by the kinds of turn: an engine turn, a host access, and the reset that is excluded. -/
theorem tablesAreStableUnderStreams : Obligations.TablesAreStableUnderStreams := by
  intro s t h hreset
  obtain ⟨_, ⟨_, he⟩ | ⟨ts, ⟨_, he⟩ | ⟨a, _, rfl⟩ | ⟨p, ht, _⟩⟩⟩ := step_next h
  · exact engineStep_keepsGatedTables he
  · exact engineStep_keepsGatedTables (s := { s with turns := ts }) he
  · exact hostAccess_keepsGatedTables a { s with turns := ts }
  · exact absurd ht (hreset p ts)

/-! ### Packed bit strings -/

/-- A group over the packed byte of at most 8 bits supplies them, where its count is their number. -/
theorem groupBits_packByte {n : BitVec 4} {bits : List Bool} (hn : n.toNat = bits.length) (h8 : bits.length ≤ 8) :
    groupBits n (packByte bits 0) = bits := by
  refine List.ext_getElem (by rw [groupBits_length, hn]) fun i _ hi => ?_
  have hlane : 7 - i < 8 := by omega
  have hback : 7 - (7 - i) = i := by omega
  simp [groupBits, packByte, getLsbD_byteOfBits, hlane, hback, hi]

/-- The first byte of a packed bit string holds its first 8 bits. -/
theorem pack_append (p bits : List Bool) (hp : p.length = 8) : pack (p ++ bits) = packByte p 0 :: pack bits := by
  rw [pack_eq, packFull_append p bits hp, restBits_append p bits hp, List.cons_append, ← pack_eq]
  simp [packByte]

/-- Fewer than 8 bits are packed into one byte. -/
theorem pack_of_lt {bits : List Bool} (hpos : 0 < bits.length) (h : bits.length < 8) : pack bits = [packByte bits 0] := by
  have hone : (bits.length + 7) / 8 = 1 := by omega
  simp [pack, hone]

/-- DEC_PACKED supplies a full byte as a group of 8 (R81). -/
theorem packedGroups_cons (b : Byte) (B : List Byte) (n : Nat) :
    packedGroups (b :: B) (8 + n) = (8#4, b) :: packedGroups B n := by
  have hdiv : (8 + n) / 8 = n / 8 + 1 := by omega
  have hmod : (8 + n) % 8 = n % 8 := by omega
  simp [packedGroups, hdiv, hmod]

/-- DEC_PACKED supplies fewer than 8 bits as one group of as many (R81). -/
theorem packedGroups_singleton (b : Byte) {n : Nat} (hpos : 0 < n) (h : n < 8) :
    packedGroups [b] n = [(BitVec.ofNat 4 n, b)] := by
  have hdiv : n / 8 = 0 := by omega
  have hmod : n % 8 = n := by omega
  simp [packedGroups, hdiv, hmod, hpos.ne']

theorem packedGroups_legalCount {B : List Byte} {n : Nat} {g : BitVec 4 × Byte} (h : g ∈ packedGroups B n) :
    LegalCount g.1 := by
  rw [packedGroups, List.mem_append, List.mem_map] at h
  rcases h with ⟨b, _, rfl⟩ | h
  · exact (by decide : LegalCount 8#4)
  · split at h
    · cases h
    · rename_i hrest
      rw [List.mem_singleton.mp h, LegalCount, BitVec.toNat_ofNat]
      omega

theorem streamBits_cons (g : BitVec 4 × Byte) (groups : List (BitVec 4 × Byte)) :
    streamBits (g :: groups) = groupBits g.1 g.2 ++ streamBits groups :=
  List.flatMap_cons

/-- Packing and DEC_PACKED are inverse, byte by byte from the front: the first 8 bits, or the fewer that are left. -/
theorem streamBits_packedGroups_pack (bits : List Bool) : streamBits (packedGroups (pack bits) bits.length) = bits := by
  by_cases hnil : bits = []
  · subst hnil
    rfl
  have hpos : 0 < bits.length := List.length_pos_iff.mpr hnil
  by_cases h : bits.length < 8
  · have hn : (BitVec.ofNat 4 bits.length).toNat = bits.length := by
      rw [BitVec.toNat_ofNat]
      omega
    rw [pack_of_lt hpos h, packedGroups_singleton _ hpos h, streamBits_cons, groupBits_packByte hn (by omega)]
    exact List.append_nil bits
  · have hp : (bits.take 8).length = 8 := by rw [List.length_take]; omega
    have hlen : (bits.drop 8).length < bits.length := by rw [List.length_drop]; omega
    have ih := streamBits_packedGroups_pack (bits.drop 8)
    rw [← List.take_append_drop 8 bits, pack_append _ _ hp, List.length_append, hp, packedGroups_cons, streamBits_cons, ih,
      groupBits_packByte (by rw [hp]; rfl) (by omega)]
termination_by bits.length

/-- Settles O52: the groups are read back as packed, and a count is 8 or the bits left over. -/
theorem packedGroupsSupplyTheBits : Obligations.PackedGroupsSupplyTheBits :=
  fun bits => ⟨streamBits_packedGroups_pack bits, fun _ => packedGroups_legalCount⟩

end Sys2Proof.Machine
end

section
/-! Proofs of the encoding statements (30_encoding.md): the decoder and the encoder are inverse (R73, R79), the illegal words
(R77), the bits of a DEC_BITS (R75) and what the assembler gives (R80). -/

namespace Sys2Proof.Machine

open Laws

/-! ### Fields of a command's word -/

/-- The opcode field of a command's word (R73). -/
theorem opField_encode {i : Instr} (h : OpcodeField.Statement i) :
    field (encode i) 28 4 = BitVec.ofNat 4 (OpcodeField.opcode i) := by
  have hop : (encode i).toNat / 2 ^ 28 = OpcodeField.opcode i := h.1
  have hlt := (encode i).isLt
  rw [opField_eq_iff, BitVec.toNat_ofNat]
  omega

/-- A word decodes to a command of format F0 exactly where its bits [27:0] are 0 (R71, R77). -/
theorem decodeF0_legal_iff {i j : Instr} {w : Word} : decodeF0 i w = .legal j ↔ j = i ∧ w.toNat % 2 ^ 28 = 0 := by
  refine ⟨decodeF0_legal, ?_⟩
  rintro ⟨rfl, hz⟩
  exact decodeF0_of_zero hz

/-- A word decodes as format FS exactly where its bits [27:8] are 0 (R74, R77). -/
theorem decodeFS_legal_iff {j : Instr} {w : Word} :
    decodeFS w = .legal j ↔ j = .encSym (field w 0 8) ∧ w.toNat / 2 ^ 8 % 2 ^ 20 = 0 := by
  have hz : field w 8 20 = 0 ↔ w.toNat / 2 ^ 8 % 2 ^ 20 = 0 := field_eq_iff w 8 20 0
  rw [decodeFS, ← hz]
  split
  · rename_i h0
    simp [h0, eq_comm]
  · rename_i h0
    simp only [h0, and_false, reduceCtorEq]

/-- A word decodes as format FB exactly where its bits [27:12] are 0 and its count is legal (R75, R77). -/
theorem decodeFB_legal_iff {j : Instr} {w : Word} :
    decodeFB w = .legal j ↔
      j = .decBits (field w 8 4) (field w 0 8) ∧ w.toNat / 2 ^ 12 % 2 ^ 16 = 0 ∧ LegalCount (field w 8 4) := by
  have hz : field w 12 16 = 0 ↔ w.toNat / 2 ^ 12 % 2 ^ 16 = 0 := field_eq_iff w 12 16 0
  rw [decodeFB, ← hz]
  split
  · rename_i h0
    split
    · rename_i hn
      rw [Decoded.legal.injEq, eq_comm, and_iff_left (And.intro h0 hn)]
    · rename_i hn
      simp only [hn, and_false, reduceCtorEq]
  · rename_i h0
    simp only [h0, false_and, and_false, reduceCtorEq]

/-! ### Decode and encode are inverse -/

theorem decode_encode_encSym (sym : Byte) : decode (encode (.encSym sym)) = .legal (.encSym sym) := by
  have hop : field (encode (.encSym sym)) 28 4 = 0x2#4 := opField_encode (OpcodeField.encSym sym)
  have hw := encode_encSym_toNat sym
  have hlt := sym.isLt
  have hsym : field (encode (.encSym sym)) 0 8 = sym := by rw [field_eq_iff]; omega
  simp only [decode, hop]
  rw [decodeFS_legal_iff, hsym]
  exact ⟨rfl, by omega⟩

theorem decode_encode_decBits {n : BitVec 4} (hn : LegalCount n) (data : Byte) :
    decode (encode (.decBits n data)) = .legal (.decBits n data) := by
  have hop : field (encode (.decBits n data)) 28 4 = 0xA#4 := opField_encode (OpcodeField.decBits n data)
  have hw := encode_decBits_toNat n data
  have hnlt := n.isLt
  have hdlt := data.isLt
  have hcount : field (encode (.decBits n data)) 8 4 = n := by rw [field_eq_iff]; omega
  have hdata : field (encode (.decBits n data)) 0 8 = data := by rw [field_eq_iff]; omega
  simp only [decode, hop]
  rw [decodeFB_legal_iff, hcount, hdata]
  exact ⟨rfl, by omega, hn⟩

/-- The operand of an FI command is the low 28 bits of its word (R76, log 11). -/
theorem field_ignored {w : Word} {x : BitVec 28} {k : Nat} (hw : w.toNat = 2 ^ 28 * k + x.toNat) : field w 0 28 = x := by
  have hlt := x.isLt
  rw [field_eq_iff]
  omega

theorem decode_encode_nop (x : BitVec 28) : decode (encode (.nop x)) = .legal (.nop x) := by
  have hop : field (encode (.nop x)) 28 4 = 0x0#4 := opField_encode (OpcodeField.nop x)
  have hx : field (encode (.nop x)) 0 28 = x := field_ignored (k := 0) (by rw [encode_nop_toNat]; omega)
  simp only [decode, hop, hx]

theorem decode_encode_encReset (x : BitVec 28) : decode (encode (.encReset x)) = .legal (.encReset x) := by
  have hop : field (encode (.encReset x)) 28 4 = 0x5#4 := opField_encode (OpcodeField.encReset x)
  have hx : field (encode (.encReset x)) 0 28 = x := field_ignored (k := 5) (encode_encReset_toNat x)
  simp only [decode, hop, hx]

theorem decode_encode_decReset (x : BitVec 28) : decode (encode (.decReset x)) = .legal (.decReset x) := by
  have hop : field (encode (.decReset x)) 28 4 = 0xD#4 := opField_encode (OpcodeField.decReset x)
  have hx : field (encode (.decReset x)) 0 28 = x := field_ignored (k := 13) (encode_decReset_toNat x)
  simp only [decode, hop, hx]

/-- Settles O1: a command of format F0 has one word, and of the others each field is read back. -/
theorem decodeOfEncodeIsTheCommand : Obligations.DecodeOfEncodeIsTheCommand := by
  intro i hi
  cases i with
  | nop x => exact decode_encode_nop x
  | encSym sym => exact decode_encode_encSym sym
  | encReset x => exact decode_encode_encReset x
  | decBits n data => exact decode_encode_decBits hi data
  | decReset x => exact decode_encode_decReset x
  | encStart | encFlush | encAbort | decStart | decEnd | decAbort => decide

/-- A word that a format F0 row decodes is that row's word. -/
theorem encode_of_decodeF0 {i j : Instr} {w : Word} {op : BitVec 4} (hop : field w 28 4 = op)
    (hi : (encode i).toNat = 2 ^ 28 * op.toNat) (hwf : i.WellFormed) (h : decodeF0 i w = .legal j) :
    encode j = w ∧ j.WellFormed := by
  obtain ⟨rfl, hz⟩ := decodeF0_legal_iff.mp h
  refine ⟨BitVec.eq_of_toNat_eq ?_, hwf⟩
  rw [opField_eq_iff] at hop
  omega

/-- A word is an FI command's where its opcode is. -/
theorem encode_of_ignored {i : Instr} {w : Word} {op : BitVec 4} (hop : field w 28 4 = op)
    (hi : (encode i).toNat = 2 ^ 28 * op.toNat + (field w 0 28).toNat) : encode i = w := by
  refine BitVec.eq_of_toNat_eq ?_
  rw [opField_eq_iff] at hop
  rw [hi, field_toNat]
  omega

theorem encode_of_decodeFS {j : Instr} {w : Word} (hop : field w 28 4 = 0x2#4) (h : decodeFS w = .legal j) :
    encode j = w ∧ j.WellFormed := by
  obtain ⟨rfl, hz⟩ := decodeFS_legal_iff.mp h
  refine ⟨BitVec.eq_of_toNat_eq ?_, trivial⟩
  have hopNat : w.toNat / 2 ^ 28 = 2 := (opField_eq_iff w _).mp hop
  rw [encode_encSym_toNat, field_toNat]
  omega

theorem encode_of_decodeFB {j : Instr} {w : Word} (hop : field w 28 4 = 0xA#4) (h : decodeFB w = .legal j) :
    encode j = w ∧ j.WellFormed := by
  obtain ⟨rfl, hz, hn⟩ := decodeFB_legal_iff.mp h
  refine ⟨BitVec.eq_of_toNat_eq ?_, hn⟩
  have hopNat : w.toNat / 2 ^ 28 = 10 := (opField_eq_iff w _).mp hop
  rw [encode_decBits_toNat, field_toNat, field_toNat]
  omega

/-- Settles O2, by the rows of the opcode map. -/
theorem encodeOfDecodeIsTheWord : Obligations.EncodeOfDecodeIsTheWord := by
  intro w i h
  unfold decode at h
  split at h
  case h_1 hop => cases h; exact ⟨encode_of_ignored hop (by rw [encode_nop_toNat]; simp), trivial⟩
  case h_3 hop => exact encode_of_decodeFS hop h
  case h_6 hop => cases h; exact ⟨encode_of_ignored hop (encode_encReset_toNat _), trivial⟩
  case h_8 hop => exact encode_of_decodeFB hop h
  case h_11 hop => cases h; exact ⟨encode_of_ignored hop (encode_decReset_toNat _), trivial⟩
  case h_2 hop | h_4 hop | h_5 hop | h_7 hop | h_9 hop | h_10 hop => exact encode_of_decodeF0 hop rfl trivial h
  case h_12 => cases h

/-! ### Illegal words -/

/-- What is decoded is a command or illegal, not both. -/
theorem exists_illegal_iff (r : Decoded) : (∃ u why, r = .illegal u why) ↔ ∀ i, r ≠ .legal i := by
  cases r <;> simp

theorem decodeF0_illegal_iff (i : Instr) (w : Word) :
    (∃ u why, decodeF0 i w = .illegal u why) ↔ w.toNat % 2 ^ 28 ≠ 0 := by
  simp [exists_illegal_iff, decodeF0_legal_iff]

theorem decodeFS_illegal_iff (w : Word) :
    (∃ u why, decodeFS w = .illegal u why) ↔ w.toNat / 2 ^ 8 % 2 ^ 20 ≠ 0 := by
  simp [exists_illegal_iff, decodeFS_legal_iff]

theorem decodeFB_illegal_iff (w : Word) :
    (∃ u why, decodeFB w = .illegal u why) ↔ w.toNat / 2 ^ 12 % 2 ^ 16 ≠ 0 ∨
      w.toNat / 2 ^ 8 % 2 ^ 4 = 0 ∨ 8 < w.toNat / 2 ^ 8 % 2 ^ 4 := by
  have hcount : LegalCount (field w 8 4) ↔ ¬ (w.toNat / 2 ^ 8 % 2 ^ 4 = 0 ∨ 8 < w.toNat / 2 ^ 8 % 2 ^ 4) := by
    rw [LegalCount, field_toNat]
    omega
  simp only [exists_illegal_iff, ne_eq, decodeFB_legal_iff, hcount, not_and, not_not, forall_eq]
  exact imp_iff_not_or

/-- The opcodes that no row of the map has (R73). -/
theorem opcode_reserved : ∀ op : BitVec 4, op ≠ 0x0 → op ≠ 0x1 → op ≠ 0x2 → op ≠ 0x3 → op ≠ 0x4 → op ≠ 0x5 → op ≠ 0x9 →
    op ≠ 0xA → op ≠ 0xB → op ≠ 0xC → op ≠ 0xD → op.toNat ∈ [0x6, 0x7, 0x8, 0xE, 0xF] := by
  decide

/-- The five cases of R77, row by row of the opcode map. -/
theorem illegalWord_iff (w : Word) :
    (∃ u why, decode w = .illegal u why) ↔
      (w.toNat / 2 ^ 28 ∈ [0x6, 0x7, 0x8, 0xE, 0xF] ∨
        (w.toNat / 2 ^ 28 ∈ [0x1, 0x3, 0x4, 0x9, 0xB, 0xC] ∧ w.toNat % 2 ^ 28 ≠ 0) ∨
        (w.toNat / 2 ^ 28 = 0x2 ∧ w.toNat / 2 ^ 8 % 2 ^ 20 ≠ 0) ∨
        (w.toNat / 2 ^ 28 = 0xA ∧ w.toNat / 2 ^ 12 % 2 ^ 16 ≠ 0) ∨
        (w.toNat / 2 ^ 28 = 0xA ∧ (w.toNat / 2 ^ 8 % 2 ^ 4 = 0 ∨ 8 < w.toNat / 2 ^ 8 % 2 ^ 4))) := by
  rw [← opField_toNat]
  unfold decode
  split
  case h_1 hop | h_6 hop | h_11 hop => simp [hop]
  case h_3 hop => rw [decodeFS_illegal_iff]; simp [hop]
  case h_8 hop => rw [decodeFB_illegal_iff]; simp [hop]
  case h_2 hop | h_4 hop | h_5 hop | h_7 hop | h_9 hop | h_10 hop => rw [decodeF0_illegal_iff]; simp [hop]
  case h_12 h0 h1 h2 h3 h4 h5 h9 hA hB hC hD =>
    have hres := opcode_reserved (field w 28 4) h0 h1 h2 h3 h4 h5 h9 hA hB hC hD
    exact ⟨fun _ => .inl hres, fun _ => ⟨_, _, rfl⟩⟩

/-- Settles O3: the five cases by the rows of the opcode map, the unit by bit [31]. -/
theorem illegalWordsAreTheFiveCases : Obligations.IllegalWordsAreTheFiveCases :=
  fun w => ⟨illegalWord_iff w, fun _ _ h => decode_illegal_unit h ▸ unitOf_eq_dec_iff w⟩

/-! ### The bits of a DEC_BITS -/

/-- The bits of a group are read from its data byte's bits [7] to [8-N] (R75). -/
theorem groupBits_congr {n : BitVec 4} {data data' : Byte} (hn : n.toNat ≤ 8)
    (h : ∀ j, 8 - n.toNat ≤ j → j ≤ 7 → data.getLsbD j = data'.getLsbD j) : groupBits n data = groupBits n data' := by
  refine List.map_congr_left fun i hi => ?_
  have hlt : i < n.toNat := List.mem_range.mp hi
  exact h (7 - i) (by omega) (by omega)

theorem count_succ_toNat {n : BitVec 4} (hn : n.toNat ≤ 7) : (n + 1).toNat = n.toNat + 1 := by
  show (n + 1#4).toNat = _
  rw [BitVec.toNat_add, BitVec.toNat_ofNat]
  omega

/-- A group of N+1 bits is its first bit and then the group of the N bits that shifting the byte brings to the front. -/
theorem groupBits_succ {n : BitVec 4} (hn : n.toNat ≤ 7) (data : Byte) :
    groupBits (n + 1) data = groupBits 1 data ++ groupBits n (data <<< 1) := by
  have hshift : ∀ i ∈ List.range n.toNat, data.getLsbD (7 - (i + 1)) = (data <<< 1).getLsbD (7 - i) := by
    intro i hi
    have hlt : i < n.toNat := List.mem_range.mp hi
    have hlane : 7 - i < 8 := by omega
    have hpos : ¬ 7 - i < 1 := by omega
    have hprev : 7 - (i + 1) = 7 - i - 1 := by omega
    rw [BitVec.getLsbD_shiftLeft, hprev]
    simp only [hlane, hpos, decide_true, decide_false, Bool.not_false, Bool.true_and]
  rw [groupBits, count_succ_toNat hn, List.range_succ_eq_map, List.map_cons, List.map_map]
  exact congrArg _ (List.map_congr_left hshift)

/-- With a tree a walk ends at its last bit or in a fault. -/
theorem walkBits_of_tree {s : State} (hv : s.treeValid = true) (bits : List Bool) (d : DecUnit) :
    (∃ d', walkBits s bits d = .more d') ∨ ∃ f, walkBits s bits d = .fault f := by
  cases h : walkBits s bits d with
  | more d' => exact .inl ⟨d', rfl⟩
  | fault f => exact .inr ⟨f, rfl⟩
  | raised d' code => simp [(walkBits_raised h).1] at hv

theorem exec_decBits_of_walk_more {s : State} {n : BitVec 4} {data : Byte} {d : DecUnit} (hn : LegalCount n)
    (hs : s.dec.state = .active) (h : walkBits s (groupBits n data) s.dec = .more d) :
    exec (.decBits n data) s = .next (s.setDec d) := by
  simp only [exec, execDecBits, if_pos hn, hs, h]

theorem exec_decBits_of_walk_fault {s : State} {n : BitVec 4} {data : Byte} {f : Fault} (hn : LegalCount n)
    (hs : s.dec.state = .active) (h : walkBits s (groupBits n data) s.dec = .fault f) :
    exec (.decBits n data) s = .fault f := by
  simp only [exec, execDecBits, if_pos hn, hs, h]

/-- Settles O25: against a tree the effect is the walk's, and the walk sees only the bits of the group. -/
theorem unusedDataBitsAreIgnored : Obligations.UnusedDataBitsAreIgnored := by
  intro s n data data' hn hs hv hagree
  have hbits : groupBits n data = groupBits n data' := groupBits_congr hn.2 hagree
  rcases walkBits_of_tree hv (groupBits n data') s.dec with ⟨d, h⟩ | ⟨f, h⟩
  · rw [exec_decBits_of_walk_more hn hs h, exec_decBits_of_walk_more hn hs (hbits ▸ h)]
  · rw [exec_decBits_of_walk_fault hn hs h, exec_decBits_of_walk_fault hn hs (hbits ▸ h)]

/-- A walk reads none of what it writes. -/
theorem walkBits_setDec (s : State) (d : DecUnit) : walkBits (s.setDec d) = walkBits s :=
  funext fun bits => funext fun d' => walkBits_congr (s := s) (s' := s.setDec d) (fun _ => rfl) rfl rfl bits d'

/-- Settles O23: the walk over the group is the walk over its first bit and then over the rest. -/
theorem decBitsRunsBitByBit : Obligations.DecBitsRunsBitByBit := by
  intro s n data hpos hle hs hv
  have hn : LegalCount n := ⟨hpos, by omega⟩
  have hone : LegalCount 1 := by decide
  have hsucc : LegalCount (n + 1) := by
    rw [LegalCount, count_succ_toNat hle]
    omega
  have hwalk := walkBits_append s (groupBits 1 data) (groupBits n (data <<< 1)) s.dec
  rw [← groupBits_succ hle data] at hwalk
  rcases walkBits_of_tree hv (groupBits 1 data) s.dec with ⟨d, h1⟩ | ⟨f, h1⟩
  · have hd : (s.setDec d).dec.state = .active := (walkBits_more h1).1.trans hs
    rw [h1] at hwalk
    rw [execAll, exec_decBits_of_walk_more hone hs h1]
    rcases walkBits_of_tree hv (groupBits n (data <<< 1)) d with ⟨d', h2⟩ | ⟨f, h2⟩
    · rw [exec_decBits_of_walk_more hsucc hs (hwalk.trans h2)]
      simp only [execAll, exec_decBits_of_walk_more hn hd (by rw [walkBits_setDec]; exact h2), State.setDec_setDec]
    · rw [exec_decBits_of_walk_fault hsucc hs (hwalk.trans h2)]
      simp only [execAll, exec_decBits_of_walk_fault hn hd (by rw [walkBits_setDec]; exact h2)]
  · rw [h1] at hwalk
    rw [exec_decBits_of_walk_fault hsucc hs hwalk, execAll, exec_decBits_of_walk_fault hone hs h1]

/-! ### Assembled commands -/

/-- A command as the assembler gives it: its fields are legal, and the ignored bits of an FI command are 0 (R80). -/
def Assembled (i : Instr) : Prop :=
  i.WellFormed ∧ ∀ x, (i = .nop x ∨ i = .encReset x ∨ i = .decReset x) → x = 0

/-- The commands that take no operand (R80). -/
def plainCommands : List Instr :=
  [.nop 0, .encStart, .encFlush, .encAbort, .encReset 0, .decStart, .decEnd, .decAbort, .decReset 0]

theorem plainCommand_mem {m : List Char} {i : Instr} (h : Assembler.plainCommand m = some i) : i ∈ plainCommands := by
  unfold Assembler.plainCommand at h
  split_ifs at h <;> cases h <;> simp [plainCommands]

theorem assembled_of_mem_plainCommands : ∀ i ∈ plainCommands, Assembled i := by
  simp [plainCommands, Assembled, Instr.WellFormed]

theorem assembled_encSymLine {a : List Char} {i : Instr} (h : Assembler.encSymLine a = some i) : Assembled i := by
  unfold Assembler.encSymLine at h
  split at h
  · cases h
    exact ⟨trivial, by simp⟩
  · cases h

theorem countOperand_legalCount {cs : List Char} {n : BitVec 4} (h : Assembler.countOperand cs = some n) :
    LegalCount n := by
  unfold Assembler.countOperand at h
  split at h
  · cases h
  · split at h
    · cases h
      rw [LegalCount, BitVec.toNat_ofNat]
      omega
    · cases h

theorem assembled_decBitsLine {ncs dcs : List Char} {i : Instr} (h : Assembler.decBitsLine ncs dcs = some i) :
    Assembled i := by
  unfold Assembler.decBitsLine at h
  split at h
  · rename_i n d hn hd
    cases h
    exact ⟨countOperand_legalCount hn, by simp⟩
  · cases h

/-- Every command of a line comes from one of the three forms of R80. -/
theorem assembleLine_some {line : List Char} {i : Instr} (h : Assembler.assembleLine line = .ok (some i)) :
    (∃ m, Assembler.plainCommand m = some i) ∨ (∃ a, Assembler.encSymLine a = some i) ∨
      ∃ n d, Assembler.decBitsLine n d = some i := by
  unfold Assembler.assembleLine at h
  split at h
  · cases h
  · split at h
    · rename_i hm
      cases h
      exact .inl ⟨_, hm⟩
    · cases h
  · split at h
    · split at h
      · rename_i ha
        cases h
        exact .inr (.inl ⟨_, ha⟩)
      · cases h
    · cases h
  · split at h
    · split at h
      · rename_i hb
        cases h
        exact .inr (.inr ⟨_, _, hb⟩)
      · cases h
    · cases h
  · cases h

/-- Settles O58, by the form of the line. -/
theorem assembledCommandsAreWellFormed : Obligations.AssembledCommandsAreWellFormed := by
  intro line i h
  rcases assembleLine_some h with ⟨m, hm⟩ | ⟨a, ha⟩ | ⟨n, d, hb⟩
  · exact assembled_of_mem_plainCommands i (plainCommand_mem hm)
  · exact assembled_encSymLine ha
  · exact assembled_decBitsLine hb

/-! ### Words of the opcode map -/

/-- Settles O4: fixed words, decoded. -/
theorem specWordsDecodeAsTheMapSays : Obligations.SpecWordsDecodeAsTheMapSays := by
  unfold Obligations.SpecWordsDecodeAsTheMapSays
  decide

end Sys2Proof.Machine
end

section
/-! Proofs of the statements on the host reference functions (40_host_reference.md): the derived codes (R88, R98), the built
tree (R86) and the round trip over the reference functions (R97). -/

namespace Sys2Proof.Reference

/-! ### Codes below a node

The codes of a node are read off its own paths; a path from further up is put before each of them. -/

theorem walkCodes_eq_map (t : CodeTree) (path : List Bool) :
    walkCodes t path = (walkCodes t []).map fun x => (x.1, path ++ x.2) := by
  induction t generalizing path with
  | leaf s w => simp [walkCodes]
  | internal w l r ihl ihr =>
    simp only [walkCodes]
    rw [ihl (path ++ [false]), ihr (path ++ [true]), ihl ([] ++ [false]), ihr ([] ++ [true])]
    simp [Function.comp_def]

theorem walkCodes_internal (w : Nat) (l r : CodeTree) :
    walkCodes (.internal w l r) [] =
      ((walkCodes l []).map fun x => (x.1, false :: x.2)) ++ (walkCodes r []).map fun x => (x.1, true :: x.2) := by
  rw [walkCodes, walkCodes_eq_map l, walkCodes_eq_map r]
  rfl

/-- A key of an internal node is a key of the child that the first bit of its code selects. -/
theorem mem_walkCodes_internal {w : Nat} {l r : CodeTree} {s : Byte} {code : List Bool} :
    (s, code) ∈ walkCodes (.internal w l r) [] ↔
      ∃ b rest, code = b :: rest ∧ (s, rest) ∈ walkCodes ((CodeTree.internal w l r).child b) [] := by
  rw [walkCodes_internal, List.mem_append, List.mem_map, List.mem_map]
  constructor
  · rintro (⟨x, hx, he⟩ | ⟨x, hx, he⟩) <;> cases he
    · exact ⟨false, x.2, rfl, hx⟩
    · exact ⟨true, x.2, rfl, hx⟩
  · rintro ⟨b, rest, rfl, h⟩
    cases b with
    | false => exact .inl ⟨(s, rest), h, rfl⟩
    | true => exact .inr ⟨(s, rest), h, rfl⟩

/-! ### No code begins with another -/

/-- Of two codes neither begins with the other (R98 (a)). -/
def Apart (a b : Byte × List Bool) : Prop := ¬ a.2 <+: b.2 ∧ ¬ b.2 <+: a.2

theorem apart_cons_iff (x y : Byte × List Bool) (b : Bool) :
    Apart (x.1, b :: x.2) (y.1, b :: y.2) ↔ Apart x y := by
  simp [Apart, List.cons_prefix_cons]

theorem walkCodes_pairwise_apart (t : CodeTree) : (walkCodes t []).Pairwise Apart := by
  induction t with
  | leaf s w => exact List.pairwise_singleton _ _
  | internal w l r ihl ihr =>
    rw [walkCodes_internal, List.pairwise_append, List.pairwise_map, List.pairwise_map]
    refine ⟨ihl.imp fun h => (apart_cons_iff _ _ _).mpr h, ihr.imp fun h => (apart_cons_iff _ _ _).mpr h, ?_⟩
    intro x hx y hy
    obtain ⟨x', _, rfl⟩ := List.mem_map.mp hx
    obtain ⟨y', _, rfl⟩ := List.mem_map.mp hy
    simp [Apart, List.cons_prefix_cons]

/-- Settles O56, by induction on the tree: codes of one child differ below it, codes of two children in their first bit. -/
theorem derivedCodesArePrefixFree : Obligations.DerivedCodesArePrefixFree :=
  fun w l r => walkCodes_pairwise_apart (.internal w l r)

/-! ### The builder keeps every additive measure

The weight of a tree, its number of leaves and the number of its leaves with one symbol are such measures. -/

/-- A measure of trees that the merging loop of R86 adds up. -/
def Additive (μ : CodeTree → Nat) : Prop :=
  ∀ l r : CodeTree, μ (.internal (l.weight + r.weight) l r) = μ l + μ r

/-- The measure of all trees in the queue. -/
def queueSum (μ : CodeTree → Nat) (q : List QueueEntry) : Nat := (q.map fun e => μ e.tree).sum

/-- The measure of the leaves that a frequency table gives. -/
def tableSum (μ : CodeTree → Nat) (freq : FrequencyTable) : Nat := (freq.map fun e => μ (.leaf e.1 e.2)).sum

theorem enqueue_perm (e : QueueEntry) (q : List QueueEntry) : (enqueue e q).Perm (e :: q) := by
  induction q with
  | nil => exact .refl _
  | cons x q ih =>
    rw [enqueue]
    split
    · exact .refl _
    · exact (ih.cons x).trans (.swap e x q)

theorem queueSum_enqueue (μ : CodeTree → Nat) (e : QueueEntry) (q : List QueueEntry) :
    queueSum μ (enqueue e q) = μ e.tree + queueSum μ q :=
  ((enqueue_perm e q).map _).sum_eq

theorem enqueueLeaves_length (seq : Nat) (freq : FrequencyTable) (q : List QueueEntry) :
    (enqueueLeaves seq freq q).length = freq.length + q.length := by
  induction freq generalizing seq q with
  | nil => simp [enqueueLeaves]
  | cons e freq ih =>
    rw [enqueueLeaves, ih, (enqueue_perm _ q).length_eq, List.length_cons, List.length_cons]
    omega

theorem queueSum_enqueueLeaves (μ : CodeTree → Nat) (seq : Nat) (freq : FrequencyTable) (q : List QueueEntry) :
    queueSum μ (enqueueLeaves seq freq q) = tableSum μ freq + queueSum μ q := by
  induction freq generalizing seq q with
  | nil => simp [enqueueLeaves, tableSum]
  | cons e freq ih =>
    rw [enqueueLeaves, ih, queueSum_enqueue]
    simp only [tableSum, List.map_cons, List.sum_cons]
    omega

/-- With enough rounds the merging loop ends in one tree, unless the queue is empty. -/
theorem mergeAll_isSome {rounds seq : Nat} {q : List QueueEntry} (h : q.length ≤ rounds + 1) :
    mergeAll rounds seq q = none ↔ q = [] := by
  induction rounds generalizing seq q with
  | zero =>
    match q, h with
    | [], _ => simp [mergeAll]
    | [e], _ => simp [mergeAll]
  | succ rounds ih =>
    match q, h with
    | [], _ => simp [mergeAll]
    | [e], _ => simp [mergeAll]
    | t1 :: t2 :: q, h =>
      have hlen := fun e => (enqueue_perm e q).length_eq
      rw [mergeAll, ih (by rw [hlen]; simpa using h), ← List.length_eq_zero_iff, hlen]
      simp

theorem mergeAll_measure {μ : CodeTree → Nat} (hμ : Additive μ) {rounds seq : Nat} {q : List QueueEntry} {t : CodeTree}
    (h : mergeAll rounds seq q = some t) : μ t = queueSum μ q := by
  induction rounds generalizing seq q with
  | zero =>
    match q, h with
    | [e], h => cases h; simp [queueSum]
  | succ rounds ih =>
    match q, h with
    | [e], h => cases h; simp [queueSum]
    | t1 :: t2 :: q, h =>
      rw [ih h, queueSum_enqueue, hμ]
      simp only [queueSum, List.map_cons, List.sum_cons]
      omega

theorem build_eq_none_iff (freq : FrequencyTable) : build freq = none ↔ freq = [] := by
  have hlen := enqueueLeaves_length 0 freq []
  rw [build, mergeAll_isSome (by rw [hlen]; simp), ← List.length_eq_zero_iff, hlen]
  simp

theorem build_measure {μ : CodeTree → Nat} (hμ : Additive μ) {freq : FrequencyTable} {t : CodeTree}
    (h : build freq = some t) : μ t = tableSum μ freq := by
  rw [mergeAll_measure hμ h, queueSum_enqueueLeaves]
  simp [queueSum]

/-! ### The frequency table of a sequence -/

theorem mem_allSymbols (s : Byte) : s ∈ allSymbols :=
  List.mem_map.mpr ⟨s.toNat, List.mem_range.mpr s.isLt, by simp⟩

theorem allSymbols_nodup : allSymbols.Nodup := by
  refine List.nodup_range.map_on fun a ha b hb h => ?_
  have h' := congrArg BitVec.toNat h
  rw [BitVec.toNat_ofNat, BitVec.toNat_ofNat] at h'
  rw [List.mem_range] at ha hb
  omega

/-- The frequency table lists the symbols of the sequence, rising, each with its count. -/
theorem count_eq (S : List Byte) : count S = (allSymbols.filter (· ∈ S)).map fun s => (s, S.count s) := by
  rw [count, allSymbols, ← List.filterMap_eq_map, ← List.filterMap_eq_filter, List.filterMap_filterMap,
    List.filterMap_map]
  refine List.filterMap_congr fun k _ => ?_
  by_cases h : BitVec.ofNat 8 k ∈ S <;> simp [Option.guard, List.count_eq_zero, h]

theorem mem_count {S : List Byte} {e : Byte × Nat} : e ∈ count S ↔ e.1 ∈ S ∧ e.2 = S.count e.1 := by
  obtain ⟨s, n⟩ := e
  simp [count_eq, mem_allSymbols, eq_comm]

theorem count_length_le (S : List Byte) : (count S).length ≤ 256 := by
  rw [count_eq, List.length_map]
  exact (List.length_filter_le _ _).trans_eq (by simp [allSymbols])

theorem count_eq_nil_iff (S : List Byte) : count S = [] ↔ S = [] := by
  rw [count_eq, List.map_eq_nil_iff, List.filter_eq_nil_iff, List.eq_nil_iff_forall_not_mem]
  simp [mem_allSymbols]

/-- The counts of a frequency table add up to the length of the sequence (R85). -/
theorem tableSum_weight_count (S : List Byte) : tableSum CodeTree.weight (count S) = S.length := by
  have hkeys : (allSymbols.filter (· ∈ S)).Perm S.dedup :=
    (List.perm_ext_iff_of_nodup (allSymbols_nodup.filter _) S.nodup_dedup).mpr fun s => by simp [mem_allSymbols]
  calc tableSum CodeTree.weight (count S)
      = ((allSymbols.filter (· ∈ S)).map (S.count ·)).sum := by
        rw [tableSum, count_eq, List.map_map]
        rfl
    _ = (S.dedup.map (S.count ·)).sum := (hkeys.map _).sum_eq
    _ = S.length := List.sum_map_count_dedup_eq_length S

theorem build_count_eq_none_iff (S : List Byte) : build (count S) = none ↔ S = [] :=
  (build_eq_none_iff _).trans (count_eq_nil_iff S)

/-- Settles O57: the builder keeps the sum of the weights, and it gives no tree only for the empty table. -/
theorem builtTreesWeighTheSequence : Obligations.BuiltTreesWeighTheSequence :=
  fun S => ⟨build_count_eq_none_iff S, fun _ h => (build_measure (fun _ _ => rfl) h).trans (tableSum_weight_count S)⟩

/-! ### The leaves of a built tree -/

/-- The number of leaves of a tree. -/
def CodeTree.leaves : CodeTree → Nat
  | .leaf _ _ => 1
  | .internal _ l r => l.leaves + r.leaves

/-- The number of leaves of a tree that carry a symbol. -/
def CodeTree.occurrences (sym : Byte) : CodeTree → Nat
  | .leaf s _ => if s = sym then 1 else 0
  | .internal _ l r => l.occurrences sym + r.occurrences sym

theorem CodeTree.size_add_one (t : CodeTree) : t.size + 1 = 2 * t.leaves := by
  induction t with
  | leaf s w => rfl
  | internal w l r ihl ihr =>
    rw [CodeTree.size, CodeTree.leaves]
    omega

/-- A code is shorter than the number of leaves: each of its bits passes one by. -/
theorem length_lt_leaves_of_mem_walkCodes {t : CodeTree} {s : Byte} {code : List Bool}
    (h : (s, code) ∈ walkCodes t []) : code.length < t.leaves := by
  induction t generalizing code with
  | leaf s' w =>
    cases List.mem_singleton.mp h
    exact Nat.one_pos
  | internal w l r ihl ihr =>
    have hl := l.size_add_one
    have hr := r.size_add_one
    obtain ⟨b, rest, rfl, hchild⟩ := mem_walkCodes_internal.mp h
    rw [List.length_cons, CodeTree.leaves]
    cases b with
    | false => have := ihl hchild; omega
    | true => have := ihr hchild; omega

theorem exists_walkCodes_of_occurrences {t : CodeTree} {s : Byte} (h : 0 < t.occurrences s) :
    ∃ code, (s, code) ∈ walkCodes t [] := by
  induction t with
  | leaf s' w =>
    by_cases hs : s' = s
    · exact ⟨[], by simp [walkCodes, hs]⟩
    · simp [CodeTree.occurrences, hs] at h
  | internal w l r ihl ihr =>
    rw [CodeTree.occurrences, Nat.add_pos_iff_pos_or_pos] at h
    rcases h with h | h
    · obtain ⟨code, hc⟩ := ihl h
      exact ⟨false :: code, mem_walkCodes_internal.mpr ⟨_, _, rfl, hc⟩⟩
    · obtain ⟨code, hc⟩ := ihr h
      exact ⟨true :: code, mem_walkCodes_internal.mpr ⟨_, _, rfl, hc⟩⟩

theorem build_leaves {freq : FrequencyTable} {t : CodeTree} (h : build freq = some t) : t.leaves = freq.length := by
  rw [build_measure (μ := CodeTree.leaves) (fun _ _ => rfl) h, tableSum]
  simp [CodeTree.leaves]

/-- Every symbol of a frequency table stands at a leaf of the tree built from it. -/
theorem build_occurrences_pos {freq : FrequencyTable} {t : CodeTree} {s : Byte} {n : Nat} (h : build freq = some t)
    (hs : (s, n) ∈ freq) : 0 < t.occurrences s := by
  rw [build_measure (μ := CodeTree.occurrences s) (fun _ _ => rfl) h, tableSum, Nat.pos_iff_ne_zero, Ne,
    List.sum_eq_zero_iff]
  intro hz
  have := hz _ (List.mem_map.mpr ⟨_, hs, rfl⟩)
  simp [CodeTree.occurrences] at this

/-! ### Derived tables -/

/-- A code has a bit, as a single leaf gets the code 1 (R88), and no more bits than its path has nodes above the leaf. -/
theorem mem_derive {t : CodeTree} {s : Byte} {code : List Bool} (h : (s, code) ∈ derive (some t)) :
    1 ≤ code.length ∧ code.length ≤ max 1 (t.leaves - 1) := by
  cases t with
  | leaf s' w =>
    cases List.mem_singleton.mp h
    exact ⟨le_refl 1, le_refl 1⟩
  | internal w l r =>
    obtain ⟨b, rest, rfl, _⟩ := (mem_walkCodes_internal (w := w)).mp h
    have hlt := length_lt_leaves_of_mem_walkCodes h
    exact ⟨Nat.succ_pos _, by omega⟩

theorem exists_derive_of_occurrences {t : CodeTree} {s : Byte} (h : 0 < t.occurrences s) :
    ∃ code, (s, code) ∈ derive (some t) := by
  cases t with
  | leaf s' w =>
    obtain ⟨code, hc⟩ := exists_walkCodes_of_occurrences h
    cases List.mem_singleton.mp hc
    exact ⟨[true], List.mem_singleton_self _⟩
  | internal w l r => exact exists_walkCodes_of_occurrences h

theorem walkCodes_shape (t : CodeTree) (path : List Bool) : walkCodes t.shape path = walkCodes t path := by
  induction t generalizing path with
  | leaf s w => rfl
  | internal w l r ihl ihr => simp only [CodeTree.shape, walkCodes, ihl, ihr]

/-- Weights do not matter to the codes. -/
theorem derive_shape (t : CodeTree) : derive (some t.shape) = derive (some t) := by
  cases t with
  | leaf s w => rfl
  | internal w l r => exact walkCodes_shape (.internal w l r) []

theorem derive_map_shape (tree : Option CodeTree) : derive (tree.map CodeTree.shape) = derive tree := by
  cases tree with
  | none => rfl
  | some t => exact derive_shape t

theorem mem_of_view {table : CodeTable} {s : Byte} {code : List Bool} (h : table.view s = some code) :
    (s, code) ∈ table := by
  obtain ⟨l₁, l₂, rfl, _⟩ := List.lookup_eq_some_iff.mp h
  simp

theorem exists_view_of_mem {table : CodeTable} {s : Byte} {code : List Bool} (h : (s, code) ∈ table) :
    ∃ code', table.view s = some code' :=
  Option.isSome_iff_exists.mp (List.lookup_isSome_iff.mpr ⟨_, h, beq_self_eq_true s⟩)

/-- A derived table has a code for every symbol of the sequence that its tree was built from. -/
theorem exists_view_derive_build {S : List Byte} {s : Byte} (h : s ∈ S) :
    ∃ code, CodeTable.view (derive (build (count S))) s = some code := by
  have hs : (s, S.count s) ∈ count S := mem_count.mpr ⟨h, rfl⟩
  cases hb : build (count S) with
  | none =>
    rw [(build_eq_none_iff _).mp hb] at hs
    cases hs
  | some t =>
    obtain ⟨code, hc⟩ := exists_derive_of_occurrences (build_occurrences_pos hb hs)
    exact exists_view_of_mem hc

/-! ### Encoding and walking -/

theorem encodeFrom_cons {view : Byte → Option (List Bool)} {i : Nat} {s : Byte} {S : List Byte} {bits : List Bool} :
    encodeFrom view i (s :: S) = .ok bits ↔
      ∃ code rest, view s = some code ∧ encodeFrom view (i + 1) S = .ok rest ∧ bits = code ++ rest := by
  rw [encodeFrom]
  cases view s with
  | none => simp
  | some code =>
    cases encodeFrom view (i + 1) S with
    | error j => simp
    | ok rest => simp [eq_comm]

theorem exists_encodeFrom {view : Byte → Option (List Bool)} {S : List Byte} (i : Nat)
    (h : ∀ s ∈ S, ∃ code, view s = some code) : ∃ bits, encodeFrom view i S = .ok bits := by
  induction S generalizing i with
  | nil => exact ⟨[], rfl⟩
  | cons s S ih =>
    obtain ⟨code, hc⟩ := h s List.mem_cons_self
    obtain ⟨rest, hr⟩ := ih (i + 1) fun x hx => h x (List.mem_cons_of_mem s hx)
    exact ⟨code ++ rest, encodeFrom_cons.mpr ⟨code, rest, hc, hr, rfl⟩⟩

/-- From an internal node, the walk of R90 over a code of a leaf below it emits the leaf's symbol and goes on at the
root. -/
theorem walk_walkCodes {T p : CodeTree} (hT : ∃ w l r, T = .internal w l r) (hp : ∃ w l r, p = .internal w l r)
    {s : Byte} {code : List Bool} (h : (s, code) ∈ walkCodes p []) (bits : List Bool) :
    walk T p (code ++ bits) = (s :: (walk T T bits).1, (walk T T bits).2) := by
  obtain ⟨w, l, r, rfl⟩ := hT
  induction p generalizing code with
  | leaf s' w' => obtain ⟨_, _, _, hp⟩ := hp; cases hp
  | internal w' l' r' ihl ihr =>
    obtain ⟨b, rest, rfl, hchild⟩ := mem_walkCodes_internal.mp h
    have ih : ∀ w'' l'' r'', (CodeTree.internal w' l' r').child b = .internal w'' l'' r'' →
        walk (.internal w l r) (.internal w'' l'' r'') (rest ++ bits) =
          (s :: (walk (.internal w l r) (.internal w l r) bits).1,
            (walk (.internal w l r) (.internal w l r) bits).2) := by
      intro w'' l'' r'' hc
      rw [← hc]
      cases b with
      | false => exact ihl ⟨_, _, _, hc⟩ hchild
      | true => exact ihr ⟨_, _, _, hc⟩ hchild
    rw [List.cons_append, walk]
    cases hc : (CodeTree.internal w' l' r').child b with
    | leaf s' w'' =>
      rw [hc] at hchild
      cases List.mem_singleton.mp hchild
      rfl
    | internal w'' l'' r'' => exact ih _ _ _ hc

/-- The walk of R90 from the root over a derived code emits its symbol and returns to the root. -/
theorem walk_code {t : CodeTree} {s : Byte} {code : List Bool} (h : (s, code) ∈ derive (some t)) (bits : List Bool) :
    walk t t (code ++ bits) = (s :: (walk t t bits).1, (walk t t bits).2) := by
  cases t with
  | leaf s' w =>
    cases List.mem_singleton.mp h
    rfl
  | internal w l r => exact walk_walkCodes ⟨w, l, r, rfl⟩ ⟨w, l, r, rfl⟩ h bits

/-- The walk of R90 over what R89 makes of a sequence gives the sequence back and ends at the root. -/
theorem walk_encodeFrom {t : CodeTree} {i : Nat} {S : List Byte} {bits : List Bool}
    (h : encodeFrom (CodeTable.view (derive (some t))) i S = .ok bits) : walk t t bits = (S, t) := by
  induction S generalizing i bits with
  | nil =>
    cases h
    rfl
  | cons s S ih =>
    obtain ⟨code, rest, hc, hr, rfl⟩ := encodeFrom_cons.mp h
    rw [walk_code (mem_of_view hc), ih hr]

/-- The encoding of a sequence that is not empty has a bit. -/
theorem encodeFrom_ne_nil {t : CodeTree} {i : Nat} {S : List Byte} {bits : List Bool}
    (h : encodeFrom (CodeTable.view (derive (some t))) i S = .ok bits) (hS : S ≠ []) : bits ≠ [] := by
  cases S with
  | nil => exact absurd rfl hS
  | cons s S =>
    obtain ⟨code, rest, hc, _, rfl⟩ := encodeFrom_cons.mp h
    have := (mem_derive (mem_of_view hc)).1
    exact List.append_ne_nil_of_left_ne_nil (List.ne_nil_of_length_pos this) rest

theorem exists_encodeRef (S : List Byte) :
    ∃ bits, encodeRef (CodeTable.view (derive (build (count S)))) S = .ok bits :=
  exists_encodeFrom 0 fun _ hs => exists_view_derive_build hs

/-- decode_ref gives back what encode_ref made of a sequence with the tree's own table (R97); no tree goes with the empty
sequence alone. -/
theorem decodeRef_of_encodeRef {tree : Option CodeTree} {S : List Byte} {bits : List Bool} (hS : tree = none ↔ S = [])
    (h : encodeRef (CodeTable.view (derive tree)) S = .ok bits) : decodeRef tree bits = .ok S := by
  cases tree with
  | none =>
    cases hS.mp rfl
    cases h
    rfl
  | some t =>
    have hne : bits ≠ [] := encodeFrom_ne_nil h (by simpa using hS)
    rw [decodeRef, if_neg hne, walk_encodeFrom h, if_pos rfl]

/-- Settles O53: the walk of decode_ref over the codes of the sequence emits it, symbol by symbol, and ends at the root. -/
theorem referenceRoundTrip : Obligations.ReferenceRoundTrip := by
  intro S
  obtain ⟨bits, h⟩ := exists_encodeRef S
  exact ⟨bits, h, decodeRef_of_encodeRef (build_count_eq_none_iff S) h⟩

end Sys2Proof.Reference
end

section
/-! Proof of the statement on loading (R91-R93): the writes of a load leave the tree in NODE_RAM and the table in
CODE_RAM. -/

namespace Sys2Proof.Machine

open Reference

/-! ### Configuration writes through open gates -/

/-- CMDQ is empty and no unit is ACTIVE: the gates of R60 are open. -/
structure State.GatesOpen (s : State) : Prop where
  queue : s.cmdq = []
  enc : s.enc.state ≠ .active
  dec : s.dec.state ≠ .active

/-- A write to CTRL, ROOT or a RAM word (R60). -/
def ConfigWrite (w : Write) : Prop :=
  w.1.toNat % 4 = 0 ∧ (target w.1 = .ctrl ∨ target w.1 = .root ∨ (∃ i, target w.1 = .node i) ∨
    (∃ sym, target w.1 = .codeHeader sym) ∨ ∃ sym k, target w.1 = .codeWord sym k)

/-- The RAM word that a write stores: its offset and the bits kept of it (R40, R42). -/
def ramWord (w : Write) : Option (Nat × Word) :=
  match target w.1 with
  | .node i => some (nodeOffset i, w.2 &&& nodeMask)
  | .codeHeader sym => some (codeOffset sym 0, w.2 &&& headerMask)
  | .codeWord sym k => some (codeOffset sym k, w.2)
  | _ => none

/-- The RAMs after a write through an open gate. -/
def storeRam (m : Memory) (w : Write) : Memory :=
  match ramWord w with
  | some (offset, v) => m.writeWord offset v
  | none => m

theorem hostAccess_configWrite {w : Write} {s : State} (hw : ConfigWrite w) (hs : s.GatesOpen) :
    ∃ (valid : Bool) (root : NodeIx), hostAccess (memWrite w.1 w.2) s =
      { s with treeValid := valid, root := root, mem := storeRam s.mem w,
               bus := some { ack := true, err := false, rdata := none } } := by
  obtain ⟨hal, ht | ht | ⟨i, ht⟩ | ⟨sym, ht⟩ | ⟨sym, k, ht⟩⟩ := hw <;>
    simp only [storeRam, ramWord, ht]
  · exact ⟨w.2.getLsbD 0, s.root, hostAccess_write_open (u := .dec)
      (store := fun s => { s with treeValid := w.2.getLsbD 0 }) hal (by rw [ht]; rfl) hs.queue hs.dec⟩
  · exact ⟨s.treeValid, field w.2 0 9, hostAccess_write_open (u := .dec)
      (store := fun s => { s with root := field w.2 0 9 }) hal (by rw [ht]; rfl) hs.queue hs.dec⟩
  · exact ⟨s.treeValid, s.root, hostAccess_write_open (u := .dec)
      (store := fun s => { s with mem := s.mem.writeWord (nodeOffset i) (w.2 &&& nodeMask) }) hal (by rw [ht]; rfl)
      hs.queue hs.dec⟩
  · exact ⟨s.treeValid, s.root, hostAccess_write_open (u := .enc)
      (store := fun s => { s with mem := s.mem.writeWord (codeOffset sym 0) (w.2 &&& headerMask) }) hal (by rw [ht]; rfl)
      hs.queue hs.enc⟩
  · exact ⟨s.treeValid, s.root, hostAccess_write_open (u := .enc)
      (store := fun s => { s with mem := s.mem.writeWord (codeOffset sym k) w.2 }) hal (by rw [ht]; rfl)
      hs.queue hs.enc⟩

/-- Configuration writes through open gates change TREE_VALID, ROOT, the RAMs and the bus answer alone. -/
theorem writeAll_configWrites {ws : List Write} {s : State} (hws : ∀ w ∈ ws, ConfigWrite w) (hs : s.GatesOpen) :
    ∃ (valid : Bool) (root : NodeIx) (bus : Option Response), writeAll ws s =
      { s with treeValid := valid, root := root, mem := ws.foldl storeRam s.mem, bus := bus } := by
  induction ws generalizing s with
  | nil => exact ⟨s.treeValid, s.root, s.bus, rfl⟩
  | cons w ws ih =>
    obtain ⟨valid, root, h⟩ := hostAccess_configWrite (hws w List.mem_cons_self) hs
    rw [writeAll, h]
    exact ih (fun x hx => hws x (List.mem_cons_of_mem w hx)) ⟨hs.queue, hs.enc, hs.dec⟩

theorem writeAll_append (ws ws' : List Write) (s : State) : writeAll (ws ++ ws') s = writeAll ws' (writeAll ws s) := by
  induction ws generalizing s with
  | nil => rfl
  | cons w ws ih => exact ih _

/-- A RAM word that some write stores reads back in the end, where all writes of its offset store the same word. -/
theorem readWord_foldl_storeRam {ws : List Write} {image : Nat → Word}
    (himage : ∀ w ∈ ws, ∀ offset v, ramWord w = some (offset, v) → offset % 4 = 0 ∧ v = image offset)
    {w : Write} (hw : w ∈ ws) {offset : Nat} {v : Word} (hv : ramWord w = some (offset, v)) (m : Memory) :
    (ws.foldl storeRam m).readWord offset = some v := by
  obtain ⟨hal, rfl⟩ := himage w hw offset v hv
  induction ws using List.reverseRecOn with
  | nil => cases hw
  | append_singleton ws x ih =>
    have ih' := ih fun y hy => himage y (List.mem_append_left _ hy)
    rw [List.foldl_append, List.foldl_cons, List.foldl_nil]
    cases hx : ramWord x with
    | none =>
      have hne : w ≠ x := by rintro rfl; rw [hx] at hv; cases hv
      simpa only [storeRam, hx] using ih' (by simpa [hne] using hw)
    | some y =>
      obtain ⟨offset', v'⟩ := y
      obtain ⟨hal', rfl⟩ := himage x (by simp) offset' v' hx
      simp only [storeRam, hx]
      by_cases ho : offset' = offset
      · rw [ho, Memory.readWord_writeWord_self]
      · have hne : w ≠ x := by
          rintro rfl
          rw [hx] at hv
          cases hv
          exact ho rfl
        rw [Memory.readWord_writeWord_of_disjoint _ _ _ _ (by omega)]
        exact ih' (by simpa [hne] using hw)

/-! ### The writes of a load -/

/-- The offset of a node by its number. -/
theorem nodeOffset_ofNat {k : Nat} (hk : k < 512) : nodeOffset (BitVec.ofNat 9 k) = 0x4000 + 4 * k := by
  rw [nodeOffset, BitVec.toNat_ofNat]
  omega

theorem ramWord_node {k : Nat} (hk : k < 512) (v : Word) :
    ramWord (BitVec.ofNat 16 (0x4000 + 4 * k), v) = some (0x4000 + 4 * k, v &&& nodeMask) := by
  rw [← nodeOffset_ofNat hk]
  simp only [ramWord, target_nodeOffset]

theorem ramWord_header (sym : Byte) (v : Word) :
    ramWord (BitVec.ofNat 16 (codeOffset sym 0), v) = some (codeOffset sym 0, v &&& headerMask) := by
  simp only [ramWord, target_codeOffset sym 0 (by omega), if_true]

theorem ramWord_code (sym : Byte) {k : Nat} (hk : k < 8) (v : Word) :
    ramWord (BitVec.ofNat 16 (codeOffset sym (k + 1)), v) = some (codeOffset sym (k + 1), v) := by
  simp only [ramWord, target_codeOffset sym (k + 1) hk, Nat.succ_ne_zero, if_false]

/-- What a load leaves at the offset of a RAM word that it writes. -/
def loadImage (tree : Option CodeTree) (offset : Nat) : Word :=
  if offset < 0x8000 then (tree.elim [] fun t => treeWords t 0).getD ((offset - 0x4000) / 4) 0 &&& nodeMask
  else if offset % 64 = 0 then
    headerWord (CodeTable.view (derive tree)) (BitVec.ofNat 8 ((offset - 0x8000) / 64)) &&& headerMask
  else
    codeWordOf ((CodeTable.view (derive tree) (BitVec.ofNat 8 ((offset - 0x8000) / 64))).getD []) (offset % 64 / 4)

theorem loadImage_header (tree : Option CodeTree) (sym : Byte) :
    loadImage tree (codeOffset sym 0) = headerWord (CodeTable.view (derive tree)) sym &&& headerMask := by
  have hsym : (codeOffset sym 0 - 0x8000) / 64 = sym.toNat := by unfold codeOffset; omega
  rw [loadImage, if_neg (by unfold codeOffset; omega), if_pos (by unfold codeOffset; omega), hsym, BitVec.ofNat_toNat,
    BitVec.setWidth_eq]

theorem loadImage_code {tree : Option CodeTree} {sym : Byte} {code : List Bool} {k : Nat} (hk : k < 8)
    (hc : CodeTable.view (derive tree) sym = some code) :
    loadImage tree (codeOffset sym (k + 1)) = codeWordOf code (k + 1) := by
  have hsym : (codeOffset sym (k + 1) - 0x8000) / 64 = sym.toNat := by unfold codeOffset; omega
  have hword : codeOffset sym (k + 1) % 64 / 4 = k + 1 := by unfold codeOffset; omega
  rw [loadImage, if_neg (by unfold codeOffset; omega), if_neg (by unfold codeOffset; omega), hsym, hword,
    BitVec.ofNat_toNat, BitVec.setWidth_eq, hc, Option.getD_some]

theorem loadImage_node {t : CodeTree} {k : Nat} {v : Word} (hk : k < 512) (hv : (treeWords t 0)[k]? = some v) :
    loadImage (some t) (0x4000 + 4 * k) = v &&& nodeMask := by
  have hindex : (0x4000 + 4 * k - 0x4000) / 4 = k := by omega
  rw [loadImage, if_pos (by omega), hindex, List.getD_eq_getElem?_getD, Option.elim_some, hv, Option.getD_some]

theorem mem_headerWrites {view : Byte → Option (List Bool)} {w : Write} :
    w ∈ headerWrites view ↔ ∃ sym, w = (BitVec.ofNat 16 (codeOffset sym 0), headerWord view sym) := by
  simp [headerWrites, mem_allSymbols, eq_comm]

theorem mem_codeWrites {view : Byte → Option (List Bool)} {w : Write} :
    w ∈ codeWrites view ↔ ∃ sym code k, view sym = some code ∧ k < codeWordCount code.length ∧
      w = (BitVec.ofNat 16 (codeOffset sym (k + 1)), codeWordOf code (k + 1)) := by
  rw [codeWrites, List.mem_flatMap]
  constructor
  · rintro ⟨sym, _, h⟩
    cases hv : view sym with
    | none => simp [hv] at h
    | some code =>
      simp only [hv, List.mem_map, List.mem_range] at h
      obtain ⟨k, hk, rfl⟩ := h
      exact ⟨sym, code, k, hv, hk, rfl⟩
  · rintro ⟨sym, code, k, hv, hk, rfl⟩
    refine ⟨sym, mem_allSymbols sym, ?_⟩
    simp only [hv, List.mem_map, List.mem_range]
    exact ⟨k, hk, rfl⟩

/-- The writes of a tree's NODE_RAM words (R91). -/
def nodeWrites (t : CodeTree) : List Write :=
  (treeWords t 0).zipIdx.map fun (w, k) => (BitVec.ofNat 16 (0x4000 + 4 * k), w)

theorem mem_nodeWrites {t : CodeTree} {w : Write} :
    w ∈ nodeWrites t ↔ ∃ k v, (treeWords t 0)[k]? = some v ∧ w = (BitVec.ofNat 16 (0x4000 + 4 * k), v) := by
  simp only [nodeWrites, List.mem_map, Prod.exists, List.mem_zipIdx_iff_getElem?]
  exact ⟨fun ⟨v, k, h, he⟩ => ⟨k, v, h, he.symm⟩, fun ⟨k, v, h, he⟩ => ⟨v, k, h, he.symm⟩⟩

theorem treeWords_length (t : CodeTree) (k : Nat) : (treeWords t k).length = t.size := by
  induction t generalizing k with
  | leaf s w => rfl
  | internal w l r ihl ihr =>
    rw [treeWords, List.length_cons, List.length_append, ihl, ihr, CodeTree.size]
    omega

/-- The writes of a load: headers, code words, node words, and ROOT and CTRL. -/
theorem mem_loadWrites {tree : Option CodeTree} {w : Write} (h : w ∈ loadWrites tree) :
    (∃ sym, w = (BitVec.ofNat 16 (codeOffset sym 0), headerWord (CodeTable.view (derive tree)) sym)) ∨
      (∃ sym code k, CodeTable.view (derive tree) sym = some code ∧ k < codeWordCount code.length ∧
        w = (BitVec.ofNat 16 (codeOffset sym (k + 1)), codeWordOf code (k + 1))) ∨
      (∃ t k v, tree = some t ∧ (treeWords t 0)[k]? = some v ∧ w = (BitVec.ofNat 16 (0x4000 + 4 * k), v)) ∨
      w.1 = 0x008#16 ∨ w.1 = 0x004#16 := by
  rw [loadWrites, List.mem_append, List.mem_append, mem_headerWrites, mem_codeWrites] at h
  rcases h with (h | h) | h
  · exact .inl h
  · exact .inr (.inl h)
  · refine .inr (.inr ?_)
    cases tree with
    | none =>
      cases List.mem_singleton.mp h
      exact .inr (.inr rfl)
    | some t =>
      rcases List.mem_append.mp h with h | h
      · obtain ⟨k, v, hv, rfl⟩ := mem_nodeWrites.mp h
        exact .inl ⟨t, k, v, rfl, hv, rfl⟩
      · right
        simp only [List.mem_cons, List.not_mem_nil, or_false] at h
        rcases h with rfl | rfl
        · exact .inl rfl
        · exact .inr rfl

/-- A tree that fits the block's RAMs (R6, R91, R92). -/
structure Loadable (tree : Option CodeTree) : Prop where
  nodes : ∀ t, tree = some t → t.size ≤ 512
  codes : ∀ c ∈ derive tree, c.2.length ≤ 255

theorem Loadable.codeWordCount_le {tree : Option CodeTree} (h : Loadable tree) {sym : Byte} {code : List Bool}
    (hc : CodeTable.view (derive tree) sym = some code) : codeWordCount code.length ≤ 8 := by
  have hlen : code.length ≤ 255 := h.codes _ (mem_of_view hc)
  unfold codeWordCount
  omega

theorem Loadable.index_lt {t : CodeTree} (h : Loadable (some t)) {k : Nat} {v : Word}
    (hv : (treeWords t 0)[k]? = some v) : k < 512 := by
  have hsize := h.nodes t rfl
  obtain ⟨hk, _⟩ := List.getElem?_eq_some_iff.mp hv
  rw [treeWords_length] at hk
  omega

theorem Loadable.configWrite {tree : Option CodeTree} (h : Loadable tree) {w : Write} (hw : w ∈ loadWrites tree) :
    ConfigWrite w := by
  rcases mem_loadWrites hw with ⟨sym, rfl⟩ | ⟨sym, code, k, hc, hk, rfl⟩ | ⟨t, k, v, rfl, hv, rfl⟩ | hr | hc
  · exact ⟨codeOffset_aligned sym 0, .inr (.inr (.inr (.inl ⟨sym, target_codeOffset sym 0 (by omega)⟩)))⟩
  · have hk8 : k + 1 ≤ 8 := hk.trans_le (h.codeWordCount_le hc)
    exact ⟨codeOffset_aligned sym _, .inr (.inr (.inr (.inr ⟨sym, k + 1, target_codeOffset sym (k + 1) hk8⟩)))⟩
  · rw [← nodeOffset_ofNat (h.index_lt hv)]
    exact ⟨nodeOffset_aligned _, .inr (.inr (.inl ⟨_, target_nodeOffset _⟩))⟩
  · exact ⟨by rw [hr]; rfl, .inr (.inl (by rw [hr]; rfl))⟩
  · exact ⟨by rw [hc]; rfl, .inl (by rw [hc]; rfl)⟩

/-- All writes of a load to one offset store the same word. -/
theorem Loadable.image {tree : Option CodeTree} (h : Loadable tree) : ∀ w ∈ loadWrites tree, ∀ offset v,
    ramWord w = some (offset, v) → offset % 4 = 0 ∧ v = loadImage tree offset := by
  intro w hw offset v hr
  rcases mem_loadWrites hw with ⟨sym, rfl⟩ | ⟨sym, code, k, hc, hk, rfl⟩ | ⟨t, k, u, rfl, hv, rfl⟩ | hroot | hctrl
  · rw [ramWord_header] at hr
    cases hr
    exact ⟨by unfold codeOffset; omega, (loadImage_header tree sym).symm⟩
  · have hk8 : k < 8 := hk.trans_le (h.codeWordCount_le hc)
    rw [ramWord_code sym hk8] at hr
    cases hr
    exact ⟨by unfold codeOffset; omega, (loadImage_code hk8 hc).symm⟩
  · have hk := h.index_lt hv
    rw [ramWord_node hk] at hr
    cases hr
    exact ⟨by omega, (loadImage_node hk hv).symm⟩
  · rw [ramWord, hroot] at hr
    cases hr
  · rw [ramWord, hctrl] at hr
    cases hr

/-! ### The words of a load read back -/

/-- The RAMs after a load. -/
def loadedMem (tree : Option CodeTree) (m : Memory) : Memory := (loadWrites tree).foldl storeRam m

section
variable {tree : Option CodeTree} (h : Loadable tree) (m : Memory)
include h

theorem Loadable.readWord_header (sym : Byte) :
    (loadedMem tree m).readWord (codeOffset sym 0) =
      some (headerWord (CodeTable.view (derive tree)) sym &&& headerMask) := by
  refine readWord_foldl_storeRam h.image ?_ (ramWord_header sym _) m
  exact List.mem_append_left _ (List.mem_append_left _ (mem_headerWrites.mpr ⟨sym, rfl⟩))

theorem Loadable.readWord_code {sym : Byte} {code : List Bool} (hc : CodeTable.view (derive tree) sym = some code)
    {k : Nat} (hk : k < codeWordCount code.length) :
    (loadedMem tree m).readWord (codeOffset sym (k + 1)) = some (codeWordOf code (k + 1)) := by
  refine readWord_foldl_storeRam h.image ?_ (ramWord_code sym (hk.trans_le (h.codeWordCount_le hc)) _) m
  exact List.mem_append_left _ (List.mem_append_right _ (mem_codeWrites.mpr ⟨sym, code, k, hc, hk, rfl⟩))

end

theorem Loadable.nodeRead {t : CodeTree} (h : Loadable (some t)) (m : Memory) {k : Nat} {v : Word}
    (hv : (treeWords t 0)[k]? = some v) :
    nodeRead (loadedMem (some t) m) (BitVec.ofNat 9 k) = .ok (v &&& nodeMask) := by
  have hk := h.index_lt hv
  have hword : (loadedMem (some t) m).readWord (0x4000 + 4 * k) = some (v &&& nodeMask) := by
    refine readWord_foldl_storeRam h.image ?_ (ramWord_node hk v) m
    exact List.mem_append_right _ (List.mem_append_left _ (mem_nodeWrites.mpr ⟨k, v, hv, rfl⟩))
  simp only [Machine.nodeRead, tableWord, nodeOffset_ofNat hk, hword]

/-! ### The tree in NODE_RAM -/

theorem nodeMask_getLsbD (i : Nat) :
    nodeMask.getLsbD i = (decide (i < 9) || decide (16 ≤ i ∧ i < 25) || decide (i = 31)) := by
  by_cases h : i < 32
  · interval_cases i <;> decide
  · rw [BitVec.getLsbD_of_ge _ _ (by omega)]
    simp
    omega

theorem nodeIsLeaf_leaf (s : Byte) : nodeIsLeaf ((0x80000000#32 ||| s.setWidth 32) &&& nodeMask) = true := by
  simp [nodeIsLeaf, nodeMask_getLsbD]

theorem nodeSym_leaf (s : Byte) : nodeSym ((0x80000000#32 ||| s.setWidth 32) &&& nodeMask) = s := by
  apply BitVec.eq_of_getLsbD_eq
  intro i hi
  have h9 : i < 9 := by omega
  have h32 : i < 32 := by omega
  have htop : (0x80000000#32).getLsbD i = false := by interval_cases i <;> rfl
  simp only [nodeSym, field, BitVec.getLsbD_extractLsb', BitVec.getLsbD_and, BitVec.getLsbD_or, BitVec.getLsbD_setWidth,
    nodeMask_getLsbD, Nat.zero_add, htop]
  simp [hi, h9, h32]

/-- A number below 2^9 has no bit from the ninth on. -/
theorem testBit_of_lt_512 {a i : Nat} (ha : a < 512) (hi : 9 ≤ i) : a.testBit i = false :=
  Nat.testBit_lt_two_pow (ha.trans_le (Nat.pow_le_pow_right (by omega) hi : 2 ^ 9 ≤ 2 ^ i))

/-- The bits of the word of an internal node with children `a` and `b` (R91), as NODE_RAM keeps it. -/
theorem getLsbD_internal {a b : Nat} (ha : a < 512) (hb : b < 512) (i : Nat) :
    (((BitVec.ofNat 32 b <<< 16) ||| BitVec.ofNat 32 a) &&& nodeMask).getLsbD i =
      if i < 9 then a.testBit i else decide (16 ≤ i ∧ i < 25) && b.testBit (i - 16) := by
  simp only [BitVec.getLsbD_and, BitVec.getLsbD_or, BitVec.getLsbD_shiftLeft, BitVec.getLsbD_ofNat, nodeMask_getLsbD]
  by_cases h9 : i < 9
  · have h16 : i < 16 := by omega
    have h32 : i < 32 := by omega
    simp [h9, h16, h32]
  · have hai : a.testBit i = false := testBit_of_lt_512 ha (by omega)
    by_cases h31 : i = 31
    · have hbi : b.testBit 15 = false := testBit_of_lt_512 hb (by omega)
      subst h31
      simp [hai, hbi]
    · by_cases h25 : 16 ≤ i ∧ i < 25
      · have h32 : i < 32 := by omega
        have h16 : ¬ i < 16 := by omega
        have hsub : i - 16 < 32 := by omega
        simp [h9, hai, h25, h32, h16, hsub]
      · simp [h9, h31, h25]

theorem nodeIsLeaf_internal {a b : Nat} (ha : a < 512) (hb : b < 512) :
    nodeIsLeaf (((BitVec.ofNat 32 b <<< 16) ||| BitVec.ofNat 32 a) &&& nodeMask) = false := by
  rw [nodeIsLeaf, getLsbD_internal ha hb]
  rfl

theorem nodeLeft_internal {a b : Nat} (ha : a < 512) (hb : b < 512) :
    nodeLeft (((BitVec.ofNat 32 b <<< 16) ||| BitVec.ofNat 32 a) &&& nodeMask) = BitVec.ofNat 9 a := by
  apply BitVec.eq_of_getLsbD_eq
  intro i hi
  rw [nodeLeft, field, BitVec.getLsbD_extractLsb', getLsbD_internal ha hb, BitVec.getLsbD_ofNat]
  simp [hi]

theorem nodeRight_internal {a b : Nat} (ha : a < 512) (hb : b < 512) :
    nodeRight (((BitVec.ofNat 32 b <<< 16) ||| BitVec.ofNat 32 a) &&& nodeMask) = BitVec.ofNat 9 b := by
  apply BitVec.eq_of_getLsbD_eq
  intro i hi
  have hrange : 16 + i < 25 := by omega
  have h9 : ¬ 16 + i < 9 := by omega
  rw [nodeRight, field, BitVec.getLsbD_extractLsb', getLsbD_internal ha hb, BitVec.getLsbD_ofNat]
  simp [hi, hrange, h9]

/-- The words of a tree in NODE_RAM from index `k` on are read as the tree (R91, R116). -/
theorem treeAt_of_treeWords {m : Memory} {t : CodeTree} {k depth : Nat} (hk : k + t.size ≤ 512) (hd : t.size ≤ depth)
    (h : ∀ j v, (treeWords t k)[j]? = some v → nodeRead m (BitVec.ofNat 9 (k + j)) = .ok (v &&& nodeMask)) :
    treeAt m depth (BitVec.ofNat 9 k) = some t.shape := by
  induction t generalizing k depth with
  | leaf s w =>
    obtain ⟨depth, rfl⟩ : ∃ d, depth = d + 1 := ⟨depth - 1, by simp only [CodeTree.size] at hd; omega⟩
    have hword := h 0 _ rfl
    rw [Nat.add_zero] at hword
    simp only [treeAt, hword, nodeIsLeaf_leaf, nodeSym_leaf, if_true, CodeTree.shape]
  | internal w l r ihl ihr =>
    have hl := CodeTree.size_pos l
    have hr := CodeTree.size_pos r
    simp only [CodeTree.size] at hk hd
    obtain ⟨depth, rfl⟩ : ∃ d, depth = d + 1 := ⟨depth - 1, by omega⟩
    have hword := h 0 _ rfl
    rw [Nat.add_zero] at hword
    have hleft : treeAt m depth (BitVec.ofNat 9 (k + 1)) = some l.shape := by
      refine ihl (by omega) (by omega) fun j v hv => ?_
      have hj : j < l.size := by
        rw [← treeWords_length l (k + 1)]
        exact (List.getElem?_eq_some_iff.mp hv).1
      have hi : k + (j + 1) = k + 1 + j := by omega
      rw [← hi]
      refine h (j + 1) v ?_
      rw [treeWords, List.getElem?_cons_succ, List.getElem?_append_left (by rwa [treeWords_length]), hv]
    have hright : treeAt m depth (BitVec.ofNat 9 (k + 1 + l.size)) = some r.shape := by
      refine ihr (by omega) (by omega) fun j v hv => ?_
      have hi : k + (l.size + j + 1) = k + 1 + l.size + j := by omega
      rw [← hi]
      refine h (l.size + j + 1) v ?_
      rw [treeWords, List.getElem?_cons_succ, List.getElem?_append_right (by rw [treeWords_length]; omega),
        treeWords_length, Nat.add_sub_cancel_left, hv]
    have ha : k + 1 < 512 := by omega
    have hb : k + 1 + l.size < 512 := by omega
    simp [treeAt, hword, nodeIsLeaf_internal ha hb, nodeLeft_internal ha hb, nodeRight_internal ha hb, hleft, hright,
      CodeTree.shape]

/-! ### The table in CODE_RAM -/

theorem codeNumeral_append (code : List Bool) (b : Bool) : codeNumeral (code ++ [b]) = 2 * codeNumeral code + b.toNat := by
  simp [codeNumeral]

/-- The bits of a code's numeral: its first bit stands highest (R8, R92). -/
theorem testBit_codeNumeral (code : List Bool) (i : Nat) :
    (codeNumeral code).testBit i = code.reverse.getD i false := by
  induction code using List.reverseRecOn generalizing i with
  | nil => simp [codeNumeral]
  | append_singleton code b ih =>
    rw [codeNumeral_append, List.reverse_append]
    cases i with
    | zero => cases b <;> simp [Nat.testBit_zero]
    | succ i =>
      have hlt : b.toNat < 2 := b.toNat_lt
      have hhalf : (2 * codeNumeral code + b.toNat) / 2 = codeNumeral code := by omega
      rw [Nat.testBit_succ, hhalf, ih]
      rfl

theorem getLsbD_wordOfBytes (b3 b2 b1 b0 : Byte) (i : Nat) :
    (wordOfBytes b3 b2 b1 b0).getLsbD i =
      if i < 8 then b0.getLsbD i else if i - 8 < 8 then b1.getLsbD (i - 8)
      else if i - 8 - 8 < 8 then b2.getLsbD (i - 8 - 8) else b3.getLsbD (i - 8 - 8 - 8) := by
  simp only [wordOfBytes, BitVec.getLsbD_append]

theorem byteLane_wordOfBytes_low (b3 b2 b1 b0 : Byte) : byteLane (wordOfBytes b3 b2 b1 b0) 0 = b0 := by
  apply BitVec.eq_of_getLsbD_eq
  intro i hi
  rw [byteLane, BitVec.getLsbD_extractLsb', getLsbD_wordOfBytes]
  simp [hi]

theorem byteLane_wordOfBytes_high (b3 b2 b1 b0 : Byte) : byteLane (wordOfBytes b3 b2 b1 b0) 3 = b3 := by
  apply BitVec.eq_of_getLsbD_eq
  intro i hi
  have hi' : 8 * 3 + i - 8 - 8 - 8 = i := by omega
  rw [byteLane, BitVec.getLsbD_extractLsb', getLsbD_wordOfBytes, if_neg (by omega), if_neg (by omega), if_neg (by omega),
    hi']
  simp [hi]

/-- The first and the last byte of a RAM word that has a value. -/
theorem Memory.read_of_readWord {m : Memory} {a : Nat} {w : Word} (h : m.readWord a = some w) :
    m.read (a + 3) = some (byteLane w 3) ∧ m.read a = some (byteLane w 0) := by
  unfold Memory.readWord at h
  split at h
  · rename_i b3 b2 b1 b0 h3 _ _ h0
    cases h
    rw [byteLane_wordOfBytes_high, byteLane_wordOfBytes_low]
    exact ⟨h3, h0⟩
  · cases h

theorem codeValid_of_readWord {m : Memory} {sym : Byte} {w : Word} (h : m.readWord (codeOffset sym 0) = some w) :
    codeValid m sym = w.getLsbD 31 := by
  rw [codeValid, (Memory.read_of_readWord h).1]
  simp [byteLane]

theorem codeLen_of_readWord {m : Memory} {sym : Byte} {w : Word} (h : m.readWord (codeOffset sym 0) = some w) :
    codeLen m sym = some (byteLane w 0) :=
  (Memory.read_of_readWord h).2

/-- The header of a key (R92): VALID and the length of its code. -/
theorem headerWord_present {view : Byte → Option (List Bool)} {sym : Byte} {code : List Bool} (hc : view sym = some code)
    (hlen : code.length ≤ 255) :
    (headerWord view sym &&& headerMask).getLsbD 31 = true ∧
      (byteLane (headerWord view sym &&& headerMask) 0).toNat = code.length := by
  have hword : headerWord view sym = 0x80000000#32 ||| BitVec.ofNat 32 code.length := by simp only [headerWord, hc]
  have hlane : byteLane (headerWord view sym &&& headerMask) 0 = BitVec.ofNat 8 code.length := by
    apply BitVec.eq_of_getLsbD_eq
    intro i hi
    have htop : (0x80000000#32).getLsbD i = false ∧ headerMask.getLsbD i = true := by interval_cases i <;> decide
    have h32 : i < 32 := by omega
    rw [byteLane, BitVec.getLsbD_extractLsb', hword, BitVec.getLsbD_and, BitVec.getLsbD_or, Nat.mul_zero, Nat.zero_add,
      htop.1, htop.2, BitVec.getLsbD_ofNat, BitVec.getLsbD_ofNat]
    simp [hi, h32]
  refine ⟨?_, ?_⟩
  · rw [hword, BitVec.getLsbD_and, BitVec.getLsbD_or]
    simp [headerMask]
  · rw [hlane, BitVec.toNat_ofNat]
    omega

theorem headerWord_absent {view : Byte → Option (List Bool)} {sym : Byte} (hc : view sym = none) :
    (headerWord view sym &&& headerMask).getLsbD 31 = false := by
  simp [headerWord, hc]

/-- The code words of a code, read one after another, hold the bits of its numeral (R52, R92). -/
theorem codeWords_of_readWord {m : Memory} {sym : Byte} {code : List Bool} {n : Nat}
    (h : ∀ k, k < n → m.readWord (codeOffset sym (k + 1)) = some (codeWordOf code (k + 1))) :
    ∃ v, codeWords m sym n = .ok v ∧
      ∀ i, i < 256 → v.getLsbD i = (decide (i < 32 * n) && (codeNumeral code).testBit i) := by
  induction n with
  | zero => exact ⟨0, rfl, fun i _ => by simp⟩
  | succ n ih =>
    obtain ⟨low, hlow, hbits⟩ := ih fun k hk => h k (by omega)
    refine ⟨low ||| ((codeWordOf code (n + 1)).setWidth 256 <<< (32 * n)),
      by simp only [codeWords, hlow, tableWord, h n (by omega)], fun i hi => ?_⟩
    have hword : (codeWordOf code (n + 1)).getLsbD (i - 32 * n) =
        (decide (i - 32 * n < 32) && (codeNumeral code).testBit (32 * n + (i - 32 * n))) := by
      rw [codeWordOf, BitVec.getLsbD_ofNat, Nat.add_sub_cancel, Nat.testBit_div_two_pow, Nat.add_comm]
    rw [BitVec.getLsbD_or, hbits i hi, BitVec.getLsbD_shiftLeft, BitVec.getLsbD_setWidth, hword]
    by_cases hlt : i < 32 * n
    · have hlt' : i < 32 * (n + 1) := by omega
      simp [hlt, hlt']
    · have hsub : i - 32 * n < 256 := by omega
      have hadd : 32 * n + (i - 32 * n) = i := by omega
      have hiff : i - 32 * n < 32 ↔ i < 32 * (n + 1) := by omega
      simp [hlt, hi, hsub, hadd, hiff]

/-- The bits read are the code. -/
theorem codeBits_eq {code : List Bool} {n : Nat} {v : BitVec 256} (hn : code.length ≤ 32 * n) (hlen : code.length ≤ 255)
    (hv : ∀ i, i < 256 → v.getLsbD i = (decide (i < 32 * n) && (codeNumeral code).testBit i)) :
    codeBits code.length v = code := by
  refine List.ext_getElem (codeBits_length _ _) fun i _ hi => ?_
  have hlast : code.length - 1 - i < 32 * n := by omega
  have hback : code.length - 1 - (code.length - 1 - i) = i := by omega
  simp only [codeBits, List.getElem_map, List.getElem_range]
  rw [hv _ (by omega), testBit_codeNumeral, List.getD_eq_getElem?_getD, List.getElem?_reverse (by omega), hback]
  simp [hlast, hi]

theorem codeView_of_absent {m : Memory} {sym : Byte} (h : codeValid m sym = false) : codeView m sym = none := by
  simp [codeView, codeRead, h]

/-- The table view of an entry that holds a code of at least one bit. -/
theorem codeView_of_readWord {m : Memory} {view : Byte → Option (List Bool)} {sym : Byte} {code : List Bool}
    (hc : view sym = some code) (hpos : 1 ≤ code.length) (hlen : code.length ≤ 255)
    (hh : m.readWord (codeOffset sym 0) = some (headerWord view sym &&& headerMask))
    (hw : ∀ k, k < codeWordCount code.length → m.readWord (codeOffset sym (k + 1)) = some (codeWordOf code (k + 1))) :
    codeView m sym = some code := by
  obtain ⟨hvalid, hl⟩ := headerWord_present hc hlen
  obtain ⟨v, hwords, hbits⟩ := codeWords_of_readWord hw
  have hread : codeRead m sym = .ok (.present code.length v) := by
    simp only [codeRead, codeValid_of_readWord hh, hvalid, codeLen_of_readWord hh, hl, hwords, if_true]
  obtain ⟨l, hl'⟩ : ∃ l, code.length = l + 1 := ⟨code.length - 1, by omega⟩
  rw [hl'] at hread
  simp only [codeView, hread]
  rw [← hl', codeBits_eq (by unfold codeWordCount; omega) hlen hbits]

/-! ### The load -/

theorem Loadable.holdsTable {tree : Option CodeTree} (h : Loadable tree) {s : State} {m : Memory}
    (hm : s.mem = loadedMem tree m) : HoldsTable s (CodeTable.view (derive tree)) := by
  intro sym
  rw [hm]
  have hh := h.readWord_header m sym
  cases hv : CodeTable.view (derive tree) sym with
  | none =>
    have hvalid : codeValid (loadedMem tree m) sym = false := by
      rw [codeValid_of_readWord hh, headerWord_absent hv]
    exact ⟨codeView_of_absent hvalid, fun _ => hvalid⟩
  | some code =>
    have hmem := mem_of_view hv
    have hpos : 1 ≤ code.length := by
      cases tree with
      | none => cases hmem
      | some t => exact (mem_derive hmem).1
    exact ⟨codeView_of_readWord hv hpos (h.codes _ hmem) hh fun k hk => h.readWord_code m hv hk, nofun⟩

theorem Loadable.treeAt {t : CodeTree} (h : Loadable (some t)) (m : Memory) :
    treeAt (loadedMem (some t) m) t.size 0 = some t.shape := by
  refine treeAt_of_treeWords (k := 0) (by have := h.nodes t rfl; omega) (le_refl _) fun j v hv => ?_
  rw [Nat.zero_add]
  exact h.nodeRead m hv

/-- What the writes of a load do through open gates (R93): nothing but the tables and the bus answer changes. -/
theorem Loadable.writeAll {tree : Option CodeTree} (h : Loadable tree) {s : State} (hs : s.GatesOpen) :
    ∃ (valid : Bool) (root : NodeIx) (bus : Option Response), writeAll (loadWrites tree) s =
      { s with treeValid := valid, root := root, mem := loadedMem tree s.mem, bus := bus } :=
  writeAll_configWrites (fun _ => h.configWrite) hs

theorem Loadable.writeAll_mem {tree : Option CodeTree} (h : Loadable tree) {s : State} (hs : s.GatesOpen) :
    (Machine.writeAll (loadWrites tree) s).mem = loadedMem tree s.mem := by
  obtain ⟨valid, root, bus, hall⟩ := h.writeAll hs
  rw [hall]

/-- The last two writes of a load of a tree (R93, step (4)). -/
theorem writeAll_rootCtrl {s : State} (hs : s.GatesOpen) :
    (writeAll [(0x008#16, 0), (0x004#16, 1)] s).root = 0 ∧ (writeAll [(0x008#16, 0), (0x004#16, 1)] s).treeValid = true := by
  have hroot := hostAccess_write_open (u := .dec) (a := 0x008#16) (v := 0) (store := fun s => { s with root := field 0 0 9 })
    (by decide) rfl hs.queue hs.dec
  have hctrl := fun r b => hostAccess_write_open (u := .dec) (a := 0x004#16) (v := 1) (s := { s with root := r, bus := b })
    (store := fun s => { s with treeValid := (1 : Word).getLsbD 0 }) (by decide) rfl hs.queue hs.dec
  simp only [writeAll, hroot, hctrl]
  exact ⟨rfl, rfl⟩

/-- A load leaves ROOT at 0 and TREE_VALID set; without a tree it clears TREE_VALID (R91). -/
theorem Loadable.holdsTree {tree : Option CodeTree} (h : Loadable tree) {s : State} (hs : s.GatesOpen) :
    HoldsTree (Machine.writeAll (loadWrites tree) s) tree := by
  have hopen : ∀ ws, (∀ w ∈ ws, w ∈ loadWrites tree) → (Machine.writeAll ws s).GatesOpen := by
    intro ws hws
    obtain ⟨valid, root, bus, hall⟩ := writeAll_configWrites (fun w hw => h.configWrite (hws w hw)) hs
    rw [hall]
    exact ⟨hs.queue, hs.enc, hs.dec⟩
  cases tree with
  | none =>
    have hctrl := hostAccess_write_open (u := .dec) (a := 0x004#16) (v := 0)
      (store := fun s => { s with treeValid := (0 : Word).getLsbD 0 }) (by decide) rfl
      (hopen _ fun _ => List.mem_append_left _).queue (hopen _ fun _ => List.mem_append_left _).dec
    rw [loadWrites, writeAll_append, treeWrites, Machine.writeAll, Machine.writeAll, hctrl]
    rfl
  | some t =>
    have hsplit : loadWrites (some t) = headerWrites (CodeTable.view (derive (some t))) ++
        codeWrites (CodeTable.view (derive (some t))) ++ nodeWrites t ++ [(0x008#16, 0), (0x004#16, 1)] :=
      (List.append_assoc _ _ _).symm
    obtain ⟨hroot, hvalid⟩ := writeAll_rootCtrl (hopen _ fun w hw => hsplit ▸ List.mem_append_left _ hw)
    rw [← writeAll_append, ← hsplit] at hroot hvalid
    refine ⟨hvalid, t.size, ?_⟩
    rw [hroot, h.writeAll_mem hs]
    exact h.treeAt s.mem

/-- Settles O59: every RAM word that the tree and the table need is written, and each reads back. -/
theorem loadLeavesTreeAndTable : Obligations.LoadLeavesTreeAndTable := by
  intro s tree hq he hd hdrop hnodes hcodes
  have h : Loadable tree := ⟨hnodes, hcodes⟩
  have hs : s.GatesOpen := ⟨hq, he, hd⟩
  refine ⟨h.holdsTree hs, h.holdsTable (h.writeAll_mem hs), ?_⟩
  obtain ⟨valid, root, bus, hall⟩ := h.writeAll hs
  rw [hall]
  exact hdrop

end Sys2Proof.Machine
end

section
/-! Proof of the round trip on the commands of the block (R97), by the stream laws of the encoder (R106) and the decoder
(R116) on streams without errors. -/

namespace Sys2Proof.Machine

open Reference

theorem execAll_append {is : List Instr} {s t : State} (h : execAll is s = .next t) (js : List Instr) :
    execAll (is ++ js) s = execAll js t := by
  induction is generalizing s with
  | nil =>
    cases h
    rfl
  | cons i is ih =>
    rw [List.cons_append]
    simp only [execAll] at h ⊢
    split at h
    · exact ih h
    · cases h
    · cases h

/-! ### Encode streams -/

/-- The encoder unit after the codes of `n` symbols, `bits` together, have been appended (R101). -/
def EncUnit.encoded (bits : List Bool) (n : Nat) (e : EncUnit) : EncUnit :=
  { e.appendBits bits with
    bitcnt := e.bitcnt + BitVec.ofNat 32 bits.length
    symcnt := e.symcnt + BitVec.ofNat 32 n }

/-- Appending bits does not read the counters. -/
theorem EncUnit.appendBits_setCounts (bits : List Bool) (e : EncUnit) (x y : Word) :
    ({ e with bitcnt := x, symcnt := y } : EncUnit).appendBits bits =
      { e.appendBits bits with bitcnt := x, symcnt := y } := by
  induction bits generalizing e with
  | nil => rfl
  | cons b bits ih =>
    have hb : ({ e with bitcnt := x, symcnt := y } : EncUnit).appendBit b =
        { e.appendBit b with bitcnt := x, symcnt := y } := by
      unfold EncUnit.appendBit
      dsimp only
      split <;> rfl
    rw [EncUnit.appendBits_cons, hb, ih, EncUnit.appendBits_cons]

theorem EncUnit.encoded_encodeSymbol (code bits : List Bool) (n : Nat) (e : EncUnit) :
    (e.encodeSymbol code).encoded bits n = e.encoded (code ++ bits) (n + 1) := by
  have happ : e.appendBits (code ++ bits) = (e.appendBits code).appendBits bits := List.foldl_append
  have hcount : 1 + BitVec.ofNat 32 n = BitVec.ofNat 32 (n + 1) := by
    rw [Nat.add_comm]
    exact (BitVec.ofNat_add 1 n).symm
  rw [EncUnit.encoded, EncUnit.encoded, EncUnit.encodeSymbol, EncUnit.appendBits_setCounts, happ, List.length_append,
    BitVec.ofNat_add, ← hcount, BitVec.add_assoc, BitVec.add_assoc]

/-- ENC_SYM of a key appends its code (R101). -/
theorem exec_encSym_of_codeView {s : State} {sym : Byte} {code : List Bool} (hs : s.enc.state = .active)
    (hc : codeView s.mem sym = some code) : exec (.encSym sym) s = .next (s.setEnc (s.enc.encodeSymbol code)) := by
  unfold codeView at hc
  split at hc
  · rename_i l c hread
    cases hc
    simp only [exec, execEncSym, hs, hread]
  · cases hc

theorem execAll_encSyms {s : State} {S : List Byte} {i : Nat} {bits : List Bool} (hs : s.enc.state = .active)
    (h : encodeFrom (codeView s.mem) i S = .ok bits) :
    execAll (S.map .encSym) s = .next (s.setEnc (s.enc.encoded bits S.length)) := by
  induction S generalizing s i bits with
  | nil =>
    cases h
    have hnone : s.enc.encoded [] 0 = s.enc := by simp [EncUnit.encoded]
    simp [execAll, hnone]
  | cons sym S ih =>
    obtain ⟨code, rest, hc, hr, rfl⟩ := encodeFrom_cons.mp h
    have hact : (s.setEnc (s.enc.encodeSymbol code)).enc.state = .active := by simpa using hs
    simp only [List.map_cons, execAll, exec_encSym_of_codeView hs hc, ih hact hr, State.setEnc_setEnc, State.setEnc_enc,
      EncUnit.encoded_encodeSymbol, List.length_cons]

theorem EncUnit.flushed_eq (e : EncUnit) :
    e.flushed = { e with out := e.out ++ pack (pendingBits e), acc := 0, accN := 0, state := .idle } := by
  rw [← EncUnit.flushed_out]
  unfold EncUnit.flushed
  split <;> rfl

/-- The encoder unit after a stream of `n` symbols whose codes are `bits` together: the packed bits are emitted, and nothing
is pending (R106). -/
def EncUnit.afterStream (bits : List Bool) (n : Nat) (e : EncUnit) : EncUnit :=
  { e with out := e.out ++ pack bits, bitcnt := BitVec.ofNat 32 bits.length, symcnt := BitVec.ofNat 32 n
           acc := 0, accN := 0, state := .idle }

theorem EncUnit.flushed_encoded_opened (e : EncUnit) (bits : List Bool) (n : Nat) :
    (e.opened.encoded bits n).flushed = e.afterStream bits n := by
  obtain ⟨hout, hpending, _⟩ := EncUnit.appendBits_law bits e.opened fun i _ => by simp [EncUnit.opened]
  have hpend : pendingBits (e.opened.encoded bits n) = restBits bits := hpending
  have houtEq : (e.opened.encoded bits n).out = e.out ++ packFull bits := hout
  rw [EncUnit.flushed_eq, hpend, houtEq, List.append_assoc, ← pack_eq]
  simp [EncUnit.encoded, EncUnit.opened, EncUnit.afterStream]

/-- R106 for symbols that all have a code: the stream emits the packed form of encode_ref and ends IDLE. -/
theorem execAll_encodeCommands {s : State} {S : List Byte} {bits : List Bool} (hs : s.enc.state = .idle)
    (h : encodeRef (codeView s.mem) S = .ok bits) :
    execAll (encodeCommands S) s = .next (s.setEnc (s.enc.afterStream bits S.length)) := by
  have hstart : execAll [.encStart] s = .next (s.setEnc s.enc.opened) := by
    simp only [execAll, exec, execEncStart, hs]
  have hsyms := execAll_encSyms (s := s.setEnc s.enc.opened) rfl h
  have hflush : execAll [.encFlush] (s.setEnc (s.enc.opened.encoded bits S.length)) =
      .next (s.setEnc (s.enc.opened.encoded bits S.length).flushed) := by
    have hact : (s.enc.opened.encoded bits S.length).state = .active := by simp [EncUnit.encoded, EncUnit.opened]
    simp only [execAll, exec, execEncFlush, State.setEnc_enc, hact, State.setEnc_setEnc]
  rw [encodeCommands, List.append_assoc, execAll_append hstart, execAll_append hsyms, State.setEnc_setEnc,
    State.setEnc_enc, hflush, EncUnit.flushed_encoded_opened]

/-! ### Decode streams -/

/-- The DEC_BITS of a stream walk over its bits (R111). -/
theorem execAll_decBits {s : State} {groups : List (BitVec 4 × Byte)} {d : DecUnit} (hs : s.dec.state = .active)
    (hg : ∀ g ∈ groups, LegalCount g.1) (h : walkBits s (streamBits groups) s.dec = .more d) :
    execAll (groups.map fun g => .decBits g.1 g.2) s = .next (s.setDec d) := by
  induction groups generalizing s with
  | nil =>
    cases h
    rfl
  | cons g groups ih =>
    rw [streamBits_cons, walkBits_append] at h
    split at h
    · rename_i d1 h1
      have hact : d1.state = .active := (walkBits_more h1).1.trans hs
      have ih' := ih (s := s.setDec d1) hact (fun x hx => hg x (List.mem_cons_of_mem g hx))
        (by rw [walkBits_setDec]; exact h)
      simp only [List.map_cons, execAll, exec_decBits_of_walk_more (hg g List.mem_cons_self) hs h1, ih',
        State.setDec_setDec]
    · cases h
    · cases h

/-- R116 for bits that decode_ref decodes: the stream emits the symbols and ends IDLE. -/
theorem execAll_decodeCommands {s : State} {tree : Option CodeTree} {groups : List (BitVec 4 × Byte)} {syms : List Byte}
    (hs : s.dec.state = .idle) (hg : ∀ g ∈ groups, LegalCount g.1) (htree : HoldsTree s tree)
    (h : decodeRef (tree.map CodeTree.shape) (streamBits groups) = .ok syms) :
    ∃ d, execAll (decodeCommands groups) s = .next (s.setDec d) ∧ d.state = .idle ∧ d.out = s.dec.out ++ syms := by
  have hstart : execAll [.decStart] s = .next (s.setDec (s.dec.opened s.root)) := by
    simp only [execAll, exec, execDecStart, hs]
  obtain ⟨d, hwalk, hout, hend⟩ : ∃ d, walkBits s (streamBits groups) (s.dec.opened s.root) = .more d ∧
      d.out = s.dec.out ++ syms ∧ (s.treeValid = false ∨ (d.seen = true ∧ d.ptr = s.root)) := by
    cases tree with
    | none =>
      simp only [decodeRef, Option.map_none] at h
      split at h
      · rename_i hnil
        cases h
        exact ⟨_, by rw [hnil]; rfl, by simp [DecUnit.opened], .inl htree⟩
      · cases h
    | some t =>
      obtain ⟨hv, depth, ht⟩ := htree
      simp only [decodeRef, Option.map_some] at h
      split at h
      · cases h
      · rename_i hne
        split at h
        · rename_i hroot
          cases h
          obtain ⟨d, hw, hp, hout⟩ := walkBits_tree hv ht (streamBits groups) (p := t.shape)
            (d := s.dec.opened s.root) (.inl ⟨rfl, rfl⟩)
          obtain ⟨_, _, _, _, hseen, _⟩ := walkBits_more hw
          exact ⟨d, hw, hout, .inr ⟨(hseen hne).1, (hp.at_root_iff ht).mpr hroot⟩⟩
        · cases h
  have hact : d.state = .active := (walkBits_more hwalk).1
  have hbits := execAll_decBits (s := s.setDec (s.dec.opened s.root)) rfl hg (by rw [walkBits_setDec]; exact hwalk)
  have hclose : execAll [.decEnd] (s.setDec d) = .next (s.setDec { d with state := .idle }) := by
    rcases hend with hv | ⟨hseen, hptr⟩
    · simp [execAll, exec, execDecEnd, hact, hv]
    · simp [execAll, exec, execDecEnd, hact, hseen, hptr]
  refine ⟨{ d with state := .idle }, ?_, rfl, hout⟩
  rw [decodeCommands, List.append_assoc, execAll_append hstart, execAll_append hbits, State.setDec_setDec, hclose]

/-! ### The round trip -/

theorem HoldsTable.codeView_eq {s : State} {view : Byte → Option (List Bool)} (h : HoldsTable s view) :
    codeView s.mem = view :=
  funext fun sym => (h sym).1

/-- The decode stream of the packed encoding of a sequence, against its own tree, emits the sequence (R97). -/
theorem execAll_decode_packed {s : State} {S : List Byte} {bits : List Bool} (hs : s.dec.state = .idle)
    (htree : HoldsTree s (build (count S)))
    (hbits : encodeRef (CodeTable.view (derive (build (count S)))) S = .ok bits) :
    ∃ d, execAll (decodeCommands (packedGroups (pack bits) bits.length)) s = .next (s.setDec d) ∧ d.state = .idle ∧
      d.out = s.dec.out ++ S := by
  refine execAll_decodeCommands hs (fun _ => packedGroups_legalCount) htree ?_
  rw [streamBits_packedGroups_pack]
  refine decodeRef_of_encodeRef ?_ (by rw [derive_map_shape]; exact hbits)
  rw [Option.map_eq_none_iff, build_count_eq_none_iff]

/-- Settles O54: the two stream laws, and the round trip over the reference functions. -/
theorem commandStreamsRoundTrip : Obligations.CommandStreamsRoundTrip := by
  intro s S henc hdec heo hdo htree htable
  obtain ⟨bits, hbits⟩ := exists_encodeRef S
  have he := execAll_encodeCommands henc (by rw [htable.codeView_eq]; exact hbits)
  have hpack : (s.enc.afterStream bits S.length).out = pack bits := by rw [EncUnit.afterStream, heo, List.nil_append]
  obtain ⟨d, hd, hidle, hout⟩ :=
    execAll_decode_packed (s := s.setEnc (s.enc.afterStream bits S.length)) hdec htree hbits
  refine ⟨_, (s.setEnc (s.enc.afterStream bits S.length)).setDec d, bits, hbits, he, rfl, rfl, ?_, hidle, rfl, ?_⟩
  · rw [State.setEnc_enc, hpack, hd]
  · rw [State.setDec_dec, hout, State.setEnc_dec, hdo, List.nil_append]

end Sys2Proof.Machine
end

section
/-! The drivers beside the block (R94, R95), part one: a stream command does the same whatever its unit's output FIFO,
CMDQ, the bus answer and the list of turns hold. -/

namespace Sys2Proof.Machine

open Reference

/-! ### The state of a block that is being driven

A driver drains the output FIFO while its commands run. The run is compared with the same commands run from an undrained
state, by `execAll`: the block is that state in another dress. -/

/-- The output FIFO of a unit. -/
def State.outFifo (s : State) : CodecUnit → List Byte
  | .enc => s.enc.out
  | .dec => s.dec.out

/-- The depth of a unit's output FIFO (R6). -/
def State.outDepth (s : State) : CodecUnit → Nat
  | .enc => s.cfg.encOutDepth
  | .dec => s.cfg.decOutDepth

/-- The state with another content of a unit's output FIFO. -/
def State.setOut (s : State) (u : CodecUnit) (out : List Byte) : State :=
  match u with
  | .enc => s.setEnc { s.enc with out := out }
  | .dec => s.setDec { s.dec with out := out }

/-- The state with another content of a unit's output FIFO, of CMDQ, the bus answer and the list of turns. -/
def State.dress (s : State) (u : CodecUnit) (out : List Byte) (q : List Word) (bus : Option Response) (ts : List Turn) :
    State :=
  { s.setOut u out with cmdq := q, bus := bus, turns := ts }

section
variable (s : State) (u : CodecUnit) (out : List Byte) (q : List Word) (bus : Option Response) (ts : List Turn)

@[simp] theorem State.dress_cfg : (s.dress u out q bus ts).cfg = s.cfg := by cases u <;> rfl
@[simp] theorem State.dress_mem : (s.dress u out q bus ts).mem = s.mem := by cases u <;> rfl
@[simp] theorem State.dress_root : (s.dress u out q bus ts).root = s.root := by cases u <;> rfl
@[simp] theorem State.dress_treeValid : (s.dress u out q bus ts).treeValid = s.treeValid := by cases u <;> rfl
@[simp] theorem State.dress_cmdq : (s.dress u out q bus ts).cmdq = q := by cases u <;> rfl
@[simp] theorem State.dress_enc : (s.dress .enc out q bus ts).enc = { s.enc with out := out } := rfl
@[simp] theorem State.dress_dec : (s.dress .dec out q bus ts).dec = { s.dec with out := out } := rfl
@[simp] theorem State.dress_outFifo : (s.dress u out q bus ts).outFifo u = out := by cases u <;> rfl
@[simp] theorem State.dress_unitState (v : CodecUnit) : (s.dress u out q bus ts).unitState v = s.unitState v := by
  cases u <;> cases v <;> rfl
@[simp] theorem State.dress_freeOut : (s.dress u out q bus ts).freeOut u = s.outDepth u - out.length := by
  cases u <;> rfl

/-- Error entry does not read what a dress changes (R132). -/
theorem raiseErr_dress (code : ErrCode) (w : Word) :
    raiseErr u code w (s.dress u out q bus ts) = (raiseErr u code w s).dress u out q bus ts := by
  cases u <;> rfl

/-- A block with nothing in CMDQ and in a unit's output FIFO is dressed so. -/
theorem State.eq_dress (hq : s.cmdq = []) (ho : s.outFifo u = []) : s = s.dress u [] [] s.bus s.turns := by
  rw [← hq, ← ho]
  cases u <;> rfl

end

/-! ### Appending and walking append to the output FIFO -/

/-- A bit appended to the encoder's pending bits: what it emits does not depend on the output FIFO (R101). -/
theorem EncUnit.appendBit_setOut (b : Bool) (e : EncUnit) :
    ∃ new, 8 * new.length + (e.appendBit b).accN.toNat = e.accN.toNat + 1 ∧
      ∀ out, ({ e with out := out } : EncUnit).appendBit b = { e.appendBit b with out := out ++ new } := by
  by_cases h : e.accN = 7
  · refine ⟨[(e.acc.setWidth 8 <<< 1) ||| (BitVec.ofBool b).setWidth 8], ?_, fun out => ?_⟩
    · simp [EncUnit.appendBit, h]
    · simp [EncUnit.appendBit, h, EncUnit.emitByte]
  · have hlt := accN_lt e
    have hne : e.accN.toNat ≠ 7 := fun h7 => h (BitVec.eq_of_toNat_eq h7)
    have hsucc : (e.accN + 1).toNat = e.accN.toNat + 1 := by
      rw [BitVec.toNat_add]
      exact Nat.mod_eq_of_lt (by show e.accN.toNat + 1 < 8; omega)
    refine ⟨[], ?_, fun out => ?_⟩
    · simp only [EncUnit.appendBit, if_neg h, hsucc, List.length_nil, Nat.mul_zero, Nat.zero_add]
    · simp only [EncUnit.appendBit, if_neg h, List.append_nil]

theorem EncUnit.appendBits_setOut (bits : List Bool) (e : EncUnit) :
    ∃ new, 8 * new.length + (e.appendBits bits).accN.toNat = e.accN.toNat + bits.length ∧
      ∀ out, ({ e with out := out } : EncUnit).appendBits bits = { e.appendBits bits with out := out ++ new } := by
  induction bits generalizing e with
  | nil => exact ⟨[], by simp, fun out => by simp⟩
  | cons b bits ih =>
    obtain ⟨first, hfirst, hbit⟩ := e.appendBit_setOut b
    obtain ⟨rest, hrest, hbits⟩ := ih (e.appendBit b)
    refine ⟨first ++ rest, ?_, fun out => ?_⟩
    · rw [EncUnit.appendBits_cons, List.length_append, List.length_cons]
      omega
    · rw [EncUnit.appendBits_cons, EncUnit.appendBits_cons, hbit, hbits, List.append_assoc]

/-- A stream bit decoded: what it emits does not depend on the output FIFO (R111). -/
theorem walkBit_setOut {s : State} {b : Bool} {d d' : DecUnit} (h : walkBit s b d = .more d') :
    ∃ new, new.length ≤ 1 ∧ ∀ out, walkBit s b { d with out := out } = .more { d' with out := out ++ new } := by
  unfold walkBit at h
  split at h
  · rename_i hv
    split at h
    · cases h
    · rename_i r hr
      split at h
      · rename_i hleaf
        cases h
        exact ⟨[nodeSym r], le_refl 1, fun out => by simp only [walkBit, hv, hr, hleaf, if_true]; rfl⟩
      · rename_i hleaf
        split at h
        · cases h
        · rename_i p hp
          split at h
          · cases h
          · rename_i c hc
            split at h
            · rename_i hcl
              cases h
              exact ⟨[nodeSym c], le_refl 1, fun out => by
                simp only [walkBit, hv, hr, hleaf, hp, hc, hcl, if_true, if_false, Bool.false_eq_true]; rfl⟩
            · rename_i hcl
              cases h
              exact ⟨[], Nat.zero_le 1, fun out => by
                simp only [walkBit, hv, hr, hleaf, hp, hc, hcl, if_true, if_false, Bool.false_eq_true, List.append_nil]
                rfl⟩
  · cases h

theorem walkBits_setOut {s : State} {bits : List Bool} {d d' : DecUnit} (h : walkBits s bits d = .more d') :
    ∃ new, new.length ≤ bits.length ∧
      ∀ out, walkBits s bits { d with out := out } = .more { d' with out := out ++ new } := by
  induction bits generalizing d with
  | nil =>
    cases h
    exact ⟨[], le_refl 0, fun out => by simp [walkBits]⟩
  | cons b bits ih =>
    simp only [walkBits] at h
    split at h
    · rename_i d1 h1
      obtain ⟨first, hfirst, hbit⟩ := walkBit_setOut h1
      obtain ⟨rest, hrest, hbits⟩ := ih h
      refine ⟨first ++ rest, ?_, fun out => ?_⟩
      · rw [List.length_append, List.length_cons]
        omega
      · simp only [walkBits, hbit, hbits, List.append_assoc]
    · cases h
    · cases h

theorem walkBits_raised_setOut {s : State} {bits : List Bool} {d d' : DecUnit} {code : ErrCode}
    (h : walkBits s bits d = .raised d' code) (out : List Byte) :
    walkBits s bits { d with out := out } = .raised { d' with out := out } code := by
  obtain ⟨hv, rfl, rfl⟩ := walkBits_raised h
  cases bits with
  | nil => cases h
  | cons b bits => simp only [walkBits, walkBit_of_noTree hv]

/-! ### Stream commands -/

/-- The commands of a unit's streams (R94, R95). -/
inductive StreamCommand : CodecUnit → Instr → Prop
  | encStart : StreamCommand .enc .encStart
  | encSym (sym : Byte) : StreamCommand .enc (.encSym sym)
  | encFlush : StreamCommand .enc .encFlush
  | decStart : StreamCommand .dec .decStart
  | decBits {n : BitVec 4} (hn : LegalCount n) (data : Byte) : StreamCommand .dec (.decBits n data)
  | decEnd : StreamCommand .dec .decEnd

theorem StreamCommand.unit {u : CodecUnit} {i : Instr} (h : StreamCommand u i) : i.unit = some u := by
  cases h <;> rfl

theorem StreamCommand.wellFormed {u : CodecUnit} {i : Instr} (h : StreamCommand u i) : i.WellFormed := by
  cases h with
  | decBits hn data => exact hn
  | _ => trivial

/-- What a command does apart from the output it emits: it appends `new`, which the hold rule has room for (R122), to
whatever its unit's output FIFO holds. -/
def Emits (u : CodecUnit) (i : Instr) (s t : State) (new : List Byte) : Prop :=
  new.length ≤ need i s ∧ ∀ out q bus ts, exec i (s.dress u out q bus ts) = .next (t.dress u (out ++ new) q bus ts)

/-- A command without output need only be followed through a dress. -/
theorem emits_nil {u : CodecUnit} {i : Instr} {s t : State}
    (h : ∀ out q bus ts, exec i (s.dress u out q bus ts) = .next (t.dress u out q bus ts)) : Emits u i s t [] :=
  ⟨Nat.zero_le _, fun out q bus ts => by rw [h, List.append_nil]⟩

theorem exists_emits_encStart {s t : State} (h : exec .encStart s = .next t) : ∃ new, Emits .enc .encStart s t new := by
  simp only [exec, execEncStart] at h
  refine ⟨[], emits_nil fun out q bus ts => ?_⟩
  split at h <;> rename_i hs <;> cases h <;> simp only [exec, execEncStart, State.dress_enc, hs] <;> rfl

theorem exists_emits_encSym {sym : Byte} {s t : State} (h : exec (.encSym sym) s = .next t) :
    ∃ new, Emits .enc (.encSym sym) s t new := by
  simp only [exec, execEncSym] at h
  split at h
  · rename_i hs
    cases h
    exact ⟨[], emits_nil fun out q bus ts => by simp only [exec, execEncSym, State.dress_enc, hs]⟩
  · rename_i hs
    cases h
    exact ⟨[], emits_nil fun out q bus ts => by simp only [exec, execEncSym, State.dress_enc, hs, raiseErr_dress]⟩
  · rename_i hs
    split at h
    · cases h
    · rename_i hc
      cases h
      exact ⟨[], emits_nil fun out q bus ts => by
        simp only [exec, execEncSym, State.dress_enc, State.dress_mem, hs, hc, raiseErr_dress]⟩
    · rename_i code hc
      cases h
      exact ⟨[], emits_nil fun out q bus ts => by
        simp only [exec, execEncSym, State.dress_enc, State.dress_mem, hs, hc, raiseErr_dress]⟩
    · rename_i l code hc
      cases h
      obtain ⟨new, hlen, hout⟩ := s.enc.appendBits_setOut (codeBits (l + 1) code)
      rw [codeBits_length] at hlen
      refine ⟨new, ?_, fun out q bus ts => ?_⟩
      · have hlt := accN_lt (s.enc.appendBits (codeBits (l + 1) code))
        rw [need, needEncSym_of_present hs hc]
        omega
      · have hs' : (s.dress .enc out q bus ts).enc.state = .active := hs
        have hsym : ({ s.enc with out := out } : EncUnit).encodeSymbol (codeBits (l + 1) code) =
            { s.enc.encodeSymbol (codeBits (l + 1) code) with out := out ++ new } := by
          rw [EncUnit.encodeSymbol, hout]
          rfl
        simp only [exec, execEncSym, hs', State.dress_mem, hc]
        rw [State.dress_enc, hsym]
        rfl

theorem exists_emits_encFlush {s t : State} (h : exec .encFlush s = .next t) : ∃ new, Emits .enc .encFlush s t new := by
  simp only [exec, execEncFlush] at h
  split at h
  · rename_i hs
    cases h
    exact ⟨[], emits_nil fun out q bus ts => by simp only [exec, execEncFlush, State.dress_enc, hs]⟩
  · rename_i hs
    cases h
    exact ⟨[], emits_nil fun out q bus ts => by simp only [exec, execEncFlush, State.dress_enc, hs, raiseErr_dress]⟩
  · rename_i hs
    cases h
    refine ⟨pack (pendingBits s.enc), ?_, fun out q bus ts => ?_⟩
    · have hlt := accN_lt s.enc
      simp only [need, needEncFlush, hs]
      split
      · rename_i h0
        rw [pendingBits_of_accN_eq_zero h0]
        exact le_refl 0
      · simp only [pack, List.length_map, List.length_range, pendingBits_length]
        omega
    · simp only [exec, execEncFlush, State.dress_enc, hs, EncUnit.flushed_eq]
      rfl

theorem exists_emits_decStart {s t : State} (h : exec .decStart s = .next t) : ∃ new, Emits .dec .decStart s t new := by
  simp only [exec, execDecStart] at h
  refine ⟨[], emits_nil fun out q bus ts => ?_⟩
  split at h <;> rename_i hs <;> cases h <;> simp only [exec, execDecStart, State.dress_dec, hs] <;> rfl

/-- The walk does not read what a dress changes. -/
theorem walkBits_dress (s : State) (out : List Byte) (q : List Word) (bus : Option Response) (ts : List Turn) :
    walkBits (s.dress .dec out q bus ts) = walkBits s :=
  funext fun bits => funext fun d =>
    walkBits_congr (s := s) (s' := s.dress .dec out q bus ts) (fun _ => rfl) rfl rfl bits d

theorem exists_emits_decBits {n : BitVec 4} {data : Byte} {s t : State} (hn : LegalCount n)
    (h : exec (.decBits n data) s = .next t) : ∃ new, Emits .dec (.decBits n data) s t new := by
  simp only [exec, execDecBits, if_pos hn] at h
  split at h
  · rename_i hs
    cases h
    exact ⟨[], emits_nil fun out q bus ts => by simp only [exec, execDecBits, if_pos hn, State.dress_dec, hs]⟩
  · rename_i hs
    cases h
    exact ⟨[], emits_nil fun out q bus ts => by
      simp only [exec, execDecBits, if_pos hn, State.dress_dec, hs, raiseErr_dress]⟩
  · rename_i hs
    split at h
    · rename_i d hw
      cases h
      obtain ⟨new, hlen, hout⟩ := walkBits_setOut hw
      refine ⟨new, by simpa [need, needDecBits, hs] using hlen, fun out q bus ts => ?_⟩
      have hw' : walkBits (s.dress .dec out q bus ts) (groupBits n data) (s.dress .dec out q bus ts).dec =
          .more { d with out := out ++ new } := by rw [walkBits_dress, State.dress_dec, hout]
      exact exec_decBits_of_walk_more (s := s.dress .dec out q bus ts) hn hs hw'
    · rename_i d code hw
      cases h
      refine ⟨[], emits_nil fun out q bus ts => ?_⟩
      have hw' : walkBits (s.dress .dec out q bus ts) (groupBits n data) (s.dress .dec out q bus ts).dec =
          .raised { d with out := out } code := by rw [walkBits_dress, State.dress_dec, walkBits_raised_setOut hw]
      have hs' : (s.dress .dec out q bus ts).dec.state = .active := hs
      simp only [exec, execDecBits, if_pos hn, hs', hw']
      rfl
    · cases h

theorem exists_emits_decEnd {s t : State} (h : exec .decEnd s = .next t) : ∃ new, Emits .dec .decEnd s t new := by
  simp only [exec, execDecEnd] at h
  refine ⟨[], emits_nil fun out q bus ts => ?_⟩
  split at h <;> rename_i hs
  · cases h
    simp only [exec, execDecEnd, State.dress_dec, hs]
  · cases h
    simp only [exec, execDecEnd, State.dress_dec, hs, raiseErr_dress]
  · split at h
    · rename_i hempty
      cases h
      simp only [exec, execDecEnd, State.dress_dec, State.dress_treeValid, hs, if_pos hempty, raiseErr_dress]
    · rename_i hempty
      split at h <;> rename_i hcut <;> cases h
      · simp only [exec, execDecEnd, State.dress_dec, State.dress_treeValid, State.dress_root, hs, if_neg hempty,
          if_pos hcut, raiseErr_dress]
      · simp only [exec, execDecEnd, State.dress_dec, State.dress_treeValid, State.dress_root, hs, if_neg hempty,
          if_neg hcut]
        rfl

/-- A stream command that answers a next state only appends to its unit's output FIFO, and does the same whatever that FIFO,
CMDQ, the bus answer and the list of turns hold. -/
theorem StreamCommand.exists_emits {u : CodecUnit} {i : Instr} {s t : State} (hi : StreamCommand u i)
    (h : exec i s = .next t) : ∃ new, Emits u i s t new := by
  cases hi with
  | encStart => exact exists_emits_encStart h
  | encSym sym => exact exists_emits_encSym h
  | encFlush => exact exists_emits_encFlush h
  | decStart => exact exists_emits_decStart h
  | decBits hn data => exact exists_emits_decBits hn h
  | decEnd => exact exists_emits_decEnd h

/-- What a command appends to a dressed output FIFO it appends to the undressed one. -/
theorem Emits.outFifo {u : CodecUnit} {i : Instr} {s t : State} {new : List Byte} (h : Emits u i s t new)
    (ht : exec i s = .next t) : t.outFifo u = s.outFifo u ++ new := by
  have hd := h.2 (s.outFifo u) s.cmdq s.bus s.turns
  have hs : s.dress u (s.outFifo u) s.cmdq s.bus s.turns = s := by cases u <;> rfl
  rw [hs, ht] at hd
  have heq := congrArg (State.outFifo · u) (Host.Outcome.next.inj hd)
  simpa using heq

theorem exec_cfg {i : Instr} {s t : State} (h : exec i s = .next t) : t.cfg = s.cfg := by
  rcases exec_next h with ⟨_, rfl⟩ | ⟨_, e, rfl⟩ | ⟨_, d, rfl⟩ <;> rfl

theorem need_dress {u : CodecUnit} {i : Instr} (hi : StreamCommand u i) (s : State) (out : List Byte) (q : List Word)
    (bus : Option Response) (ts : List Turn) : need i (s.dress u out q bus ts) = need i s := by
  cases hi <;> rfl

/-- The engine's turn on a dressed state whose next command is a stream command (R121, R122): the command is held, or it
does what it does undressed, and its output fits. -/
theorem engineStep_dress {u : CodecUnit} {i : Instr} {s t : State} (hi : StreamCommand u i) (h : exec i s = .next t)
    {out : List Byte} (hlevel : out.length ≤ s.outDepth u) (q : List Word) (bus : Option Response) (ts : List Turn) :
    engineStep (s.dress u out (encode i :: q) bus ts) = .next (s.dress u out (encode i :: q) bus ts) ∨
      ∃ new, t.outFifo u = s.outFifo u ++ new ∧ (out ++ new).length ≤ s.outDepth u ∧
        engineStep (s.dress u out (encode i :: q) bus ts) = .next (t.dress u (out ++ new) q bus ts) := by
  have hdecode := decodeOfEncodeIsTheCommand i hi.wellFormed
  obtain ⟨new, hnew⟩ := hi.exists_emits h
  have hhead : (s.dress u out (encode i :: q) bus ts).cmdq = encode i :: q := State.dress_cmdq ..
  have hrest : { s.dress u out (encode i :: q) bus ts with cmdq := q } = s.dress u out q bus ts := rfl
  unfold engineStep
  simp only [hhead, hrest, held_of_legal hdecode, execWord_of_legal hdecode]
  by_cases hheld : heldInstr i (s.dress u out (encode i :: q) bus ts) = true
  · exact .inl (by rw [if_pos hheld])
  · refine .inr ⟨new, hnew.outFifo h, ?_, ?_⟩
    · have hroom := need_le_freeOut hi.unit (Bool.eq_false_iff.mpr hheld)
      rw [need_dress hi, State.dress_freeOut] at hroom
      have hlen := hnew.1
      rw [List.length_append]
      omega
    · rw [if_neg hheld, hnew.2]

end Sys2Proof.Machine
end

section
/-! The drivers beside the block (R94, R95), part two: what a driver keeps in every step, and what it reports. -/

namespace Sys2Proof.Machine

open Reference

/-! ### The registers a driver reads -/

theorem byte_ofNat_eq_zero_iff {n : Nat} (h : n < 256) : BitVec.ofNat 8 n = 0 ↔ n = 0 := by
  rw [← BitVec.toNat_inj, BitVec.toNat_ofNat, Nat.mod_eq_of_lt h]
  rfl

theorem levelField_levelsWord (u : CodecUnit) (s : State) :
    levelField u (levelsWord s) = BitVec.ofNat 8 (s.outFifo u).length := by
  obtain ⟨_, henc, hdec, _⟩ := levelsWord_fields s
  cases u
  · exact henc
  · exact hdec

theorem statusField_statusWord (u : CodecUnit) (s : State) :
    statusField u (statusWord s) = (s.unitState u).code := by
  obtain ⟨henc, hdec, _⟩ := statusWord_fields s
  cases u
  · exact henc
  · exact hdec

theorem hostAccess_readLevels (s : State) :
    hostAccess (memRead 0x01C) s = { s with bus := some (.admitted (some (levelsWord s))) } :=
  hostAccess_read (by decide) s

theorem hostAccess_readStatus (s : State) :
    hostAccess (memRead 0x00C) s = { s with bus := some (.admitted (some (statusWord s))) } :=
  hostAccess_read (by decide) s

theorem hostAccess_readEncBitcnt (s : State) :
    hostAccess (memRead 0x02C) s = { s with bus := some (.admitted (some s.enc.bitcnt)) } :=
  hostAccess_read (by decide) s

theorem hostAccess_readOut_nil {u : CodecUnit} {s : State} (h : s.outFifo u = []) :
    hostAccess (memRead (outRegister u)) s = { s with bus := some (.admitted (some 0)) } := by
  cases u
  · have hread : busRead (target 0x024) s = (0, s) := by
      show readEncOut s = _
      simp only [readEncOut, show s.enc.out = [] from h]
    rw [outRegister, hostAccess_read (by decide), hread]
  · have hread : busRead (target 0x028) s = (0, s) := by
      show readDecOut s = _
      simp only [readDecOut, show s.dec.out = [] from h]
    rw [outRegister, hostAccess_read (by decide), hread]

theorem hostAccess_readOut_cons {u : CodecUnit} {s : State} {b : Byte} {rest : List Byte} (h : s.outFifo u = b :: rest) :
    hostAccess (memRead (outRegister u)) s =
      { s.setOut u rest with bus := some (.admitted (some (outWord b))) } := by
  cases u
  · have hread : busRead (target 0x024) s = (outWord b, s.setOut .enc rest) := by
      show readEncOut s = _
      simp only [readEncOut, show s.enc.out = b :: rest from h]
      rfl
    rw [outRegister, hostAccess_read (by decide), hread]
  · have hread : busRead (target 0x028) s = (outWord b, s.setOut .dec rest) := by
      show readDecOut s = _
      simp only [readDecOut, show s.dec.out = b :: rest from h]
      rfl
    rw [outRegister, hostAccess_read (by decide), hread]

theorem hostAccess_writeCmd {s : State} (h : s.cmdq.length < s.cfg.cmdqDepth) (w : Word) :
    hostAccess (memWrite 0x020 w) s = { s with cmdq := s.cmdq ++ [w], bus := some (.admitted none) } := by
  have hwrite : busWrite (target 0x020) w s = { s with cmdq := s.cmdq ++ [w] } := if_pos h
  rw [hostAccess_write w (by decide), hwrite]

theorem outWord_valid (b : Byte) : (outWord b).getLsbD 31 = true := by
  rw [outWord_eq, BitVec.getLsbD_or]
  simp

theorem outWord_data (b : Byte) : field (outWord b) 0 8 = b := by
  apply BitVec.eq_of_getLsbD_eq
  intro i hi
  have htop : (0x80000000#32).getLsbD i = false := by interval_cases i <;> rfl
  have h32 : i < 32 := by omega
  rw [field, outWord_eq, BitVec.getLsbD_extractLsb', BitVec.getLsbD_or, Nat.zero_add, htop, BitVec.getLsbD_setWidth]
  simp [hi, h32]

/-! ### What a driver keeps -/

/-- What a driver reports of the state after its commands (R94, R95). -/
def reported (u : CodecUnit) (final : State) : DriverResult :=
  match u with
  | .enc => .encoded final.enc.out final.enc.bitcnt
  | .dec => .decoded final.dec.out

/-- What holds of a driver in its phase, with the commands `Q` in CMDQ and `out` in the output FIFO. In the phases of
R96 nothing does: they are not reached. -/
def PhaseHolds (final : State) (d : Driver) (g : State) (Q : List Instr) (out : List Byte) : Prop :=
  match d.phase with
  | .requireLevels => Q = [] ∧ out = [] ∧ g.unitState d.unit = .idle
  | .requireStatus => Q = [] ∧ out = [] ∧ g.unitState d.unit = .idle
  | .pollStatus => True
  | .pollLevels =>
    (d.status.getLsbD 4 = true → Q = []) ∧ (d.status.getLsbD 5 = false → Q.length < g.cfg.cmdqDepth)
  | .push => d.cmds ≠ [] ∧ Q.length < g.cfg.cmdqDepth
  | .drain => True
  | .finalStatus => d.cmds = [] ∧ Q = [] ∧ out = []
  | .finalCount => d.unit = .enc ∧ d.cmds = [] ∧ Q = [] ∧ out = [] ∧ statusField d.unit d.status ≠ 2
  | .done r => d.cmds = [] ∧ Q = [] ∧ out = [] ∧ r = reported d.unit final
  | .readErr => False
  | .readErrCmd => False
  | .resetUnit => False

/-- A driver on its way to the state `final` that its commands lead to: the block is the undrained state `g` with the
commands `Q` in CMDQ and `out` in the output FIFO; what the driver has collected and what the FIFO holds are together the
output so far. -/
structure Driving (final : State) (d : Driver) (g : State) (Q : List Instr) (out : List Byte) : Prop where
  bounds : g.cfg.InBounds
  stream : ∀ i ∈ Q ++ d.cmds, StreamCommand d.unit i
  run : execAll (Q ++ d.cmds) g = .next final
  output : g.outFifo d.unit = d.out ++ out
  level : out.length ≤ g.outDepth d.unit
  queue : Q.length ≤ g.cfg.cmdqDepth
  phase : PhaseHolds final d g Q out

/-- The bench of a driver that is on its way. -/
def DriverInv (u : CodecUnit) (final : State) (b : Bench) : Prop :=
  ∃ (d : Driver) (g : State) (Q : List Instr) (out : List Byte) (bus : Option Response) (ts : List Turn),
    b = { host := .driver d, block := g.dress u out (Q.map encode) bus ts } ∧ d.unit = u ∧ Driving final d g Q out

/-- Running commands from the first one on. -/
theorem execAll_cons {i : Instr} {is : List Instr} {s t : State} (h : execAll (i :: is) s = .next t) :
    ∃ s', exec i s = .next s' ∧ execAll is s' = .next t := by
  simp only [execAll] at h
  split at h
  · rename_i s' hs
    exact ⟨s', hs, h⟩
  · cases h
  · cases h

/-- An executed command leaves a driver's phase as it was: CMDQ only gets shorter, and the phases that need it empty need not
be looked at. -/
theorem PhaseHolds.executed {final : State} {d : Driver} {g g' : State} {i : Instr} {Q : List Instr} {out out' : List Byte}
    (h : PhaseHolds final d g (i :: Q) out) (hcfg : g'.cfg = g.cfg) : PhaseHolds final d g' Q out' := by
  cases hp : d.phase with
  | pollStatus => simp only [PhaseHolds, hp]
  | drain => simp only [PhaseHolds, hp]
  | pollLevels =>
    simp only [PhaseHolds, hp, hcfg, List.length_cons] at h ⊢
    exact ⟨fun h4 => absurd (h.1 h4) (List.cons_ne_nil i Q), fun h5 => Nat.lt_of_succ_lt (h.2 h5)⟩
  | push =>
    simp only [PhaseHolds, hp, hcfg, List.length_cons] at h ⊢
    exact ⟨h.1, Nat.lt_of_succ_lt h.2⟩
  | _ => simp [PhaseHolds, hp] at h

theorem DriverInv.step_engine {u : CodecUnit} {final : State} {b : Bench} (h : DriverInv u final b) :
    ∃ b', b.step .engine = .next b' ∧ DriverInv u final b' := by
  obtain ⟨d, g, Q, out, bus, ts, rfl, rfl, hd⟩ := h
  have hbounds : (g.dress d.unit out (Q.map encode) bus ts).cfg.InBounds := by rw [State.dress_cfg]; exact hd.bounds
  cases Q with
  | nil =>
    have hstep : engineStep (g.dress d.unit out [] bus []) = .next (g.dress d.unit out [] bus []) := by
      simp only [engineStep, State.dress_cmdq]
    exact ⟨_, Bench.step_engine hbounds hstep, d, g, [], out, bus, [], rfl, rfl, hd⟩
  | cons i Q =>
    obtain ⟨g', hi, hrest⟩ := execAll_cons hd.run
    have hcfg := exec_cfg hi
    rcases engineStep_dress (hd.stream i List.mem_cons_self) hi hd.level (Q.map encode) bus [] with
      hstep | ⟨new, hnew, hlevel, hstep⟩
    · exact ⟨_, Bench.step_engine hbounds hstep, d, g, i :: Q, out, bus, [], rfl, rfl, hd⟩
    · refine ⟨_, Bench.step_engine hbounds hstep, d, g', Q, out ++ new, bus, [], rfl, rfl, ?_⟩
      exact
        { bounds := by rw [hcfg]; exact hd.bounds
          stream := fun x hx => hd.stream x (List.mem_cons_of_mem i hx)
          run := hrest
          output := by rw [hnew, hd.output, List.append_assoc]
          level := by
            have hdepth : g'.outDepth d.unit = g.outDepth d.unit := by simp only [State.outDepth, hcfg]
            rw [hdepth]
            exact hlevel
          queue := by
            have := hd.queue
            rw [List.length_cons] at this
            rw [hcfg]
            omega
          phase := hd.phase.executed hcfg }

/-- What a driver keeps does not depend on its phase and on the values it has read. -/
theorem Driving.setPhase {final : State} {d d' : Driver} {g : State} {Q : List Instr} {out : List Byte}
    (h : Driving final d g Q out) (hu : d'.unit = d.unit) (hc : d'.cmds = d.cmds) (ho : d'.out = d.out)
    (hp : PhaseHolds final d' g Q out) : Driving final d' g Q out := by
  obtain ⟨bounds, stream, run, output, level, queue, _⟩ := h
  rw [← hu] at stream output level
  rw [← hc] at stream run
  rw [← ho] at output
  exact ⟨bounds, stream, run, output, level, queue, hp⟩

/-- All commands are executed once none is left in CMDQ or in the driver. -/
theorem Driving.finished {final : State} {d : Driver} {g : State} {Q : List Instr} {out : List Byte}
    (h : Driving final d g Q out) (hc : d.cmds = []) (hQ : Q = []) (ho : out = []) :
    g = final ∧ final.outFifo d.unit = d.out := by
  have hrun := h.run
  rw [hQ, hc] at hrun
  cases hrun
  exact ⟨rfl, by rw [h.output, ho, List.append_nil]⟩

/-- The host's step of a driver is its access and the answer to it. -/
theorem Bench.step_driver {d : Driver} {s s' : State} {a : Access} (hb : s.cfg.InBounds) (ha : d.access = some a)
    (hs : hostAccess a { s with turns := [] } = s') :
    Bench.step .host { host := .driver d, block := s } =
      .next { host := .driver (d.answered s'.answer), block := s' } := by
  subst hs
  exact Bench.step_host (b := { host := .driver d, block := s }) hb ha

section
variable {final : State} {d : Driver} {g : State} {Q : List Instr} {out : List Byte} (h : Driving final d g Q out)
  (bus : Option Response) (ts : List Turn)
include h

theorem Driving.dress_bounds : (g.dress d.unit out (Q.map encode) bus ts).cfg.InBounds := by
  rw [State.dress_cfg]
  exact h.bounds

theorem Driving.level_lt : out.length < 256 := by
  obtain ⟨_, ⟨_, henc⟩, ⟨_, hdec⟩, _⟩ := h.bounds
  have hlevel := h.level
  cases hu : d.unit <;> rw [hu] at hlevel <;> simp only [State.outDepth] at hlevel <;> omega

/-- A read that leaves the block as it was: only the driver goes on. -/
theorem Driving.step_read {a : Access} {v : Word} {d' : Driver} (ha : d.access = some a)
    (hs : hostAccess a (g.dress d.unit out (Q.map encode) bus []) =
      g.dress d.unit out (Q.map encode) (some (.admitted (some v))) [])
    (hd' : d.answered v = d') (hu : d'.unit = d.unit) (hc : d'.cmds = d.cmds) (ho : d'.out = d.out)
    (hp : PhaseHolds final d' g Q out) :
    ∃ b', Bench.step .host { host := .driver d, block := g.dress d.unit out (Q.map encode) bus ts } = .next b' ∧
      DriverInv d.unit final b' := by
  subst hd'
  exact ⟨_, Bench.step_driver (h.dress_bounds bus ts) ha hs, d.answered v, g, Q, out, some (.admitted (some v)), [], rfl,
    hu, h.setPhase hu hc ho hp⟩

/-- The levels that a driver reads are 0 exactly where the FIFOs are empty. -/
theorem Driving.levels :
    (queueField (levelsWord (g.dress d.unit out (Q.map encode) bus [])) = 0 ↔ Q = []) ∧
      (levelField d.unit (levelsWord (g.dress d.unit out (Q.map encode) bus [])) = 0 ↔ out = []) := by
  obtain ⟨hfield, _⟩ := levelsWord_fields (g.dress d.unit out (Q.map encode) bus [])
  obtain ⟨⟨_, hdepth⟩, _⟩ := h.bounds
  have hqueue := h.queue
  have hlevel := h.level_lt
  refine ⟨?_, ?_⟩
  · rw [queueField, hfield, State.dress_cmdq, List.length_map, byte_ofNat_eq_zero_iff (by omega),
      List.length_eq_zero_iff]
  · rw [levelField_levelsWord, State.dress_outFifo, byte_ofNat_eq_zero_iff hlevel, List.length_eq_zero_iff]

theorem Driving.status :
    ((statusWord (g.dress d.unit out (Q.map encode) bus [])).getLsbD 4 = true ↔ Q = []) ∧
      ((statusWord (g.dress d.unit out (Q.map encode) bus [])).getLsbD 5 = false ↔ Q.length < g.cfg.cmdqDepth) ∧
      statusField d.unit (statusWord (g.dress d.unit out (Q.map encode) bus [])) = (g.unitState d.unit).code := by
  obtain ⟨hempty, hfull, _⟩ := statusWord_flags (g.dress d.unit out (Q.map encode) bus [])
  have hqueue := h.queue
  refine ⟨?_, ?_, ?_⟩
  · rw [hempty, State.cmdqEmpty, State.dress_cmdq, decide_eq_true_iff, List.length_map, List.length_eq_zero_iff]
  · rw [hfull, State.cmdqFull, State.dress_cmdq, State.dress_cfg, decide_eq_false_iff_not, List.length_map]
    omega
  · rw [statusField_statusWord, State.dress_unitState]

end

/-- A command that a driver writes is the last one in CMDQ (R59). -/
theorem Driving.step_push {final g : State} {u : CodecUnit} {i : Instr} {rest Q : List Instr} {dout out : List Byte}
    {status count : Word} {code : BitVec 4} (h : Driving final ⟨u, i :: rest, dout, .push, status, count, code⟩ g Q out)
    (bus : Option Response) (ts : List Turn) :
    ∃ b', Bench.step .host { host := .driver ⟨u, i :: rest, dout, .push, status, count, code⟩
                             block := g.dress u out (Q.map encode) bus ts } = .next b' ∧ DriverInv u final b' := by
  have hb := h.dress_bounds bus ts
  obtain ⟨bounds, stream, run, output, level, _, _, hlt⟩ := h
  have hs := hostAccess_writeCmd (s := g.dress u out (Q.map encode) bus []) (by simpa using hlt) (encode i)
  have hsplit : Q ++ [i] ++ rest = Q ++ i :: rest := by rw [List.append_assoc, List.singleton_append]
  rw [← hsplit] at stream run
  refine ⟨_, Bench.step_driver hb rfl hs, ⟨u, rest, dout, .drain, status, count, code⟩, g, Q ++ [i], out,
    some (.admitted none), [], ?_, rfl, bounds, stream, run, output, level, by simpa using hlt, trivial⟩
  rw [List.map_append]
  cases u <;> rfl

/-- A read of the output FIFO takes its head to the driver's output, if there is one (R33, R34). -/
theorem Driving.step_drain {final g : State} {u : CodecUnit} {cmds Q : List Instr} {dout out : List Byte}
    {status count : Word} {code : BitVec 4} (h : Driving final ⟨u, cmds, dout, .drain, status, count, code⟩ g Q out)
    (bus : Option Response) (ts : List Turn) :
    ∃ b', Bench.step .host { host := .driver ⟨u, cmds, dout, .drain, status, count, code⟩
                             block := g.dress u out (Q.map encode) bus ts } = .next b' ∧ DriverInv u final b' := by
  cases out with
  | nil =>
    exact h.step_read bus ts rfl (hostAccess_readOut_nil (State.dress_outFifo ..)) rfl rfl rfl rfl trivial
  | cons b rest =>
    have hb := h.dress_bounds bus ts
    have hs := hostAccess_readOut_cons (s := g.dress u (b :: rest) (Q.map encode) bus []) (State.dress_outFifo ..)
    have hans : Driver.answered (outWord b) ⟨u, cmds, dout, .drain, status, count, code⟩ =
        ⟨u, cmds, dout ++ [b], .pollStatus, status, count, code⟩ := by
      simp only [Driver.answered, outWord_valid, outWord_data, if_true]
    obtain ⟨bounds, stream, run, output, level, queue, _⟩ := h
    refine ⟨_, Bench.step_driver hb rfl hs, ⟨u, cmds, dout ++ [b], .pollStatus, status, count, code⟩, g, Q, rest,
      some (.admitted (some (outWord b))), [], ?_, rfl, bounds, stream, run, ?_, Nat.le_of_succ_le level, queue, trivial⟩
    · rw [← hans]
      cases u <;> rfl
    · rw [output, List.append_assoc]
      rfl

/-- Every access of a driver keeps it on its way (R94, R95). -/
theorem Driving.step_host {final : State} {d : Driver} {g : State} {Q : List Instr} {out : List Byte}
    (h : Driving final d g Q out) (hfinal : final.unitState d.unit ≠ .error) (bus : Option Response) (ts : List Turn) :
    ∃ b', Bench.step .host { host := .driver d, block := g.dress d.unit out (Q.map encode) bus ts } = .next b' ∧
      DriverInv d.unit final b' := by
  obtain ⟨hqueue0, hlevel0⟩ := h.levels bus
  obtain ⟨hempty, hroom, hstate⟩ := h.status bus
  have hphase := h.phase
  obtain ⟨u, cmds, dout, phase, status, count, code⟩ := d
  dsimp only at hqueue0 hlevel0 hempty hroom hstate hfinal ⊢
  cases phase with
  | requireLevels =>
    obtain ⟨hQ, ho, hidle⟩ := hphase
    exact h.step_read bus ts rfl (hostAccess_readLevels _) (if_pos ⟨hqueue0.mpr hQ, hlevel0.mpr ho⟩) rfl rfl rfl
      ⟨hQ, ho, hidle⟩
  | requireStatus =>
    have hidle : statusField u (statusWord (g.dress u out (Q.map encode) bus [])) = 0 := by
      rw [hstate, hphase.2.2]
      rfl
    exact h.step_read bus ts rfl (hostAccess_readStatus _) (if_pos hidle) rfl rfl rfl trivial
  | pollStatus =>
    exact h.step_read bus ts rfl (hostAccess_readStatus _) rfl rfl rfl rfl ⟨hempty.mp, hroom.mp⟩
  | pollLevels =>
    obtain ⟨hdrained, hfree⟩ := hphase
    by_cases hover : cmds = [] ∧ status.getLsbD 4 = true ∧
        levelField u (levelsWord (g.dress u out (Q.map encode) bus [])) = 0
    · exact h.step_read bus ts rfl (hostAccess_readLevels _) (if_pos hover) rfl rfl rfl
        ⟨hover.1, hdrained hover.2.1, hlevel0.mp hover.2.2⟩
    · by_cases hpush : cmds ≠ [] ∧ status.getLsbD 5 = false
      · exact h.step_read bus ts rfl (hostAccess_readLevels _) ((if_neg hover).trans (if_pos hpush)) rfl rfl rfl
          ⟨hpush.1, hfree hpush.2⟩
      · exact h.step_read bus ts rfl (hostAccess_readLevels _) ((if_neg hover).trans (if_neg hpush)) rfl rfl rfl trivial
  | push =>
    obtain ⟨i, rest, rfl⟩ := List.exists_cons_of_ne_nil hphase.1
    exact h.step_push bus ts
  | drain => exact h.step_drain bus ts
  | finalStatus =>
    obtain ⟨hc, hQ, ho⟩ := hphase
    obtain ⟨rfl, hout⟩ := h.finished hc hQ ho
    have hne : statusField u (statusWord (g.dress u out (Q.map encode) bus [])) ≠ 2 := by
      rw [hstate]
      cases hs : g.unitState u with
      | idle => decide
      | active => decide
      | error => exact absurd hs hfinal
    cases u with
    | enc => exact h.step_read bus ts rfl (hostAccess_readStatus _) rfl rfl rfl rfl ⟨rfl, hc, hQ, ho, hne⟩
    | dec =>
      exact h.step_read bus ts rfl (hostAccess_readStatus _) (if_neg hne) rfl rfl rfl
        ⟨hc, hQ, ho, congrArg DriverResult.decoded hout.symm⟩
  | finalCount =>
    obtain ⟨hu, hc, hQ, ho, hne⟩ := hphase
    obtain ⟨rfl, hout⟩ := h.finished hc hQ ho
    cases hu
    exact h.step_read bus ts rfl (hostAccess_readEncBitcnt _) (if_neg hne) rfl rfl rfl
      ⟨hc, hQ, ho, congrArg (DriverResult.encoded · g.enc.bitcnt) hout.symm⟩
  | done r =>
    exact ⟨_, Bench.step_host_finished rfl, _, g, Q, out, bus, ts, rfl, rfl, h⟩
  | readErr => exact hphase.elim
  | readErrCmd => exact hphase.elim
  | resetUnit => exact hphase.elim

theorem DriverInv.step {u : CodecUnit} {final : State} (hfinal : final.unitState u ≠ .error) (b : Bench) (who : Agent)
    (h : DriverInv u final b) : ∃ b', b.step who = .next b' ∧ DriverInv u final b' := by
  cases who with
  | engine => exact h.step_engine
  | host =>
    obtain ⟨d, g, Q, out, bus, ts, rfl, rfl, hd⟩ := h
    exact hd.step_host hfinal bus ts

theorem Driver.done_of_access_eq_none {d : Driver} (h : d.access = none) : ∃ r, d.phase = .done r := by
  cases hp : d.phase with
  | done r => exact ⟨r, rfl⟩
  | push =>
    simp only [Driver.access, hp] at h
    split at h <;> cases h
  | _ => simp [Driver.access, hp] at h

/-- A driver that has no access left has reported, and the block has executed all its commands and is drained. -/
theorem DriverInv.over {u : CodecUnit} {final : State} {b : Bench} (h : DriverInv u final b)
    (hover : b.host.access = none) :
    b.host.result = some (reported u final) ∧ ∃ bus ts, b.block = final.dress u [] [] bus ts := by
  obtain ⟨d, g, Q, out, bus, ts, rfl, rfl, hd⟩ := h
  obtain ⟨r, hr⟩ := Driver.done_of_access_eq_none hover
  have hphase := hd.phase
  simp only [PhaseHolds, hr] at hphase
  obtain ⟨hc, hQ, ho, rfl⟩ := hphase
  obtain ⟨rfl, _⟩ := hd.finished hc hQ ho
  refine ⟨by simp only [HostSoftware.result, hr], bus, ts, ?_⟩
  rw [hQ, ho]
  rfl

/-- The run of a driver under any schedule (R94, R95): from an idle unit with empty FIFOs, with stream commands that lead to
`final` without an error, the run does not stop; when the driver has finished it has reported `final`'s output, and the
block stands at `final`, drained. -/
theorem driver_run {u : CodecUnit} {cmds : List Instr} {s final : State} (hb : s.cfg.InBounds) (hq : s.cmdq = [])
    (ho : s.outFifo u = []) (hidle : s.unitState u = .idle) (hcmds : ∀ i ∈ cmds, StreamCommand u i)
    (hrun : execAll cmds s = .next final) (hfinal : final.unitState u ≠ .error) (schedule : List Agent) :
    ∃ b, Bench.run schedule { host := .driver (.start u cmds), block := s } = .next b ∧
      (b.host.access = none →
        b.host.result = some (reported u final) ∧ ∃ bus ts, b.block = final.dress u [] [] bus ts) := by
  have hstart : DriverInv u final { host := .driver (.start u cmds), block := s } := by
    refine ⟨.start u cmds, s, [], [], s.bus, s.turns, ?_, rfl, hb, hcmds, hrun, ho, Nat.zero_le _, Nat.zero_le _,
      rfl, rfl, hidle⟩
    rw [List.map_nil, ← State.eq_dress s u hq ho]
  obtain ⟨b, hrun', hinv⟩ := Bench.run_of_invariant (DriverInv.step hfinal) schedule _ hstart
  exact ⟨b, hrun', hinv.over⟩

end Sys2Proof.Machine
end

section
/-! Proof of the round trip over the loader and the drivers (R97): the run of the loader (R93), and the three runs
together. -/

namespace Sys2Proof.Machine

open Reference

/-! ### What the loader keeps -/

/-- A block at rest: nothing in its FIFOs, both units IDLE. -/
structure State.AtRest (s : State) : Prop where
  bounds : s.cfg.InBounds
  queue : s.cmdq = []
  enc : s.enc.state = .idle
  dec : s.dec.state = .idle
  encOut : s.enc.out = []
  decOut : s.dec.out = []

theorem State.AtRest.gatesOpen {s : State} (h : s.AtRest) : s.GatesOpen :=
  ⟨h.queue, by rw [h.enc]; decide, by rw [h.dec]; decide⟩

/-- The tree and its table are in the RAMs, and no write was dropped. -/
structure Loaded (tree : Option CodeTree) (s : State) : Prop where
  nodes : HoldsTree s tree
  table : HoldsTable s (CodeTable.view (derive tree))
  drop : s.cfgDrop = false

theorem Loadable.loaded {tree : Option CodeTree} (h : Loadable tree) {s : State} (hs : s.GatesOpen)
    (hdrop : s.cfgDrop = false) : Loaded tree (Machine.writeAll (loadWrites tree) s) := by
  obtain ⟨hnodes, htable, hdrop'⟩ :=
    loadLeavesTreeAndTable s tree hs.queue hs.enc hs.dec hdrop h.nodes h.codes
  exact ⟨hnodes, htable, hdrop'⟩

/-- What holds in a phase of the load (R93): the writes that are left lead to the loaded tables. -/
def LoadPhaseHolds (tree : Option CodeTree) (phase : LoadPhase) (s : State) : Prop :=
  match phase with
  | .ready => True
  | .clearDrop => True
  | .writing left => (∀ w ∈ left, w ∈ loadWrites tree) ∧ s.turns = [] ∧ Loaded tree (writeAll left s)
  | .done => Loaded tree s

/-- The bench of a load. -/
def LoaderInv (tree : Option CodeTree) (b : Bench) : Prop :=
  ∃ phase s, b = { host := .loader { writes := loadWrites tree, phase := phase }, block := s } ∧ s.AtRest ∧
    LoadPhaseHolds tree phase s

theorem cfgDrop_of_loadReady {s : State} (h : loadReady (statusWord s) = true) : s.cfgDrop = false := by
  obtain ⟨_, _, _, hdrop, _⟩ := statusWord_flags s
  rw [loadReady, hdrop, Bool.and_eq_true_iff] at h
  simpa using h.2

/-- A host's step in a phase of the load: its access, and the answer to it. -/
theorem LoaderInv.step_access {tree : Option CodeTree} {phase phase' : LoadPhase} {s s' : State} {a : Access}
    (hs : s.AtRest) (ha : Loader.access { writes := loadWrites tree, phase := phase } = some a)
    (hacc : hostAccess a { s with turns := [] } = s') (hs' : s'.AtRest)
    (hans : Loader.answered s'.answer { writes := loadWrites tree, phase := phase } =
      { writes := loadWrites tree, phase := phase' }) (hp : LoadPhaseHolds tree phase' s') :
    ∃ b', Bench.step .host { host := .loader { writes := loadWrites tree, phase := phase }, block := s } = .next b' ∧
      LoaderInv tree b' := by
  refine ⟨_, Bench.step_host hs.bounds ha, phase', s', ?_, hs', hp⟩
  rw [hacc, HostSoftware.answered, hans]

theorem State.AtRest.congr {s s' : State} (h : s.AtRest) (hc : s'.cfg = s.cfg) (hq : s'.cmdq = s.cmdq) (he : s'.enc = s.enc)
    (hd : s'.dec = s.dec) : s'.AtRest := by
  obtain ⟨bounds, queue, enc, dec, encOut, decOut⟩ := h
  exact ⟨hc ▸ bounds, hq ▸ queue, he ▸ enc, hd ▸ dec, he ▸ encOut, hd ▸ decOut⟩

theorem LoaderInv.step_host {tree : Option CodeTree} (htree : Loadable tree) {phase : LoadPhase} {s : State}
    (hs : s.AtRest) (hp : LoadPhaseHolds tree phase s) :
    ∃ b', Bench.step .host { host := .loader { writes := loadWrites tree, phase := phase }, block := s } = .next b' ∧
      LoaderInv tree b' := by
  obtain ⟨s0, hs0⟩ : ∃ s0 : State, { s with turns := [] } = s0 := ⟨_, rfl⟩
  have hturns : s0.turns = [] := by rw [← hs0]
  have hrest0 : s0.AtRest := by rw [← hs0]; exact hs.congr rfl rfl rfl rfl
  have hread : hostAccess (memRead 0x00C) { s with turns := [] } =
      { s0 with bus := some (.admitted (some (statusWord s0))) } := by rw [hs0]; exact hostAccess_readStatus s0
  have hrest : ∀ bus, ({ s0 with bus := bus } : State).AtRest := fun _ => hrest0.congr rfl rfl rfl rfl
  cases phase with
  | ready =>
    by_cases hready : loadReady (statusWord s0) = true
    · refine LoaderInv.step_access (phase' := .writing (loadWrites tree)) hs rfl hread (hrest _) (if_pos hready)
        ⟨fun _ hw => hw, hturns, htree.loaded (hrest _).gatesOpen (cfgDrop_of_loadReady hready)⟩
    · by_cases hdrained : loadDrained (statusWord s0) = true
      · exact LoaderInv.step_access (phase' := .clearDrop) hs rfl hread (hrest _)
          ((if_neg hready).trans (if_pos hdrained)) trivial
      · exact LoaderInv.step_access (phase' := .ready) hs rfl hread (hrest _)
          ((if_neg hready).trans (if_neg hdrained)) trivial
  | clearDrop =>
    refine LoaderInv.step_access (phase' := .ready) hs rfl (hostAccess_write 0x80 (by decide) _) ?_ rfl trivial
    rw [hs0]
    exact hrest0.congr rfl rfl rfl rfl
  | writing left =>
    obtain ⟨hmem, ht, hloaded⟩ := hp
    have hsame : { s with turns := [] } = s := by rw [← ht]
    cases left with
    | nil =>
      obtain rfl : s0 = s := hs0.symm.trans hsame
      rw [writeAll] at hloaded
      obtain ⟨_, _, _, hdrop, _⟩ := statusWord_flags s0
      have hclear : ¬ (statusWord s0).getLsbD 7 = true := by rw [hdrop, hloaded.drop]; decide
      exact LoaderInv.step_access (phase' := .done) hs rfl hread (hrest _) (if_neg hclear)
        ⟨hloaded.nodes, hloaded.table, hloaded.drop⟩
    | cons w left =>
      obtain ⟨valid, root, hacc⟩ := hostAccess_configWrite (htree.configWrite (hmem w List.mem_cons_self)) hs.gatesOpen
      rw [writeAll, hacc] at hloaded
      have hacc' := (congrArg (hostAccess (memWrite w.1 w.2)) hsame).trans hacc
      exact LoaderInv.step_access (phase' := .writing left) hs rfl hacc' (hs.congr rfl rfl rfl rfl) rfl
        ⟨fun x hx => hmem x (List.mem_cons_of_mem w hx), ht, hloaded⟩
  | done => exact ⟨_, Bench.step_host_finished rfl, .done, s, rfl, hs, hp⟩

theorem LoaderInv.step {tree : Option CodeTree} (htree : Loadable tree) (b : Bench) (who : Agent) (h : LoaderInv tree b) :
    ∃ b', b.step who = .next b' ∧ LoaderInv tree b' := by
  obtain ⟨phase, s, rfl, hs, hp⟩ := h
  cases who with
  | host => exact LoaderInv.step_host htree hs hp
  | engine =>
    have hstep : engineStep { s with turns := [] } = .next { s with turns := [] } := by
      simp only [engineStep, hs.queue]
    refine ⟨_, Bench.step_engine hs.bounds hstep, phase, { s with turns := [] }, rfl, hs.congr rfl rfl rfl rfl, ?_⟩
    cases phase with
    | ready => trivial
    | clearDrop => trivial
    | writing left =>
      obtain ⟨hmem, ht, hloaded⟩ := hp
      have hsame : { s with turns := [] } = s := by rw [← ht]
      rw [hsame]
      exact ⟨hmem, ht, hloaded⟩
    | done => exact ⟨hp.nodes, hp.table, hp.drop⟩

/-- The run of the loader under any schedule (R93): it does not stop, and when the load is made the tree and the table are
in the RAMs and the block is at rest. -/
theorem loader_run {tree : Option CodeTree} (htree : Loadable tree) {s : State} (hs : s.AtRest) (schedule : List Agent) :
    ∃ b, Bench.run schedule { host := .loader (loader tree), block := s } = .next b ∧
      (b.host.access = none → b.block.AtRest ∧ Loaded tree b.block) := by
  obtain ⟨b, hrun, phase, t, rfl, ht, hp⟩ :=
    Bench.run_of_invariant (LoaderInv.step htree) schedule _ ⟨.ready, s, rfl, hs, trivial⟩
  refine ⟨_, hrun, fun hover => ⟨ht, ?_⟩⟩
  cases phase with
  | ready => cases hover
  | clearDrop => cases hover
  | writing left => cases left <;> cases hover
  | done => exact hp

/-! ### The three runs -/

/-- The tree built from a sequence fits the block: at most 256 leaves (R86). -/
theorem loadable_build (S : List Byte) : Loadable (build (count S)) := by
  have hcount := count_length_le S
  refine ⟨fun t ht => ?_, fun ⟨sym, code⟩ hc => ?_⟩
  · have hleaves := build_leaves ht
    have hsize := t.size_add_one
    omega
  · cases hb : build (count S) with
    | none =>
      rw [hb] at hc
      cases hc
    | some t =>
      rw [hb] at hc
      have hleaves := build_leaves hb
      have hlen := (mem_derive hc).2
      show code.length ≤ 255
      omega

theorem streamCommand_encodeCommands (S : List Byte) : ∀ i ∈ encodeCommands S, StreamCommand .enc i := by
  intro i hi
  simp only [encodeCommands, List.mem_append, List.mem_singleton, List.mem_map] at hi
  rcases hi with (rfl | ⟨sym, _, rfl⟩) | rfl
  · exact .encStart
  · exact .encSym sym
  · exact .encFlush

theorem streamCommand_decodeCommands (B : List Byte) (n : Nat) :
    ∀ i ∈ decodeCommands (packedGroups B n), StreamCommand .dec i := by
  intro i hi
  simp only [decodeCommands, List.mem_append, List.mem_singleton, List.mem_map] at hi
  rcases hi with (rfl | ⟨g, hg, rfl⟩) | rfl
  · exact .decStart
  · exact .decBits (packedGroups_legalCount hg) g.2
  · exact .decEnd

/-- The run of the encode driver on a loaded block (R94). -/
theorem encodeDriver_run {s : State} {S : List Byte} {bits : List Bool} (hs : s.AtRest)
    (hload : Loaded (build (count S)) s)
    (hbits : encodeRef (CodeTable.view (derive (build (count S)))) S = .ok bits) (schedule : List Agent) :
    ∃ b, Bench.run schedule { host := .driver (encodeDriver S), block := s } = .next b ∧
      (b.host.access = none →
        b.host.result = some (.encoded (pack bits) (BitVec.ofNat 32 bits.length)) ∧ b.block.AtRest ∧
          Loaded (build (count S)) b.block) := by
  have hrun := execAll_encodeCommands hs.enc (by rw [hload.table.codeView_eq]; exact hbits)
  obtain ⟨b, hb, hover⟩ := driver_run (u := .enc) hs.bounds hs.queue hs.encOut hs.enc (streamCommand_encodeCommands S) hrun
    nofun schedule
  refine ⟨b, hb, fun hnone => ?_⟩
  obtain ⟨hresult, bus, ts, hblock⟩ := hover hnone
  have hout : (s.enc.afterStream bits S.length).out = pack bits := by rw [EncUnit.afterStream, hs.encOut, List.nil_append]
  rw [hblock]
  refine ⟨?_, ⟨hs.bounds, rfl, rfl, hs.dec, rfl, hs.decOut⟩, hload.nodes, hload.table, hload.drop⟩
  rw [hresult, reported, State.setEnc_enc, hout]
  rfl

/-- The run of the decode driver on the encoding of a sequence, on a block loaded with the sequence's tree (R95). -/
theorem decodeDriver_run {s : State} {S : List Byte} {bits : List Bool} (hs : s.AtRest)
    (hload : Loaded (build (count S)) s)
    (hbits : encodeRef (CodeTable.view (derive (build (count S)))) S = .ok bits) (schedule : List Agent) :
    ∃ b, Bench.run schedule { host := .driver (decodeDriver (pack bits) bits.length), block := s } = .next b ∧
      (b.host.access = none →
        b.host.result = some (.decoded S) ∧ b.block.enc.state = .idle ∧ b.block.dec.state = .idle) := by
  obtain ⟨d, hrun, hidle, hout⟩ := execAll_decode_packed hs.dec hload.nodes hbits
  have hfinal : (s.setDec d).unitState .dec ≠ .error := by
    rw [State.unitState_dec, State.setDec_dec, hidle]
    decide
  obtain ⟨b, hb, hover⟩ := driver_run (u := .dec) hs.bounds hs.queue hs.decOut hs.dec
    (streamCommand_decodeCommands (pack bits) bits.length) hrun hfinal schedule
  refine ⟨b, hb, fun hnone => ?_⟩
  obtain ⟨hresult, bus, ts, hblock⟩ := hover hnone
  rw [hblock]
  refine ⟨?_, hs.enc, hidle⟩
  rw [hresult, reported, State.setDec_dec, hout, hs.decOut, List.nil_append]

/-- Settles O55: the runs of the loader, the encode driver and the decode driver, one after another. -/
theorem driversRoundTrip : Obligations.DriversRoundTrip := by
  intro s S bits load hb hq henc hdec heo hdo hbits hlen
  obtain ⟨b1, hrun1, hover1⟩ := loader_run (loadable_build S) ⟨hb, hq, henc, hdec, heo, hdo⟩ load
  refine ⟨b1, hrun1, fun h1 encode => ?_⟩
  obtain ⟨hrest1, hload1⟩ := hover1 h1.1
  obtain ⟨b2, hrun2, hover2⟩ := encodeDriver_run hrest1 hload1 hbits encode
  refine ⟨b2, hrun2, fun h2 => ?_⟩
  obtain ⟨hresult2, hrest2, hload2⟩ := hover2 h2.1
  have hn : (BitVec.ofNat 32 bits.length).toNat = bits.length := by
    rw [BitVec.toNat_ofNat, Nat.mod_eq_of_lt hlen]
  refine ⟨pack bits, _, hresult2, rfl, hn, fun decode => ?_⟩
  rw [hn]
  obtain ⟨b3, hrun3, hover3⟩ := decodeDriver_run hrest2 hload2 hbits decode
  refine ⟨b3, hrun3, fun h3 => ?_⟩
  obtain ⟨hresult3, henc3, hdec3⟩ := hover3 h3.1
  exact ⟨hresult3, by rw [henc3]; decide, by rw [hdec3]; decide⟩

end Sys2Proof.Machine
end

section
/-! Proofs about the encoder's commands (R100-R105) and the law of an encode stream (R106). -/

namespace Sys2Proof.Machine

open Reference Laws

/-! ### Commands in an open stream -/

/-- Settles O14: the unit after ENC_SYM is `encodeSymbol`, and the law of appended bits says what it holds. -/
theorem encSymAppendsTheCode : Obligations.EncSymAppendsTheCode := by
  intro s sym l code hs hz hread
  have hlen := codeBits_length (l + 1) code
  obtain ⟨hout, hpending, hzero⟩ := EncUnit.appendBits_law (codeBits (l + 1) code) s.enc hz
  have hcount := EncUnit.appendBits_out_length (codeBits (l + 1) code) s.enc hz
  have haccN := EncUnit.appendBits_accN (codeBits (l + 1) code) s.enc hz
  rw [hlen] at hcount haccN
  refine ⟨s.enc.encodeSymbol (codeBits (l + 1) code), ?_, hout, hcount, hpending, haccN, hzero, ?_, rfl, ?_,
    EncUnit.encodeSymbol_err _ _, EncUnit.encodeSymbol_errCmd _ _⟩
  · simp only [exec, execEncSym, hs, hread]
    rfl
  · rw [EncUnit.encodeSymbol_bitcnt, hlen]
  · rw [EncUnit.encodeSymbol_state, hs]

/-! ### Commands in ERROR (R105, R115) -/

/-- In ERROR every command of the unit but its reset is discarded. -/
theorem exec_of_unit_error {i : Instr} {u : CodecUnit} {s : State} (hu : i.unit = some u) (he : s.unitState u = .error)
    (henc : ∀ x, i ≠ .encReset x) (hdec : ∀ x, i ≠ .decReset x) : exec i s = .next s := by
  cases i <;> cases hu
  case encStart | encSym | encFlush | encAbort =>
    rw [State.unitState_enc] at he
    simp only [exec, execEncStart, execEncSym, execEncFlush, execEncAbort, he]
  case encReset x => exact absurd rfl (henc x)
  case decStart | decBits | decEnd | decAbort =>
    have hill : ∀ w, illegalCommand .dec w s = s := fun w => by simp only [illegalCommand, he]
    rw [State.unitState_dec] at he
    simp only [exec, execDecStart, execDecBits, execDecEnd, execDecAbort, he, hill, ite_self]
  case decReset x => exact absurd rfl (hdec x)

/-- No command is held while its unit is in ERROR (R122). -/
theorem heldInstr_of_unit_error {i : Instr} {u : CodecUnit} {s : State} (hu : i.unit = some u)
    (he : s.unitState u = .error) : heldInstr i s = false := by
  have hneed : need i s = 0 := by
    cases i <;> cases hu
    case encSym | encFlush =>
      rw [State.unitState_enc] at he
      simp only [need, needEncSym, needEncFlush, he]
    case decBits =>
      rw [State.unitState_dec] at he
      simp only [need, needDecBits, he]
    all_goals rfl
  simp [heldInstr, hu, hneed]

/-- Every row of the opcode map has its opcode and its unit in its word (R71, R72, R73). -/
theorem opcodeField_statement (i : Instr) : OpcodeField.Statement i := by
  cases i with
  | nop x => exact OpcodeField.nop x
  | encStart => exact OpcodeField.encStart
  | encSym sym => exact OpcodeField.encSym sym
  | encFlush => exact OpcodeField.encFlush
  | encAbort => exact OpcodeField.encAbort
  | encReset x => exact OpcodeField.encReset x
  | decStart => exact OpcodeField.decStart
  | decBits n data => exact OpcodeField.decBits n data
  | decEnd => exact OpcodeField.decEnd
  | decAbort => exact OpcodeField.decAbort
  | decReset x => exact OpcodeField.decReset x

/-- OP of a word is the opcode of the command it decodes to (R73). -/
theorem opField_of_decode {w : Word} {i : Instr} (h : decode w = .legal i) :
    field w 28 4 = BitVec.ofNat 4 (OpcodeField.opcode i) := by
  obtain ⟨rfl, _⟩ := encodeOfDecodeIsTheWord w i h
  exact opField_encode (opcodeField_statement i)

/-- A legal word but NOP is a command of the unit of its bit [31] (R72). -/
theorem unit_of_decode {w : Word} {i : Instr} (h : decode w = .legal i) (h0 : field w 28 4 ≠ 0x0#4) :
    i.unit = some (unitOf w) := by
  have hop := opField_of_decode h
  obtain ⟨rfl, _⟩ := encodeOfDecodeIsTheWord w i h
  cases i with
  | nop x => exact absurd hop h0
  | _ => exact congrArg some ((opcodeField_statement _).2 _ rfl)

/-- A head command that is not held is removed and executed (R121). -/
theorem engineStep_of_not_held {s : State} {w : Word} {rest : List Word} (hq : s.cmdq = w :: rest)
    (hh : held w s = false) : engineStep s = execWord w { s with cmdq := rest } := by
  simp [engineStep, hq, hh]

/-- In ERROR the engine's turn discards every word of the unit but its reset, the illegal ones too. -/
theorem engineStep_of_unit_error {s : State} {w : Word} {rest : List Word} (hq : s.cmdq = w :: rest)
    (he : s.unitState (unitOf w) = .error) (h0 : field w 28 4 ≠ 0x0#4) (h5 : field w 28 4 ≠ 0x5#4)
    (hD : field w 28 4 ≠ 0xD#4) : engineStep s = .next { s with cmdq := rest } := by
  cases h : decode w with
  | legal i =>
    have hu := unit_of_decode h h0
    have hop := opField_of_decode h
    have hheld : held w s = false := (held_of_legal h s).trans (heldInstr_of_unit_error hu he)
    rw [engineStep_of_not_held hq hheld, execWord_of_legal h]
    refine exec_of_unit_error hu he ?_ ?_
    · rintro x rfl
      exact h5 hop
    · rintro x rfl
      exact hD hop
  | illegal u why =>
    obtain rfl := decode_illegal_unit h
    rw [engineStep_of_not_held hq (held_of_illegal h s), execWord_of_illegal h]
    rcases illegalCommand_cases (unitOf w) w { s with cmdq := rest } with ⟨_, hsame⟩ | ⟨hne, _⟩
    · rw [hsame]
    · exact absurd he hne

/-- Settles O19: bit [31] = 0 is the encoder's, and of the opcodes below 8 only 0x0 and 0x5 are excluded. -/
theorem encoderWordsAreDiscardedInError : Obligations.EncoderWordsAreDiscardedInError := by
  intro s w rest ts hb ht hq he h31 h0 h5
  have hunit : unitOf w = .enc := by simp only [unitOf, h31, Bool.false_eq_true, if_false]
  have hD : field w 28 4 ≠ 0xD#4 := by
    intro hop
    have hhigh : w.toNat / 2 ^ 28 = 13 := (opField_eq_iff w _).mp hop
    rw [getLsbD_31, decide_eq_false_iff_not] at h31
    omega
  rw [step_of_engine hb ht]
  exact engineStep_of_unit_error (s := { s with turns := ts }) hq (by rw [hunit]; exact he) h0 h5 hD

/-! ### The unit states of each command -/

/-- Settles O16, by the unit state. -/
theorem encFlushPadsAndCloses : Obligations.EncFlushPadsAndCloses := by
  refine fun s => ⟨fun hs => ?_, fun hs => ?_, fun hs => exec_of_unit_error rfl hs nofun nofun⟩
  · simp only [exec, execEncFlush, hs, EncUnit.flushed_eq]
    rfl
  · simp only [exec, execEncFlush, hs]
    rfl

/-- Settles O13, by the unit state. -/
theorem encStartByUnitState : Obligations.EncStartByUnitState := by
  refine fun s => ⟨fun hs => ?_, fun hs => ?_, fun hs => exec_of_unit_error rfl hs nofun nofun⟩
  all_goals
    simp only [exec, execEncStart, hs]
    rfl

/-- ENC_SYM of a symbol that is no key (R101). -/
theorem exec_encSym_of_absent {s : State} {sym : Byte} (hs : s.enc.state = .active) (hv : codeValid s.mem sym = false) :
    exec (.encSym sym) s = .next (raiseErr .enc .unknownSymbol (encode (.encSym sym)) s) := by
  have hread : codeRead s.mem sym = .ok .absent := by simp [codeRead, hv]
  simp only [exec, execEncSym, hs, hread]

/-- ENC_SYM of an entry with LEN = 0 (R101). -/
theorem exec_encSym_of_empty {s : State} {sym : Byte} (hs : s.enc.state = .active) (hv : codeValid s.mem sym = true)
    (hl : codeLen s.mem sym = some 0) :
    exec (.encSym sym) s = .next (raiseErr .enc .badCodeEntry (encode (.encSym sym)) s) := by
  have hread : codeRead s.mem sym = .ok (.present 0 0) := by simp [codeRead, hv, hl, codeWordCount, codeWords]
  simp only [exec, execEncSym, hs, hread]

/-- Settles O15, by the unit state and, in an open stream, by the entry. -/
theorem encSymErrorsInOrder : Obligations.EncSymErrorsInOrder := by
  refine fun s sym => ⟨fun hs => exec_of_unit_error rfl hs nofun nofun, fun hs => ?_, fun hs hv => ?_, fun hs hv hl => ?_⟩
  · simp only [exec, execEncSym, hs]
    rfl
  · exact exec_encSym_of_absent hs hv
  · exact exec_encSym_of_empty hs hv hl

/-- Settles O17, for each unit by its state. -/
theorem abortsRecordInputUnreadable : Obligations.AbortsRecordInputUnreadable := by
  refine fun s => ⟨fun hs => ?_, fun hs => exec_of_unit_error rfl hs nofun nofun,
    fun hs => ?_, fun hs => exec_of_unit_error rfl hs nofun nofun⟩
  · simp only [exec, execEncAbort]
    cases he : s.enc.state with
    | error => exact absurd he hs
    | idle | active => rfl
  · simp only [exec, execDecAbort]
    cases hd : s.dec.state with
    | error => exact absurd hd hs
    | idle | active => rfl

/-- Settles O18: the resets do not look at the state of their unit. -/
theorem unitResetsReturnToIdle : Obligations.UnitResetsReturnToIdle :=
  fun _ _ => ⟨rfl, rfl⟩

/-! ### Encode streams -/

/-- The stream commands of a unit in ERROR are all discarded. -/
theorem execAll_of_unit_error {u : CodecUnit} {is : List Instr} {s : State} (his : ∀ i ∈ is, StreamCommand u i)
    (he : s.unitState u = .error) : execAll is s = .next s := by
  induction is with
  | nil => rfl
  | cons i is ih =>
    have hi : StreamCommand u i := his i List.mem_cons_self
    have hexec : exec i s = .next s := exec_of_unit_error hi.unit he (by rintro x rfl; cases hi) (by rintro x rfl; cases hi)
    simp only [execAll, hexec]
    exact ih fun j hj => his j (List.mem_cons_of_mem i hj)

/-- The full bytes of a stream that is still open are emitted (R106). -/
theorem EncUnit.encoded_opened_out (e : EncUnit) (bits : List Bool) (n : Nat) :
    (e.opened.encoded bits n).out = e.out ++ packFull bits :=
  (EncUnit.appendBits_law bits e.opened fun i _ => by simp [EncUnit.opened]).1

/-- An encode stream before its ENC_FLUSH (R106). -/
theorem execAll_openStream {s : State} {S : List Byte} {bits : List Bool} (hs : s.enc.state = .idle)
    (h : encodeRef (codeView s.mem) S = .ok bits) :
    execAll ([.encStart] ++ S.map .encSym) s = .next (s.setEnc (s.enc.opened.encoded bits S.length)) := by
  have hstart : execAll [.encStart] s = .next (s.setEnc s.enc.opened) := by
    simp only [execAll, exec, execEncStart, hs]
  rw [execAll_append hstart]
  exact execAll_encSyms (s := s.setEnc s.enc.opened) rfl h

/-- An encode stream with a symbol `x` that is no key (R106): the stream before it, then UnknownSymbol, and the commands
after it are discarded. -/
theorem execAll_encodeCommands_unknown {s : State} {S : List Byte} {bits : List Bool} {x : Byte} (hs : s.enc.state = .idle)
    (h : encodeRef (codeView s.mem) S = .ok bits) (hx : codeValid s.mem x = false) (rest : List Byte) :
    execAll (encodeCommands (S ++ x :: rest)) s =
      .next (raiseErr .enc .unknownSymbol (encode (.encSym x)) (s.setEnc (s.enc.opened.encoded bits S.length))) := by
  have hsplit : encodeCommands (S ++ x :: rest) =
      ([.encStart] ++ S.map .encSym) ++ .encSym x :: (rest.map .encSym ++ [.encFlush]) := by
    simp [encodeCommands]
  have hact : (s.setEnc (s.enc.opened.encoded bits S.length)).enc.state = .active := by
    simp [EncUnit.encoded, EncUnit.opened]
  have htail : ∀ i ∈ rest.map Instr.encSym ++ [.encFlush], StreamCommand .enc i := fun i hi =>
    streamCommand_encodeCommands rest i (List.mem_cons_of_mem _ hi)
  rw [hsplit, execAll_append (execAll_openStream hs h)]
  simp only [execAll, exec_encSym_of_absent hact hx]
  exact execAll_of_unit_error htail rfl

/-- Settles O50: the stream without an unknown symbol, and the one that meets it. -/
theorem encoderStreamLaw : Obligations.EncoderStreamLaw := by
  refine fun s S bits hs h => ⟨execAll_encodeCommands hs h, fun x rest hx => ?_⟩
  refine ⟨_, execAll_encodeCommands_unknown hs h hx rest, rfl, rfl, rfl, s.enc.encoded_opened_out bits S.length, ?_, ?_⟩
  · exact BitVec.zero_add _
  · exact BitVec.zero_add _

end Sys2Proof.Machine
end

section
/-! Proofs about the decoder's commands (R110-R115) and the law of a decode stream (R116). -/

namespace Sys2Proof.Machine

open Reference

/-! ### Walks over a tree -/

/-- The decoder unit after `n` bits, at least one, for which the symbols `syms` were emitted (R111). -/
def DecUnit.walked (d : DecUnit) (ptr : NodeIx) (n : Nat) (syms : List Byte) : DecUnit :=
  { d with out := d.out ++ syms, symcnt := d.symcnt + BitVec.ofNat 32 syms.length, ptr := ptr
           bitcnt := d.bitcnt + BitVec.ofNat 32 n, seen := true }

/-- The unit after a walk over a tree: the symbols of decode_ref's walk, and the pointer at the node where that walk ends. -/
theorem walkBits_tree_walked {s : State} {t p : CodeTree} {k : Nat} {bits : List Bool} {d : DecUnit}
    (hv : s.treeValid = true) (ht : treeAt s.mem k s.root = some t) (hp : PointsTo s t d.ptr p) (hne : bits ≠ []) :
    ∃ ptr, walkBits s bits d = .more (d.walked ptr bits.length (walk t p bits).1) ∧
      PointsTo s t ptr (walk t p bits).2 := by
  obtain ⟨d', hwalk, hptr, hout⟩ := walkBits_tree hv ht bits hp
  obtain ⟨hstate, herr, herrCmd, _, hseen, hbitcnt, syms, hsyms, _, hsymcnt⟩ := walkBits_more hwalk
  obtain rfl : syms = (walk t p bits).1 := List.append_cancel_left (hsyms.symm.trans hout)
  refine ⟨d'.ptr, ?_, hptr⟩
  rw [hwalk, DecUnit.walked, ← hstate, ← herr, ← herrCmd, ← hbitcnt, ← hout, ← hsymcnt, ← (hseen hne).1]

theorem PointsTo.exists_treeAt {s : State} {t p : CodeTree} {ptr : NodeIx} {k : Nat}
    (ht : treeAt s.mem k s.root = some t) (h : PointsTo s t ptr p) : ∃ j, treeAt s.mem j ptr = some p := by
  rcases h with ⟨rfl, rfl⟩ | ⟨_, htree, _⟩
  · exact ⟨k, ht⟩
  · exact htree

theorem groupBits_ne_nil {n : BitVec 4} (hn : LegalCount n) (data : Byte) : groupBits n data ≠ [] := by
  obtain ⟨rest, hbits⟩ := groupBits_of_pos hn.1 data
  rw [hbits]
  exact List.cons_ne_nil _ _

/-- Settles O21: the walk over NODE_RAM is the walk of decode_ref, and its pointer is at ROOT where that walk is. -/
theorem decBitsWalksTheTree : Obligations.DecBitsWalksTheTree := by
  intro s n data t p k k' hs hn hv ht hp hptr
  have hpoints : PointsTo s t s.dec.ptr p := by
    rcases hptr with hroot | ⟨w, l, r, hinner, hsize⟩
    · exact .inl ⟨hroot, treeAt_unique (hroot ▸ hp) ht⟩
    · exact .inr ⟨hsize, ⟨k', hp⟩, w, l, r, hinner⟩
  obtain ⟨ptr, hwalk, hend⟩ := walkBits_tree_walked hv ht hpoints (groupBits_ne_nil hn data)
  rw [groupBits_length] at hwalk
  exact ⟨_, exec_decBits_of_walk_more hn hs hwalk, rfl, rfl, rfl, rfl, hend.at_root_iff ht, hend.exists_treeAt ht, hs, rfl,
    rfl⟩

/-! ### How a stream starts, fails and ends -/

/-- DEC_START opens a stream (R110). -/
theorem exec_decStart_of_idle {s : State} (hs : s.dec.state = .idle) :
    exec .decStart s = .next (s.setDec (s.dec.opened s.root)) := by
  simp only [exec, execDecStart, hs]

/-- DEC_BITS without a tree raises at its first bit (R111). -/
theorem exec_decBits_of_noTree {s : State} {n : BitVec 4} {data : Byte} (hn : LegalCount n) (hs : s.dec.state = .active)
    (hv : s.treeValid = false) :
    exec (.decBits n data) s = .next (raiseErr .dec .inconsistentEmptyState (encode (.decBits n data)) s) := by
  obtain ⟨rest, hbits⟩ := groupBits_of_pos hn.1 data
  have hwalk : walkBits s (groupBits n data) s.dec = .raised s.dec .inconsistentEmptyState := by
    simp only [hbits, walkBits, walkBit_of_noTree hv]
  simp only [exec, execDecBits, if_pos hn, hs, hwalk]
  rfl

/-- DEC_END of a stream without a bit, against a tree (R112). -/
theorem exec_decEnd_of_unseen {s : State} (hs : s.dec.state = .active) (hv : s.treeValid = true)
    (hseen : s.dec.seen = false) :
    exec .decEnd s = .next (raiseErr .dec .inconsistentEmptyState (encode .decEnd) s) := by
  simp [exec, execDecEnd, hs, hv, hseen]

/-- DEC_END of a stream that stopped mid-code (R112). -/
theorem exec_decEnd_of_midCode {s : State} (hs : s.dec.state = .active) (hv : s.treeValid = true)
    (hseen : s.dec.seen = true) (hptr : s.dec.ptr ≠ s.root) :
    exec .decEnd s = .next (raiseErr .dec .truncatedStream (encode .decEnd) s) := by
  simp [exec, execDecEnd, hs, hv, hseen, hptr]

/-- DEC_END of a stream that may end here (R112). -/
theorem exec_decEnd_of_complete {s : State} (hs : s.dec.state = .active)
    (h : s.treeValid = false ∨ (s.dec.seen = true ∧ s.dec.ptr = s.root)) :
    exec .decEnd s = .next (s.setDec { s.dec with state := .idle }) := by
  rcases h with hv | ⟨hseen, hptr⟩
  · simp [exec, execDecEnd, hs, hv]
  · simp [exec, execDecEnd, hs, hseen, hptr]

/-! ### Decode streams -/

theorem execAll_singleton (i : Instr) (s : State) : execAll [i] s = exec i s := by
  simp only [execAll]
  cases exec i s <;> rfl

/-- A decode stream whose bits are all walked comes to its DEC_END. -/
theorem execAll_decodeCommands_of_walk {s : State} {groups : List (BitVec 4 × Byte)} {d : DecUnit}
    (hs : s.dec.state = .idle) (hg : ∀ g ∈ groups, LegalCount g.1)
    (h : walkBits s (streamBits groups) (s.dec.opened s.root) = .more d) :
    execAll (decodeCommands groups) s = exec .decEnd (s.setDec d) := by
  have hstart : execAll [.decStart] s = .next (s.setDec (s.dec.opened s.root)) := by
    simp only [execAll, exec_decStart_of_idle hs]
  have hbits := execAll_decBits (s := s.setDec (s.dec.opened s.root)) rfl hg (by rw [walkBits_setDec]; exact h)
  rw [decodeCommands, List.append_assoc, execAll_append hstart, execAll_append hbits, State.setDec_setDec,
    execAll_singleton]

theorem streamCommand_decBits_decEnd {groups : List (BitVec 4 × Byte)} (hg : ∀ g ∈ groups, LegalCount g.1) :
    ∀ i ∈ groups.map (fun g => Instr.decBits g.1 g.2) ++ [.decEnd], StreamCommand .dec i := by
  intro i hi
  simp only [List.mem_append, List.mem_singleton, List.mem_map] at hi
  rcases hi with ⟨g, hmem, rfl⟩ | rfl
  · exact .decBits (hg g hmem) g.2
  · exact .decEnd

/-- A decode stream with bits but without a tree (R116): its first DEC_BITS raises, and the commands after it are
discarded. -/
theorem execAll_decodeCommands_noTree {s : State} {g : BitVec 4 × Byte} {groups : List (BitVec 4 × Byte)}
    (hs : s.dec.state = .idle) (hg : ∀ x ∈ g :: groups, LegalCount x.1) (hv : s.treeValid = false) :
    execAll (decodeCommands (g :: groups)) s =
      .next (raiseErr .dec .inconsistentEmptyState (encode (.decBits g.1 g.2)) (s.setDec (s.dec.opened s.root))) := by
  have hbits := exec_decBits_of_noTree (s := s.setDec (s.dec.opened s.root)) (data := g.2) (hg g List.mem_cons_self) rfl hv
  have htail := streamCommand_decBits_decEnd fun x hx => hg x (List.mem_cons_of_mem g hx)
  show execAll (.decStart :: .decBits g.1 g.2 :: (groups.map (fun g => Instr.decBits g.1 g.2) ++ [.decEnd])) s = _
  simp only [execAll, exec_decStart_of_idle hs, hbits]
  exact execAll_of_unit_error htail rfl

/-- A decode stream without bits comes to its DEC_END as it was opened. -/
theorem execAll_decodeCommands_of_nil {s : State} {groups : List (BitVec 4 × Byte)} (hs : s.dec.state = .idle)
    (hg : ∀ g ∈ groups, LegalCount g.1) (hnil : streamBits groups = []) :
    execAll (decodeCommands groups) s = exec .decEnd (s.setDec (s.dec.opened s.root)) :=
  execAll_decodeCommands_of_walk hs hg (by rw [hnil]; rfl)

/-- A decode stream with bits against a tree comes to its DEC_END with the symbols of decode_ref's walk. -/
theorem execAll_decodeCommands_tree {s : State} {groups : List (BitVec 4 × Byte)} {t : CodeTree} {k : Nat}
    (hs : s.dec.state = .idle) (hg : ∀ g ∈ groups, LegalCount g.1) (hv : s.treeValid = true)
    (ht : treeAt s.mem k s.root = some t) (hne : streamBits groups ≠ []) :
    ∃ ptr, execAll (decodeCommands groups) s = exec .decEnd (s.setDec
        ((s.dec.opened s.root).walked ptr (streamBits groups).length (walk t t (streamBits groups)).1)) ∧
      (ptr = s.root ↔ (walk t t (streamBits groups)).2 = t) := by
  obtain ⟨ptr, hwalk, hend⟩ := walkBits_tree_walked (d := s.dec.opened s.root) hv ht (.inl ⟨rfl, rfl⟩) hne
  exact ⟨ptr, execAll_decodeCommands_of_walk hs hg hwalk, hend.at_root_iff ht⟩

/-- Settles O51, by the outcome of decode_ref: without a tree by whether there are bits; against a tree by whether there are
bits and whether the walk over them ends at the root. -/
theorem decoderStreamLaw : Obligations.DecoderStreamLaw := by
  intro s tree groups hs hg htree
  cases tree with
  | none =>
    have hv : s.treeValid = false := htree
    by_cases hnil : streamBits groups = []
    · have href : decodeRef none (streamBits groups) = .ok [] := if_pos hnil
      rw [href]
      refine ⟨?_, nofun, nofun⟩
      rintro _ ⟨⟩
      rw [execAll_decodeCommands_of_nil hs hg hnil,
        exec_decEnd_of_complete (s := s.setDec (s.dec.opened s.root)) rfl (.inl hv), hnil]
      simp [DecUnit.opened, State.setDec]
    · have href : decodeRef none (streamBits groups) = .error (.inconsistentEmptyState 0) := if_neg hnil
      rw [href]
      refine ⟨nofun, ?_, nofun⟩
      rintro _ ⟨⟩
      cases groups with
      | nil => exact absurd rfl hnil
      | cons g groups => exact ⟨_, execAll_decodeCommands_noTree hs hg hv, rfl, rfl, rfl, rfl⟩
  | some t =>
    obtain ⟨hv, k, ht⟩ := htree
    by_cases hnil : streamBits groups = []
    · have href : decodeRef (some t) (streamBits groups) = .error (.inconsistentEmptyState 0) := if_pos hnil
      rw [href]
      refine ⟨nofun, ?_, nofun⟩
      rintro _ ⟨⟩
      exact ⟨_, (execAll_decodeCommands_of_nil hs hg hnil).trans (exec_decEnd_of_unseen rfl hv rfl), rfl, rfl, rfl, rfl⟩
    · obtain ⟨ptr, hrun, hroot⟩ := execAll_decodeCommands_tree hs hg hv ht hnil
      by_cases hend : (walk t t (streamBits groups)).2 = t
      · have href : decodeRef (some t) (streamBits groups) = .ok (walk t t (streamBits groups)).1 :=
          (if_neg hnil).trans (if_pos hend)
        rw [href]
        refine ⟨?_, nofun, nofun⟩
        rintro _ ⟨⟩
        obtain rfl := hroot.mpr hend
        rw [hrun, exec_decEnd_of_complete rfl (.inr ⟨rfl, rfl⟩)]
        simp [DecUnit.opened, DecUnit.walked, State.setDec, hnil]
      · have href : decodeRef (some t) (streamBits groups) = .error (.truncatedStream (streamBits groups).length) :=
          (if_neg hnil).trans (if_neg hend)
        rw [href]
        refine ⟨nofun, nofun, ?_⟩
        rintro _ ⟨⟩
        exact ⟨_, t, rfl, hrun.trans (exec_decEnd_of_midCode rfl hv rfl (mt hroot.mp hend)), rfl, rfl, rfl,
          BitVec.zero_add _, rfl⟩

/-! ### Commands in ERROR (R115) -/

/-- Settles O27: bit [31] = 1 is the decoder's, and of the opcodes from 8 only 0xD is excluded. -/
theorem decoderWordsAreDiscardedInError : Obligations.DecoderWordsAreDiscardedInError := by
  intro s w rest ts hb ht hq he h31 hD
  have hunit : unitOf w = .dec := by simp only [unitOf, h31, if_true]
  have hlow : ∀ x : BitVec 4, x.toNat < 8 → field w 28 4 ≠ x := by
    intro x hx hop
    have hhigh : w.toNat / 2 ^ 28 = x.toNat := (opField_eq_iff w x).mp hop
    rw [getLsbD_31, decide_eq_true_iff] at h31
    omega
  rw [step_of_engine hb ht]
  exact engineStep_of_unit_error (s := { s with turns := ts }) hq (by rw [hunit]; exact he) (hlow 0x0#4 (by decide))
    (hlow 0x5#4 (by decide)) hD

/-! ### The unit states of each command -/

/-- Settles O20, by the unit state. -/
theorem decStartByUnitState : Obligations.DecStartByUnitState := by
  refine fun s => ⟨fun hs => exec_decStart_of_idle hs, fun hs => ?_, fun hs => exec_of_unit_error rfl hs nofun nofun⟩
  simp only [exec, execDecStart, hs]
  rfl

/-- Settles O24, by the unit state and, in an open stream, the missing tree. -/
theorem decBitsErrorsInOrder : Obligations.DecBitsErrorsInOrder := by
  refine fun s n data hn => ⟨fun hs => exec_of_unit_error rfl hs nofun nofun, fun hs => ?_,
    fun hs hv => exec_decBits_of_noTree hn hs hv⟩
  simp only [exec, execDecBits, if_pos hn, hs]
  rfl

/-- Settles O26, by the unit state and, in an open stream, by what the checks of DEC_END find. -/
theorem decEndChecksTheStream : Obligations.DecEndChecksTheStream := by
  refine fun s => ⟨fun hs => exec_of_unit_error rfl hs nofun nofun, fun hs => ?_, exec_decEnd_of_unseen,
    exec_decEnd_of_midCode, exec_decEnd_of_complete⟩
  simp only [exec, execDecEnd, hs]
  rfl

/-! ### One bit -/

/-- A bit against a single leaf (R111). -/
theorem walkBit_of_rootLeaf {s : State} {r : Word} (hv : s.treeValid = true) (hr : nodeRead s.mem s.root = .ok r)
    (hleaf : nodeIsLeaf r = true) (b : Bool) (d : DecUnit) :
    walkBit s b d = .more (d.emitSym (nodeSym r)).consumed := by
  simp only [walkBit, hv, hr, hleaf, if_true]

/-- A bit that selects a child of the node at the pointer (R111). -/
theorem walkBit_of_rootInternal {s : State} {r p q : Word} {b : Bool} {d : DecUnit} (hv : s.treeValid = true)
    (hr : nodeRead s.mem s.root = .ok r) (hinner : nodeIsLeaf r = false) (hp : nodeRead s.mem d.ptr = .ok p)
    (hq : nodeRead s.mem (nodeChild p b) = .ok q) :
    walkBit s b d = .more (if nodeIsLeaf q then { (d.emitSym (nodeSym q)).consumed with ptr := s.root }
      else { d.consumed with ptr := nodeChild p b }) := by
  simp only [walkBit, hv, hr, hinner, hp, hq, if_true, Bool.false_eq_true, if_false]
  split <;> rfl

/-- DEC_BITS of one bit walks by DATA[7]. -/
theorem exec_decBits_one {s : State} {data : Byte} {d : DecUnit} (hs : s.dec.state = .active)
    (h : walkBit s (data.getLsbD 7) s.dec = .more d) : exec (.decBits 1 data) s = .next (s.setDec d) := by
  have hwalk : walkBits s (groupBits 1 data) s.dec = .more d := by
    show walkBits s [data.getLsbD 7] s.dec = _
    simp only [walkBits, h]
  exact exec_decBits_of_walk_more (by decide) hs hwalk

/-- Settles O22: a leaf at ROOT; else by whether the selected child is a leaf. -/
theorem decBitsConsumesOneBit : Obligations.DecBitsConsumesOneBit := by
  refine fun s data r hs hv hr => ⟨fun hleaf => exec_decBits_one hs (walkBit_of_rootLeaf hv hr hleaf _ _), ?_⟩
  rintro p q c hinner hp rfl hq
  have hbit := exec_decBits_one hs (walkBit_of_rootInternal hv hr hinner hp hq)
  refine ⟨fun (hleaf : nodeIsLeaf q = true) => ?_, fun (hchild : nodeIsLeaf q = false) => ?_⟩
  · rw [hbit, if_pos hleaf]
    rfl
  · rw [hbit, if_neg (Bool.eq_false_iff.mp hchild)]
    rfl

end Sys2Proof.Machine
end

section
/-! Proofs about the control of commands (43_control.md): the engine's turn (R121, R123), NOP (R120), the hold rule (R122,
R124) and the independence of the units (R125). -/

namespace Sys2Proof.Machine

/-! ### What a command needs and what it emits (R122, R124) -/

/-- The longest code, with seven bits pending, completes 32 bytes (R124). -/
theorem needEncSym_le (sym : Byte) (s : State) : needEncSym sym s ≤ 32 := by
  unfold needEncSym
  split
  · exact Nat.zero_le _
  · exact Nat.zero_le _
  · split
    · split
      · exact Nat.zero_le _
      · rename_i len _
        have hlen := len.isLt
        have haccN := accN_lt s.enc
        split <;> omega
    · exact Nat.zero_le _

theorem needEncFlush_le (s : State) : needEncFlush s ≤ 1 := by
  unfold needEncFlush
  split
  · exact Nat.zero_le _
  · exact Nat.zero_le _
  · split <;> omega

theorem needDecBits_le (n : BitVec 4) (s : State) : needDecBits n s ≤ n.toNat := by
  unfold needDecBits
  split
  · exact Nat.zero_le _
  · exact Nat.zero_le _
  · exact le_refl _

theorem need_le_of_unit_enc {i : Instr} (hu : i.unit = some .enc) (s : State) : need i s ≤ 32 := by
  cases i <;> cases hu
  case encSym sym => exact needEncSym_le sym s
  case encFlush => exact (needEncFlush_le s).trans (by decide)
  all_goals exact Nat.zero_le _

theorem need_le_of_unit_dec {i : Instr} (hu : i.unit = some .dec) (hi : i.WellFormed) (s : State) : need i s ≤ 8 := by
  cases i <;> cases hu
  case decBits n data => exact (needDecBits_le n s).trans hi.2
  all_goals exact Nat.zero_le _

/-- A command whose need fits into its unit's output FIFO is not held (R122). -/
theorem heldInstr_of_need_le {i : Instr} {u : CodecUnit} {s : State} (hu : i.unit = some u) (h : need i s ≤ s.freeOut u) :
    heldInstr i s = false := by
  simp only [heldInstr, hu]
  exact decide_eq_false (Nat.not_lt.mpr h)

/-- Settles O9: no need is above 32 and 8, the least depths that R6 admits. -/
theorem emptyOutputNeverHolds : Obligations.EmptyOutputNeverHolds := by
  rintro i s ⟨_, ⟨henc, _⟩, ⟨hdec, _⟩, _⟩ hi
  refine ⟨fun hu => ?_, fun hu => ?_⟩
  · have hneed := need_le_of_unit_enc hu s
    refine ⟨hneed, fun hout => heldInstr_of_need_le hu ?_⟩
    rw [State.freeOut, hout]
    exact hneed.trans henc
  · have hneed := need_le_of_unit_dec hu hi s
    refine ⟨hneed, fun hout => heldInstr_of_need_le hu ?_⟩
    rw [State.freeOut, hout]
    exact hneed.trans hdec

/-- An encoder command that runs without error emits what it needs; ENC_RESET empties the output FIFO instead (R122). -/
theorem exec_enc_out_length {i : Instr} {s t : State} (hu : i.unit = some .enc)
    (hz : ∀ k, s.enc.accN.toNat ≤ k → s.enc.acc.getLsbD k = false) (h : exec i s = .next t) (hne : t.enc.state ≠ .error)
    (hreset : ∀ x, i ≠ .encReset x) : t.enc.out.length = s.enc.out.length + need i s := by
  cases i <;> cases hu
  case encStart =>
    simp only [exec, execEncStart] at h
    split at h <;> cases h <;> rfl
  case encSym sym =>
    rcases execEncSym_next h with ⟨he, rfl⟩ | ⟨_, code, _, rfl, _⟩ | ⟨hs, l, code, hread, rfl⟩
    · exact absurd he hne
    · exact absurd rfl hne
    · rw [State.setEnc_enc, EncUnit.encodeSymbol_out, EncUnit.appendBits_out_length _ _ hz, codeBits_length, need,
        needEncSym_of_present hs hread]
  case encFlush =>
    simp only [exec, execEncFlush] at h
    split at h <;> rename_i hs <;> cases h
    · exact absurd hs hne
    · exact absurd rfl hne
    · simp only [State.setEnc_enc, EncUnit.flushed_out_length, need, needEncFlush, hs]
  case encAbort =>
    simp only [exec, execEncAbort] at h
    split at h <;> cases h <;> rfl
  case encReset x => exact absurd rfl (hreset x)

/-- A decoder command emits at most what it needs (R122). -/
theorem exec_dec_out_length_le {i : Instr} {s t : State} (hu : i.unit = some .dec) (h : exec i s = .next t) :
    t.dec.out.length ≤ s.dec.out.length + need i s := by
  cases i <;> cases hu
  case decStart =>
    simp only [exec, execDecStart] at h
    split at h <;> cases h <;> exact le_refl _
  case decBits n data =>
    rcases execDecBits_next h with ⟨_, rfl⟩ | ⟨_, code, _, rfl⟩ | ⟨_, hs, d, hwalk, rfl⟩
    · exact Nat.le_add_right _ _
    · exact Nat.le_add_right _ _
    · obtain ⟨_, _, _, _, _, _, syms, hout, hsyms, _⟩ := walkBits_more hwalk
      rw [groupBits_length] at hsyms
      simpa only [State.setDec_dec, hout, List.length_append, need, needDecBits, hs] using Nat.add_le_add_left hsyms _
  case decEnd =>
    rcases execDecEnd_next h with ⟨_, rfl⟩ | ⟨_, code, _, rfl⟩ | ⟨_, _, rfl⟩ <;> exact le_refl _
  case decAbort =>
    simp only [exec, execDecAbort] at h
    split at h <;> cases h <;> exact le_refl _
  case decReset x =>
    cases h
    exact Nat.zero_le _

/-- Settles O8: a command that is not held keeps the invariant, and the levels of the output FIFOs are part of it. -/
theorem commandsEmitWhatTheHoldRuleAllows : Obligations.CommandsEmitWhatTheHoldRuleAllows := by
  refine fun i s t hinv _ h => ⟨fun hu hne hreset => exec_enc_out_length hu hinv.enc.acc h hne hreset,
    fun hu => exec_dec_out_length_le hu h, fun hheld => ?_⟩
  have hinv' := hinv.exec hheld h
  rw [← exec_cfg h]
  exact ⟨hinv'.enc.level, hinv'.dec.level⟩

/-! ### The units are independent (R125)

A unit's command is followed through putting the unit into another block `r` that holds the same tables for it. -/

/-- An encoder command does the same to its unit in every block with the same CODE_RAM entries. -/
theorem exec_setEnc_of_codeRead_eq {i : Instr} {s r t : State} (hu : i.unit = some .enc)
    (hread : ∀ sym, codeRead r.mem sym = codeRead s.mem sym) (h : exec i s = .next t) :
    exec i (r.setEnc s.enc) = .next (r.setEnc t.enc) := by
  cases i <;> cases hu
  case encStart =>
    simp only [exec, execEncStart, State.setEnc_enc] at h ⊢
    split at h <;> cases h <;> rfl
  case encSym sym =>
    simp only [exec, execEncSym, State.setEnc_enc, State.setEnc_mem, hread] at h ⊢
    split at h
    · cases h; rfl
    · cases h; rfl
    · split at h
      · cases h
      all_goals cases h; rfl
  case encFlush =>
    simp only [exec, execEncFlush, State.setEnc_enc] at h ⊢
    split at h <;> cases h <;> rfl
  case encAbort =>
    simp only [exec, execEncAbort, State.setEnc_enc] at h ⊢
    split at h <;> cases h <;> rfl
  case encReset x =>
    cases h
    rfl

theorem illegalCommand_setDec (s r : State) (w : Word) :
    illegalCommand .dec w (r.setDec s.dec) = r.setDec (illegalCommand .dec w s).dec := by
  simp only [illegalCommand, State.unitState_dec, State.setDec_dec]
  split <;> rfl

/-- A decoder command does the same to its unit in every block with the same NODE_RAM words, ROOT and TREE_VALID. -/
theorem exec_setDec_of_nodeRead_eq {i : Instr} {s r t : State} (hu : i.unit = some .dec)
    (hread : ∀ k, nodeRead r.mem k = nodeRead s.mem k) (hroot : r.root = s.root) (hvalid : r.treeValid = s.treeValid)
    (h : exec i s = .next t) : exec i (r.setDec s.dec) = .next (r.setDec t.dec) := by
  cases i <;> cases hu
  case decStart =>
    simp only [exec, execDecStart, State.setDec_dec, State.setDec_root, hroot] at h ⊢
    split at h <;> cases h <;> rfl
  case decBits n data =>
    have hwalk : walkBits (r.setDec s.dec) (groupBits n data) s.dec = walkBits s (groupBits n data) s.dec :=
      walkBits_congr (s' := r.setDec s.dec) hread hroot hvalid _ _
    simp only [exec, execDecBits, State.setDec_dec, hwalk] at h ⊢
    by_cases hn : LegalCount n
    · rw [if_pos hn] at h ⊢
      split at h
      · cases h; rfl
      · cases h; rfl
      · split at h <;> cases h <;> rfl
    · rw [if_neg hn] at h ⊢
      cases h
      exact congrArg _ (illegalCommand_setDec s r _)
  case decEnd =>
    simp only [exec, execDecEnd, State.setDec_dec, State.setDec_root, State.setDec_treeValid, hroot, hvalid] at h ⊢
    split at h
    · cases h; rfl
    · cases h; rfl
    · split_ifs at h ⊢ <;> cases h <;> rfl
  case decAbort =>
    simp only [exec, execDecAbort, State.setDec_dec] at h ⊢
    split at h <;> cases h <;> rfl
  case decReset x =>
    cases h
    simp only [exec, execDecReset, State.resetDec, State.setDec_root, hroot]
    rfl

/-- Settles O30: a block whose unit is that of `s` is itself with the unit of `s` put in. -/
theorem unitsAreIndependent : Obligations.UnitsAreIndependent := by
  refine fun i s s' t h => ⟨fun hu henc hmem => ?_, fun hu hdec hmem hroot hvalid => ?_⟩
  · have hself : s'.setEnc s.enc = s' := by rw [← henc, State.setEnc_self]
    rw [← hself]
    exact exec_setEnc_of_codeRead_eq hu (codeRead_congr hmem) h
  · have hself : s'.setDec s.dec = s' := by rw [← hdec, State.setDec_self]
    rw [← hself]
    exact exec_setDec_of_nodeRead_eq hu (nodeRead_congr hmem) hroot hvalid h

/-! ### The engine's turn (R120, R121, R123, R145) -/

/-- A legal head that is not held is removed and its command executed (R121). -/
theorem engineStep_of_legal {s : State} {w : Word} {rest : List Word} {i : Instr} (hq : s.cmdq = w :: rest)
    (hd : decode w = .legal i) (hh : heldInstr i s = false) : engineStep s = exec i { s with cmdq := rest } := by
  rw [engineStep_of_not_held hq ((held_of_legal hd s).trans hh), execWord_of_legal hd]

/-- An illegal head is removed and charged to its unit (R123); it is never held. -/
theorem engineStep_of_illegal {s : State} {w : Word} {rest : List Word} {u : CodecUnit} {why : IllegalReason}
    (hq : s.cmdq = w :: rest) (hd : decode w = .illegal u why) :
    engineStep s = .next (illegalCommand u w { s with cmdq := rest }) := by
  rw [engineStep_of_not_held hq (held_of_illegal hd s), execWord_of_illegal hd]

theorem engineStep_of_empty {s : State} (hq : s.cmdq = []) : engineStep s = .next s := by
  simp only [engineStep, hq]

theorem engineStep_of_held {s : State} {w : Word} {rest : List Word} (hq : s.cmdq = w :: rest) (hh : held w s = true) :
    engineStep s = .next s := by
  simp only [engineStep, hq, hh, if_true]

theorem illegalCommand_of_error {u : CodecUnit} {w : Word} {s : State} (he : s.unitState u = .error) :
    illegalCommand u w s = s := by
  simp only [illegalCommand, he]

theorem illegalCommand_of_ne_error {u : CodecUnit} {w : Word} {s : State} (he : s.unitState u ≠ .error) :
    illegalCommand u w s = raiseErr u .illegalCommand w s := by
  rcases illegalCommand_cases u w s with ⟨he', _⟩ | ⟨_, hraise⟩
  · exact absurd he' he
  · exact hraise

/-- A word below 2^28 has the opcode of NOP (R73). -/
theorem decode_of_lt {w : Word} (h : w.toNat < 2 ^ 28) : decode w = .legal (.nop (field w 0 28)) := by
  have hop : field w 28 4 = 0x0#4 := (opField_eq_iff w _).mpr (Nat.div_eq_of_lt h)
  simp only [decode, hop]

/-- Settles O5, with the engine's turn listed and with no turn listed. -/
theorem engineStepRunsTheDecodedCommand : Obligations.EngineStepRunsTheDecodedCommand := by
  refine fun s w rest ts i hb hq hd hh => ⟨fun ht => ?_, fun ht => ?_⟩
  · rw [step_of_engine hb ht]
    exact engineStep_of_legal (s := { s with turns := ts }) hq hd ((heldInstr_congr i s s.cmdq ts).trans hh)
  · rw [step_of_noTurns hb ht]
    exact engineStep_of_legal hq hd hh

/-- Settles O6, by the state of the unit that the word is charged to. -/
theorem engineStepRunsIllegalWords : Obligations.EngineStepRunsIllegalWords := by
  intro s w rest ts u why hb ht hq hd
  have hstep : step s = .next (illegalCommand u w { s with cmdq := rest, turns := ts }) := by
    rw [step_of_engine hb ht]
    exact engineStep_of_illegal (s := { s with turns := ts }) hq hd
  rw [hstep]
  refine ⟨fun he => ?_, ?_, ?_⟩
  · exact congrArg _ (illegalCommand_of_error he)
  · rintro he rfl
    exact congrArg _ (illegalCommand_of_ne_error he)
  · rintro he rfl
    exact congrArg _ (illegalCommand_of_ne_error he)

/-- Settles O7: an empty CMDQ, and a held head. -/
theorem engineWaitsWhenEmptyOrHeld : Obligations.EngineWaitsWhenEmptyOrHeld := by
  intro s ts hb ht
  rw [step_of_engine hb ht]
  refine ⟨fun hq => engineStep_of_empty hq, fun w rest i hq hd hh => ?_⟩
  have hheld : held w { s with turns := ts } = true :=
    (held_congr w s s.cmdq ts).trans ((held_of_legal hd s).trans hh)
  exact engineStep_of_held (s := { s with turns := ts }) hq hheld

/-- Settles O12: a word below 2^28 is a NOP, and NOP is never held. -/
theorem nopChangesNothing : Obligations.NopChangesNothing := by
  refine ⟨fun _ _ => rfl, fun s w rest ts hb ht hq hw => ?_⟩
  rw [step_of_engine hb ht]
  exact engineStep_of_legal (s := { s with turns := ts }) hq (decode_of_lt hw) rfl

end Sys2Proof.Machine
end

section
/-! Proofs of the exception statements (60_exceptions.md): how a unit enters ERROR (R132, R133) and leaves it (R135-R137),
and that instances share nothing (R143). -/

namespace Sys2Proof.Machine

/-! ### The unit that a word does not belong to (R125) -/

theorem raiseErr_unitState_of_ne {u v : CodecUnit} (huv : u ≠ v) (code : ErrCode) (w : Word) (s : State) :
    (raiseErr u code w s).unitState v = s.unitState v := by
  cases u <;> cases v
  case enc.enc | dec.dec => exact absurd rfl huv
  all_goals rfl

theorem illegalCommand_unitState_of_ne {u v : CodecUnit} (huv : u ≠ v) (w : Word) (s : State) :
    (illegalCommand u w s).unitState v = s.unitState v := by
  rcases illegalCommand_cases u w s with ⟨_, hc⟩ | ⟨_, hc⟩ <;> rw [hc]
  exact raiseErr_unitState_of_ne huv _ w s

theorem exec_unitState_of_ne {i : Instr} {v : CodecUnit} {s t : State} (hv : i.unit ≠ some v) (h : exec i s = .next t) :
    t.unitState v = s.unitState v := by
  rcases exec_next h with ⟨_, rfl⟩ | ⟨hu, e, rfl⟩ | ⟨hu, d, rfl⟩
  · rfl
  · cases v with
    | enc => exact absurd hu hv
    | dec => rfl
  · cases v with
    | enc => rfl
    | dec => exact absurd hu hv

/-! ### Entering ERROR (R132, R133) -/

/-- A command of a unit that is not in ERROR is precise: it raises and does nothing else, or it does not end in ERROR. -/
theorem exec_raises_or_ne_error {i : Instr} {u : CodecUnit} {s t : State} (hu : i.unit = some u)
    (hne : s.unitState u ≠ .error) (h : exec i s = .next t) :
    (∃ code, code ≠ .none ∧ t = raiseErr u code (encode i) s) ∨ t.unitState u ≠ .error := by
  cases i <;> cases hu
  case encStart =>
    simp only [exec, execEncStart] at h
    split at h <;> rename_i hs <;> cases h
    · exact absurd hs hne
    · exact .inl ⟨.sequenceError, nofun, rfl⟩
    · exact .inr nofun
  case encSym sym =>
    rcases execEncSym_next h with ⟨hs, _⟩ | ⟨_, code, hcode, rfl, _⟩ | ⟨_, l, code, _, rfl⟩
    · exact absurd hs hne
    · exact .inl ⟨code, hcode, rfl⟩
    · right
      rwa [State.unitState_enc, State.setEnc_enc, EncUnit.encodeSymbol_state]
  case encFlush =>
    simp only [exec, execEncFlush] at h
    split at h <;> rename_i hs <;> cases h
    · exact absurd hs hne
    · exact .inl ⟨.sequenceError, nofun, rfl⟩
    · exact .inr nofun
  case encAbort =>
    simp only [exec, execEncAbort] at h
    split at h <;> rename_i hs <;> cases h
    · exact absurd hs hne
    all_goals exact .inl ⟨.inputUnreadable, nofun, rfl⟩
  case encReset x =>
    cases h
    exact .inr nofun
  case decStart =>
    simp only [exec, execDecStart] at h
    split at h <;> rename_i hs <;> cases h
    · exact absurd hs hne
    · exact .inl ⟨.sequenceError, nofun, rfl⟩
    · exact .inr nofun
  case decBits n data =>
    rcases execDecBits_next h with ⟨hs, _⟩ | ⟨_, code, hcode, rfl⟩ | ⟨_, _, d, hwalk, rfl⟩
    · exact absurd hs hne
    · exact .inl ⟨code, hcode, rfl⟩
    · right
      obtain ⟨hstate, _⟩ := walkBits_more hwalk
      rwa [State.unitState_dec, State.setDec_dec, hstate]
  case decEnd =>
    rcases execDecEnd_next h with ⟨hs, _⟩ | ⟨_, code, hcode, rfl⟩ | ⟨_, _, rfl⟩
    · exact absurd hs hne
    · exact .inl ⟨code, hcode, rfl⟩
    · exact .inr nofun
  case decAbort =>
    simp only [exec, execDecAbort] at h
    split at h <;> rename_i hs <;> cases h
    · exact absurd hs hne
    all_goals exact .inl ⟨.inputUnreadable, nofun, rfl⟩
  case decReset x =>
    cases h
    exact .inr nofun

/-- A word that puts a unit into ERROR does nothing but raise on it, with itself as the recorded word (R132). -/
theorem execWord_eq_raiseErr {w : Word} {u : CodecUnit} {s t : State} (h : execWord w s = .next t)
    (hne : s.unitState u ≠ .error) (he : t.unitState u = .error) :
    ∃ code, code ≠ .none ∧ t = raiseErr u code w s := by
  cases hd : decode w with
  | legal i =>
    rw [execWord_of_legal hd] at h
    obtain ⟨hw, _⟩ := encodeOfDecodeIsTheWord w i hd
    by_cases hu : i.unit = some u
    · rw [← hw]
      exact (exec_raises_or_ne_error hu hne h).resolve_right (not_not_intro he)
    · rw [exec_unitState_of_ne hu h] at he
      exact absurd he hne
  | illegal v why =>
    rw [execWord_of_illegal hd] at h
    cases h
    by_cases hv : v = u
    · subst hv
      exact ⟨.illegalCommand, nofun, illegalCommand_of_ne_error hne⟩
    · rw [illegalCommand_unitState_of_ne hv] at he
      exact absurd he hne

/-- Settles O31: for each unit, what has been done is error entry, `raiseErr`. -/
theorem errorEntryRecordsTheWord : Obligations.ErrorEntryRecordsTheWord :=
  fun _ _ _ h => ⟨execWord_eq_raiseErr (u := .enc) h, execWord_eq_raiseErr (u := .dec) h⟩

/-! ### Leaving ERROR (R135, R136, R137) -/

/-- The `*_RESET` command of a unit with its ignored bits (R104, R114); the drivers' `resetCommand` has them 0. -/
def unitResetCommand (u : CodecUnit) (ignored : BitVec 28) : Instr :=
  match u with
  | .enc => .encReset ignored
  | .dec => .decReset ignored

/-- In ERROR every command of the unit but its own reset is discarded (R136). -/
theorem exec_of_unit_error_of_ne_reset {i : Instr} {u : CodecUnit} {s : State} (hu : i.unit = some u)
    (he : s.unitState u = .error) (hi : ∀ x, i ≠ unitResetCommand u x) : exec i s = .next s := by
  refine exec_of_unit_error hu he ?_ ?_
  all_goals
    rintro x rfl
    cases hu
    exact hi x rfl

/-- A word that takes a unit out of ERROR is that unit's reset (R137). -/
theorem decode_eq_reset_of_leaves_error {w : Word} {u : CodecUnit} {s t : State} (h : execWord w s = .next t)
    (he : s.unitState u = .error) (hne : t.unitState u ≠ .error) : ∃ x, decode w = .legal (unitResetCommand u x) := by
  cases hd : decode w with
  | legal i =>
    rw [execWord_of_legal hd] at h
    by_contra hreset
    by_cases hu : i.unit = some u
    · have hsame : exec i s = .next s :=
        exec_of_unit_error_of_ne_reset hu he fun x hx => hreset ⟨x, congrArg _ hx⟩
      rw [hsame] at h
      cases h
      exact hne he
    · exact hne ((exec_unitState_of_ne hu h).trans he)
  | illegal v why =>
    rw [execWord_of_illegal hd] at h
    cases h
    by_cases hv : v = u
    · subst hv
      rw [illegalCommand_of_error he] at hne
      exact absurd he hne
    · exact absurd ((illegalCommand_unitState_of_ne hv w s).trans he) hne

/-- Settles O32: the word is the unit's reset, and the reset leaves the unit IDLE with no error recorded. -/
theorem onlyUnitResetLeavesError : Obligations.OnlyUnitResetLeavesError := by
  refine fun w s t h => ⟨fun he hne => ?_, fun he hne => ?_⟩
  · obtain ⟨x, hx⟩ := decode_eq_reset_of_leaves_error (u := .enc) h he hne
    rw [execWord_of_legal hx] at h
    cases h
    exact ⟨⟨x, hx⟩, rfl, rfl, rfl⟩
  · obtain ⟨x, hx⟩ := decode_eq_reset_of_leaves_error (u := .dec) h he hne
    rw [execWord_of_legal hx] at h
    cases h
    exact ⟨⟨x, hx⟩, rfl, rfl, rfl⟩

/-! ### Several instances (R143) -/

/-- Settles O60: a step of instance `k` writes entry `k` of the list of instances, or nothing where there is none. -/
theorem instancesShareNothing : Obligations.InstancesShareNothing := by
  intro y y' k h
  obtain ⟨_, ⟨hnone, rfl⟩ | ⟨s, t, hs, hstep, rfl⟩⟩ := System.stepAt_next h
  · refine ⟨rfl, fun _ _ => rfl, fun s hs => ?_⟩
    rw [hnone] at hs
    cases hs
  · obtain ⟨hk, _⟩ := List.getElem?_eq_some_iff.mp hs
    refine ⟨List.length_set, fun j hj => List.getElem?_set_ne hj.symm, fun s' hs' => ?_⟩
    rw [hs] at hs'
    cases hs'
    exact ⟨t, hstep, List.getElem?_set_self hk⟩

end Sys2Proof.Machine
end

section
/-! Proofs of the statements of reset (70_reset_and_hazards.md): the reset step puts the block to its reset values (R147,
R148), and no table word it leaves has a value (R48). -/

namespace Sys2Proof.Machine

/-! ### The empty RAMs (R48) -/

/-- Outside bytes 1 to 3 of the CODE_RAM headers an unlisted byte has no value (R49). -/
theorem Memory.unlisted_eq_none {a : Nat} (h : a < 0x8000 ∨ a % 64 = 0 ∨ 4 ≤ a % 64) : Memory.unlisted a = none :=
  if_neg (by omega)

theorem Memory.readWord_nil {a : Nat} (h : a < 0x8000 ∨ a % 64 = 0 ∨ 4 ≤ a % 64) : Memory.readWord [] a = none :=
  Memory.readWord_of_read_none (Memory.unlisted_eq_none h)

theorem readWord_nil_nodeOffset (i : NodeIx) : Memory.readWord [] (nodeOffset i) = none :=
  Memory.readWord_nil (.inl (by unfold nodeOffset; omega))

theorem readWord_nil_codeOffset (sym : Byte) (k : Nat) : Memory.readWord [] (codeOffset sym k) = none :=
  Memory.readWord_nil (.inr (by unfold codeOffset; omega))

theorem codeLen_nil (sym : Byte) : codeLen [] sym = none :=
  Memory.unlisted_eq_none (.inr (.inl (by unfold codeOffset; omega)))

/-- Byte 3 of a header reads 0 while unlisted, so VALID is 0 in the empty RAMs. -/
theorem codeValid_nil (sym : Byte) : codeValid [] sym = false := by
  have hbyte : Memory.read [] (codeOffset sym 0 + 3) = some 0 := if_pos (by unfold codeOffset; omega)
  rw [codeValid, hbyte]
  rfl

/-! ### The reset step (R147, R148) -/

theorem hardReset_bus_some (a : Access) (s : State) :
    (hardReset (some a) s).bus = some { ack := false, err := true, rdata := some 0 } := rfl

/-- Settles O44: the step is the hardware reset, which leaves the RAMs empty. -/
theorem hardwareResetClearsTheBlock : Obligations.HardwareResetClearsTheBlock := by
  intro s p ts hb ht
  refine ⟨hardReset p { s with turns := ts }, step_of_reset hb ht, hardReset_cfg _ _, hardReset_treeValid _ _,
    hardReset_root _ _, hardReset_cmdLost _ _, hardReset_cfgDrop _ _, hardReset_enc _ _, hardReset_dec _ _,
    hardReset_cmdq _ _, ?_⟩
  rw [hardReset_mem]
  refine ⟨fun sym => ⟨codeValid_nil sym, codeLen_nil sym⟩, readWord_nil_nodeOffset,
    fun sym k _ _ => readWord_nil_codeOffset sym k, ?_, hardReset_turns _ _, hardReset_freeIdx _ _⟩
  rintro a rfl
  exact hardReset_bus_some a _

end Sys2Proof.Machine
end
